-- ==== Sys2Proof/Word.lean ====
section
/-! DEFINITION. The word and byte types (00_scope.md R7): unsigned, 32 and 8 bits. -/

namespace Sys2Proof

/-- A word: an unsigned integer in 0 .. 2^32 - 1, bit 0 the least significant (00_scope.md R7). -/
abbrev Word := BitVec 32

/-- A byte: an unsigned integer in 0 .. 255 (00_scope.md R7). -/
abbrev Byte := BitVec 8

end Sys2Proof
end

