-- ==== Sys2Proof/Syntax.lean ====
section
/-! DEFINITION. The commands: one constructor per row of spec/opcode_table.json. -/

namespace Sys2Proof

/-- The eight commands (30_encoding.md R97). -/
inductive Instr where
  /-- do nothing (43_control.md R200) -/
  | nop
  /-- encrypt `V` under `K` (40_cipher.md R120) -/
  | enc
  /-- decrypt `V` under `K` (40_cipher.md R122) -/
  | dec
  /-- start a new padding (41_padding.md R151) -/
  | pclr
  /-- offer one input byte (41_padding.md R152) -/
  | pushb (imm8 : Byte)
  /-- end of input: append the zero padding (41_padding.md R153) -/
  | pfin
  /-- load block `idx` of the padded buffer into `V` (42_converter.md R182) -/
  | ldblk (idx : Nat)
  /-- store `V` into block `idx` of the padded buffer (42_converter.md R183) -/
  | stblk (idx : Nat)
deriving DecidableEq, Repr

end Sys2Proof
end

