-- ==== Sys2Proof/WellFormed.lean ====
section
/-! DEFINITION. Which commands a command word can hold. -/

namespace Sys2Proof

/-- A block index is one the 8-bit field `ARG` holds, 0 .. 255 (30_encoding.md R96).
A pushed byte is a byte by its type, all 256 values legal (R95). -/
def Instr.wellFormed : Instr → Bool
  | .nop => true
  | .enc => true
  | .dec => true
  | .pclr => true
  | .pushb _ => true
  | .pfin => true
  | .ldblk idx => decide (idx < 256)
  | .stblk idx => decide (idx < 256)

/-- The same check as a proposition. -/
abbrev Instr.WellFormed (i : Instr) : Prop := i.wellFormed = true

end Sys2Proof
end

