-- ==== Sys2Proof/Decode.lean ====
section
/-! DEFINITION. The command word: fields, opcode map, decoder and encoder (30_encoding.md). -/

namespace Sys2Proof

/-- `OP = w[3:0]` (30_encoding.md R91). -/
def fieldOP (w : Word) : BitVec 4 := w.extractLsb' 0 4

/-- `Z0 = w[7:4]` (30_encoding.md R91). -/
def fieldZ0 (w : Word) : BitVec 4 := w.extractLsb' 4 4

/-- `ARG = w[15:8]` (30_encoding.md R91). -/
def fieldARG (w : Word) : Byte := w.extractLsb' 8 8

/-- `Z1 = w[31:16]` (30_encoding.md R91). -/
def fieldZ1 (w : Word) : BitVec 16 := w.extractLsb' 16 16

/-- Why a word is reserved (30_encoding.md R98). -/
inductive Reserved where
  /-- `w[31:16]` is not 0 -/
  | z1NotZero (z1 : BitVec 16)
  /-- `w[7:4]` is not 0 -/
  | z0NotZero (z0 : BitVec 4)
  /-- a format N command with an operand -/
  | argNotZero (op : BitVec 4) (arg : Byte)
  /-- `w[3:0]` is 8 or more -/
  | opReserved (op : BitVec 4)
deriving DecidableEq, Repr

/-- What the decoder answers: a command, or Illegal with the reason (30_encoding.md R100). -/
inductive Decoded where
  | command (i : Instr)
  | illegal (why : Reserved)
deriving DecidableEq, Repr

/-- A format N command: legal only with `ARG = 0` (30_encoding.md R92, R98). -/
def decodeN (w : Word) (i : Instr) : Decoded :=
  if fieldARG w = 0 then .command i else .illegal (.argNotZero (fieldOP w) (fieldARG w))

/-- The decoder, total on all words (30_encoding.md R100). -/
def decode (w : Word) : Decoded :=
  if fieldZ1 w ≠ 0 then .illegal (.z1NotZero (fieldZ1 w))
  else if fieldZ0 w ≠ 0 then .illegal (.z0NotZero (fieldZ0 w))
  else match (fieldOP w).toNat with
    | 0 => decodeN w .nop
    | 1 => decodeN w .enc
    | 2 => decodeN w .dec
    | 3 => decodeN w .pclr
    | 4 => .command (.pushb (fieldARG w))
    | 5 => decodeN w .pfin
    | 6 => .command (.ldblk (fieldARG w).toNat)
    | 7 => .command (.stblk (fieldARG w).toNat)
    | _ => .illegal (.opReserved (fieldOP w))

/-- The word with the given `ARG` and `OP` and zeros in `Z1` and `Z0` (30_encoding.md R91 to R94). -/
def wordOf (arg : Byte) (op : BitVec 4) : Word := (0 : BitVec 16) ++ arg ++ (0 : BitVec 4) ++ op

/-- The encoder (30_encoding.md R97, R100). -/
def encode : Instr → Word
  | .nop => wordOf 0 0
  | .enc => wordOf 0 1
  | .dec => wordOf 0 2
  | .pclr => wordOf 0 3
  | .pushb imm8 => wordOf imm8 4
  | .pfin => wordOf 0 5
  | .ldblk idx => wordOf (BitVec.ofNat 8 idx) 6
  | .stblk idx => wordOf (BitVec.ofNat 8 idx) 7

/-- One row of the opcode map: a word `w` selects the row when `w AND mask = pattern` (30_encoding.md R97). -/
structure OpcodeRow where
  mnemonic : String
  mask : Word
  pattern : Word
deriving DecidableEq, Repr

/-- The opcode map as the spec prints it (30_encoding.md R97). -/
def opcodeMap : List OpcodeRow :=
  [ ⟨"NOP", 0xFFFFFFFF, 0x00000000⟩, ⟨"ENC", 0xFFFFFFFF, 0x00000001⟩, ⟨"DEC", 0xFFFFFFFF, 0x00000002⟩,
    ⟨"PCLR", 0xFFFFFFFF, 0x00000003⟩, ⟨"PUSHB", 0xFFFF00FF, 0x00000004⟩, ⟨"PFIN", 0xFFFFFFFF, 0x00000005⟩,
    ⟨"LDBLK", 0xFFFF00FF, 0x00000006⟩, ⟨"STBLK", 0xFFFF00FF, 0x00000007⟩ ]

/-- Whether a word selects a row of the opcode map (30_encoding.md R97). -/
def OpcodeRow.selects (r : OpcodeRow) (w : Word) : Bool := w &&& r.mask == r.pattern

/-- A command's mnemonic (30_encoding.md R97). -/
def Instr.mnemonic : Instr → String
  | .nop => "NOP"
  | .enc => "ENC"
  | .dec => "DEC"
  | .pclr => "PCLR"
  | .pushb _ => "PUSHB"
  | .pfin => "PFIN"
  | .ldblk _ => "LDBLK"
  | .stblk _ => "STBLK"

/-- The command of a word given as a number whose bits are counted as spec/opcode_table.json counts them.
A number of more than 32 bits is no command word (30_encoding.md R90; log entry 21). -/
def decodeTableWord (nbits w : Nat) : Option Instr :=
  if nbits ≤ 32 ∧ w < 2 ^ 32 then
    match decode (BitVec.ofNat 32 w) with
    | .command i => some i
    | .illegal _ => none
  else none

end Sys2Proof
end

