-- ==== Sys2Proof/Config.lean ====
section
/-! DEFINITION. The one parameter of the block that the model keeps open (00_scope.md R5). -/

namespace Sys2Proof

/-- The configuration of one block.
`maxLenCap` is `MAX_LEN_CAP`, legal range 0 to 2040 (00_scope.md R5), hence below 2041.
The other parameters of R5 are fixed (`N_ENGINES` is 1), follow from this one (`BUF_BYTES`), or are outside
the model (`BUS_PROTOCOL`, `REG_BASE`: log entry 18). -/
structure Config where
  maxLenCap : Fin 2041
deriving DecidableEq, Repr

/-- The default parameters: `MAX_LEN_CAP = 128` (00_scope.md R5). -/
def Config.default : Config := { maxLenCap := 128 }

end Sys2Proof
end

