-- ==== Sys2Proof/Machine/State.lean ====
section
/-! DEFINITION. What the machine holds, how it can stop, and its state after reset. Plain data throughout. -/

namespace Sys2Proof.Machine

/-- A data register `K[i]` or `V[i]`: its word, and whether it holds a value (10_state.md R43).
The word of a register that is not held has no meaning and nothing reads it. -/
structure Reg where
  word : Word
  held : Bool
deriving DecidableEq, Repr

/-- The name of a data register (10_state.md R21, R22). -/
inductive RegName where
  | k (i : Fin 4)
  | v (i : Fin 2)
deriving DecidableEq, Repr

/-- The width of a host access; only `word` is inside the contract (20_memory.md R61, R66). -/
inductive AccessWidth where
  | byte
  | half
  | word
  | double
deriving DecidableEq, Repr

/-- Whether a host access reads or writes. -/
inductive Direction where
  | read
  | write
deriving DecidableEq, Repr

/-- One bus access of the HOST at byte offset `off` from `REG_BASE` (20_memory.md R61).
A data word of another width than 32 bits is never looked at, so `w` is a word for every width (log entry 15). -/
inductive Transaction where
  | read (off : Nat) (width : AccessWidth)
  | write (off : Nat) (width : AccessWidth) (w : Word)
deriving DecidableEq, Repr

/-- What can happen next to the block (log entries 5, 6, 7). -/
inductive Move where
  /-- one bus transaction of the HOST; a command written to `CMD` is latched, the ENGINE acts in later moves
  (43_control.md R201) -/
  | bus (t : Transaction)
  /-- `w` written to `CMD`, with the whole command up to its completion in the same step (20_memory.md R71 d,
  43_control.md R207); a command line of a listing is this move and then `wait` (30_encoding.md R102) -/
  | command (w : Word)
  /-- one step of the ENGINE (43_control.md R207) -/
  | engine
  /-- the pseudo-instruction WAIT (43_control.md R206) -/
  | wait
  /-- the environment asserts the reset input (70_reset_and_hazards.md R240) -/
  | rst
deriving DecidableEq, Repr

/-- What was used out of order: the information of CV_SEQ (60_exceptions.md R216). -/
inductive SeqUse where
  | command (i : Instr)
  | maxlenWrite (w : Word)
deriving DecidableEq, Repr

/-- Why the machine stops. The hardware reports none of these (60_exceptions.md R215, R223).
The first six are the contract violations of R216, in the order of R224; the rest arise only in states that no run
without a violation reaches. All are safe: the model stops where a real block would go on in a state the spec leaves
unspecified. -/
inductive Fault where
  /-- raised by any host access that is no 32-bit access at a multiple of 4 in 0x00 .. 0x3C (R217); safe -/
  | cvBusacc (off : Nat) (width : AccessWidth)
  /-- raised by any host access but a STATUS read while `BUSY = 1` (R218); safe -/
  | cvBusy (off : Nat) (dir : Direction)
  /-- raised by a write of a reserved word to `CMD` (R219); safe -/
  | cvIllcmd (w : Word)
  /-- raised by PUSHB, PFIN and a MAXLEN write out of order (R220); safe -/
  | cvSeq (what : SeqUse)
  /-- raised by LDBLK and STBLK with no such block in a finished buffer (R221); safe -/
  | cvRange (idx : Nat) (padlen : Word)
  /-- raised by ENC, DEC, STBLK and a host read of a register that holds no value: the spec forbids that read, lets the
  model take neither zero nor a fixed unknown value for it, and has the model fault (10_state.md R43; R216, R222, R223);
  safe -/
  | cvUninit (r : RegName)
  /-- raised by a MemRead or MemWrite that leaves `BUF`, address of its first byte (20_memory.md R77; log entry 10); safe -/
  | bufAbsent (a : Nat)
  /-- raised by a MemRead of a byte that nothing has written (20_memory.md R77; log entries 4, 10); safe -/
  | bufUnwritten (a : Nat)
  /-- raised by an ENGINE step with a word in `OPL` that is no command (log entry 10); safe -/
  | oplIllegal (w : Word)
deriving DecidableEq, Repr

/-- Why an instruction has no meaning. -/
inductive Refusal where
  /-- raised by `exec` for an instruction without a meaning; this model has none; safe -/
  | notModelled (mnemonic : String)
deriving DecidableEq, Repr

/-- The bytes of `BUF` that have been written since reset, addresses strictly rising.
An unlisted address holds no value (10_state.md R42; log entry 4). -/
abbrev Memory := List Host.Cell

/-- The machine. INVENTORY.md lists every field with its rule. -/
structure State where
  /-- the parameters, which no step changes (00_scope.md R5; log entry 1) -/
  cfg : Config
  /-- `K[0..3]` (10_state.md R21) -/
  k : Vector Reg 4
  /-- `V[0..1]` (10_state.md R22) -/
  v : Vector Reg 2
  /-- `MAXLEN` (10_state.md R33) -/
  maxlen : Word
  /-- `INLEN` (10_state.md R34) -/
  inlen : Word
  /-- `PADLEN` (10_state.md R35) -/
  padlen : Word
  /-- `BUSY` (10_state.md R27) -/
  busy : Bool
  /-- `DONE` (10_state.md R28) -/
  done : Bool
  /-- `PADDED` (10_state.md R29) -/
  padded : Bool
  /-- `OPL`, the latched command word (10_state.md R24) -/
  opl : Word
  /-- whether the ENGINE has started the command in `OPL` (40_cipher.md R121; log entry 11) -/
  begun : Bool
  /-- `RND`, the rounds done (10_state.md R25) -/
  rnd : BitVec 6
  /-- `SUM` (10_state.md R26) -/
  sum : Word
  /-- the written bytes of `BUF` (10_state.md R39) -/
  buf : Memory
  /-- the moves to come, oldest first (log entry 5) -/
  agenda : List Move
  /-- the words the HOST's reads returned, oldest first (70_reset_and_hazards.md R253; log entry 16) -/
  reads : List Word
deriving DecidableEq, Repr

/-- A register that holds no value (10_state.md R42, R43).
DESIGN CHOICE: its word is 0, which nothing reads; unsafe (log entry 2). -/
def Reg.blank : Reg := { word := 0, held := false }

/-- A block with the given parameters right after reset (10_state.md R42), with nothing left to do and nothing read.
DESIGN CHOICE: `OPL`, `RND`, `SUM` and `begun` are 0, where the spec gives none; unsafe (log entry 3). -/
def State.resetOf (cfg : Config) : State where
  cfg := cfg
  k := #v[.blank, .blank, .blank, .blank]
  v := #v[.blank, .blank]
  maxlen := BitVec.ofNat 32 cfg.maxLenCap.val
  inlen := 0
  padlen := 0
  busy := false
  done := false
  padded := false
  opl := 0
  begun := false
  rnd := 0
  sum := 0
  buf := []
  agenda := []
  reads := []

/-- The machine right after reset, with the default parameters (10_state.md R42, 00_scope.md R5). -/
def State.reset : State := .resetOf .default

end Sys2Proof.Machine
end

