-- ==== Sys2Proof/Machine/Ops.lean ====
section
/-! DEFINITION. The named operations over `BUF`, the registers and the environment's lists.
There is no exception to take and none to return from (60_exceptions.md R215, R226, R227). -/

namespace Sys2Proof.Machine

/-- What a meaning answers. -/
abbrev Result := Host.Outcome State Fault Refusal

/-- Go on from a next state; a fault or a refusal ends the step. -/
def andThen (o : Result) (f : State → Result) : Result :=
  match o with
  | .next s => f s
  | .fault r => .fault r
  | .refused r => .refused r

/-- `BUF_BYTES = MAX_LEN_CAP + 8` (00_scope.md R5). -/
def bufBytes (s : State) : Nat := s.cfg.maxLenCap.val + 8

/-! ### The bytes of `BUF` -/

/-- The byte at an address, if anything has written it (10_state.md R42, R43; log entry 4). -/
def Memory.lookup : Memory → Nat → Option Byte
  | [], _ => none
  | (x, b) :: m, a => if a = x then some b else Memory.lookup m a

/-- Write one byte, keeping the addresses strictly rising. -/
def Memory.insert : Memory → Nat → Byte → Memory
  | [], a, b => [(a, b)]
  | (x, c) :: m, a, b =>
    if a < x then (a, b) :: (x, c) :: m
    else if a = x then (a, b) :: m
    else (x, c) :: Memory.insert m a b

/-- Write a list of bytes, lowest address first (00_scope.md R10). -/
def Memory.insertAll : Memory → Nat → List Byte → Memory
  | m, _, [] => m
  | m, a, b :: bs => Memory.insertAll (Memory.insert m a b) (a + 1) bs

/-- The canonical form: addresses strictly rising. -/
def Memory.wf : Memory → Bool
  | [] => true
  | [_] => true
  | (a, _) :: (b, c) :: m => decide (a < b) && Memory.wf ((b, c) :: m)

/-- `n` bytes from address `a` on, or the lowest address among them that holds no value. -/
def Memory.readN (m : Memory) (a : Nat) : (n : Nat) → Except Nat (Vector Byte n)
  | 0 => .ok #v[]
  | n + 1 =>
    match Memory.readN m a n with
    | .error x => .error x
    | .ok bs =>
      match Memory.lookup m (a + n) with
      | none => .error (a + n)
      | some b => .ok (bs.push b)

/-- `MemRead(a, n)`: defined inside `BUF` and on written bytes only (20_memory.md R77). -/
def memRead (s : State) (a n : Nat) : Except Fault (Vector Byte n) :=
  if a + n ≤ bufBytes s then
    match Memory.readN s.buf a n with
    | .error x => .error (.bufUnwritten x)
    | .ok bs => .ok bs
  else .error (.bufAbsent a)

/-- `BUF` with other contents. -/
def setBuf (s : State) (m : Memory) : State := { s with buf := m }

/-- `MemWrite(a, n, bs)` with `n` the length of `bs`: defined inside `BUF` only (20_memory.md R77). -/
def memWrite (s : State) (a : Nat) (bs : List Byte) : Result :=
  if a + bs.length ≤ bufBytes s then .next (setBuf s (Memory.insertAll s.buf a bs))
  else .fault (.bufAbsent a)

/-! ### The data registers -/

/-- A register into which a word has been written: it holds a value from then on (60_exceptions.md R222). -/
def Reg.written (w : Word) : Reg := { word := w, held := true }

/-- Read a data register: CV_UNINIT if it holds no value (10_state.md R43: "is the contract violation `CV_UNINIT`", and
"The model must not take zero, and must not take one fixed unknown value"; 60_exceptions.md R222). -/
def Reg.read (r : Reg) (name : RegName) : Except Fault Word :=
  if r.held then .ok r.word else .error (.cvUninit name)

/-- `K[i] <- w` (43_control.md R204). -/
def setK (s : State) (i : Fin 4) (w : Word) : State := { s with k := s.k.set i (.written w) }

/-- `V[i] <- w` (43_control.md R204). -/
def setV (s : State) (i : Fin 2) (w : Word) : State := { s with v := s.v.set i (.written w) }

/-- Both words of the block at once (40_cipher.md R120, 42_converter.md R182). -/
def setBlock (s : State) (v0 v1 : Word) : State := { s with v := #v[.written v0, .written v1] }

/-- `SUM` and `RND` (40_cipher.md R121, R123). -/
def setMix (s : State) (sum : Word) (rnd : BitVec 6) : State := { s with sum := sum, rnd := rnd }

/-- `MAXLEN <- min(w, MAX_LEN_CAP)` (10_state.md R33). -/
def setMaxlen (s : State) (w : Word) : State :=
  { s with maxlen := BitVec.ofNat 32 (min w.toNat s.cfg.maxLenCap.val) }

/-- `INLEN <- w` (41_padding.md R152). -/
def setInlen (s : State) (w : Word) : State := { s with inlen := w }

/-- `INLEN <- 0 ; PADLEN <- 0 ; PADDED <- 0` (41_padding.md R151). -/
def clearPadding (s : State) : State := { s with inlen := 0, padlen := 0, padded := false }

/-- `PADLEN <- w ; PADDED <- 1` (41_padding.md R153). -/
def publishPadding (s : State) (w : Word) : State := { s with padlen := w, padded := true }

/-! ### The environment's lists, and reset -/

/-- A word has been returned to the HOST. -/
def logRead (s : State) (w : Word) : State := { s with reads := s.reads ++ [w] }

/-- The moves still to come. -/
def setAgenda (s : State) (ms : List Move) : State := { s with agenda := ms }

/-- The reset event: every piece of the block's state goes to its reset value, whatever it was
(70_reset_and_hazards.md R240 to R242). The parameters and the environment's own lists stay (log entry 20). -/
def resetBlock (s : State) : State := { State.resetOf s.cfg with agenda := s.agenda, reads := s.reads }

end Sys2Proof.Machine
end

