-- ==== Sys2Proof/Machine/Operands.lean ====
section
/-! DEFINITION. Arithmetic primitives, the byte order, and the operands of the commands. -/

namespace Sys2Proof.Machine

/-! ### Constants (00_scope.md R4) -/

/-- `DELTA` (00_scope.md R4). -/
@[irreducible] def delta : Word := 0x9E3779B9

/-- `DEC_SUM0` (00_scope.md R4). -/
@[irreducible] def decSum0 : Word := 0xC6EF3720

/-- `ROUNDS` (00_scope.md R4). -/
def rounds : Nat := 32

/-- `PAD_BYTE` (00_scope.md R4). -/
def padByte : Byte := 0x00

/-! ### Arithmetic primitives (00_scope.md R8)

Irreducible: the unifier is not to compute with open words and large numerals; `unfold` opens each. -/

/-- Addition modulo 2^32. -/
@[irreducible] def add32 (a b : Word) : Word := a + b

/-- Subtraction modulo 2^32. -/
@[irreducible] def sub32 (a b : Word) : Word := a - b

/-- Logical shift left by 4. -/
@[irreducible] def shl4 (x : Word) : Word := x <<< 4

/-- Logical shift right by 5. -/
@[irreducible] def shr5 (x : Word) : Word := x >>> 5

/-- Bitwise exclusive OR. PRESUMED: PIA1 never names its `^`; unsafe (log entry 12). -/
@[irreducible] def xor32 (a b : Word) : Word := a ^^^ b

/-- The mixing term `F(x, s, ka, kb)`. -/
@[irreducible] def mixF (x s ka kb : Word) : Word :=
  xor32 (xor32 (add32 (shl4 x) ka) (add32 x s)) (add32 (shr5 x) kb)

/-! ### Bytes and words (00_scope.md R9) -/

/-- Four bytes to a word, `b0` the low-order byte. -/
def le32 (b0 b1 b2 b3 : Byte) : Word := b3 ++ b2 ++ b1 ++ b0

/-- Byte `j` of a word, byte 0 the low-order byte. -/
def byteOf (w : Word) (j : Nat) : Byte := w.extractLsb' (8 * j) 8

/-! ### Blocks and keys (00_scope.md R11) -/

/-- A block `(v0, v1)`. -/
structure Block where
  v0 : Word
  v1 : Word
deriving DecidableEq, Repr

/-- A key `(k0, k1, k2, k3)`. -/
structure Key where
  k0 : Word
  k1 : Word
  k2 : Word
  k3 : Word
deriving DecidableEq, Repr

/-- Eight bytes, lowest address first, to a block (42_converter.md R180). -/
def pack (b : Vector Byte 8) : Block :=
  { v0 := le32 b[0] b[1] b[2] b[3], v1 := le32 b[4] b[5] b[6] b[7] }

/-- A block to its eight bytes, lowest address first (42_converter.md R181). -/
def unpack (v : Block) : Vector Byte 8 :=
  #v[byteOf v.v0 0, byteOf v.v0 1, byteOf v.v0 2, byteOf v.v0 3,
     byteOf v.v1 0, byteOf v.v1 1, byteOf v.v1 2, byteOf v.v1 3]

/-- The key in `K[0..3]`, or CV_UNINIT for the first that holds no value (60_exceptions.md R222; log entry 9). -/
def keyOperand (s : State) : Except Fault Key := do
  let k0 ← s.k[0].read (.k 0)
  let k1 ← s.k[1].read (.k 1)
  let k2 ← s.k[2].read (.k 2)
  let k3 ← s.k[3].read (.k 3)
  return { k0 := k0, k1 := k1, k2 := k2, k3 := k3 }

/-- The block in `V[0..1]`, or CV_UNINIT for the first that holds no value (60_exceptions.md R222; log entry 9). -/
def blockOperand (s : State) : Except Fault Block := do
  let v0 ← s.v[0].read (.v 0)
  let v1 ← s.v[1].read (.v 1)
  return { v0 := v0, v1 := v1 }

/-- The operands of ENC and DEC: the key, then the block (40_cipher.md R120, R122; log entry 9). -/
def cipherOperands (s : State) : Except Fault (Key × Block) := do
  let k ← keyOperand s
  let v ← blockOperand s
  return (k, v)

/-- The violation a precondition on operands raises, if any. -/
def violation {α : Type} : Except Fault α → Option Fault
  | .ok _ => none
  | .error f => some f

end Sys2Proof.Machine
end

