-- ==== Sys2Proof/Machine/Flags.lean ====
section
/-! DEFINITION. The flags `BUSY`, `DONE`, `PADDED`, the word `STATUS` and the life of a command.
There are no condition codes (10_state.md R30). -/

namespace Sys2Proof.Machine

/-- `STATUS = BUSY + 2 * DONE + 4 * PADDED`, bits 31:3 zero (10_state.md R32, 43_control.md R203). -/
def statusWord (s : State) : Word :=
  (0 : BitVec 29) ++ BitVec.ofBool s.padded ++ BitVec.ofBool s.done ++ BitVec.ofBool s.busy

/-- An accepted command word: `OPL <- w ; BUSY <- 1 ; DONE <- 0` (43_control.md R201), and the ENGINE has not
started it. -/
def accept (s : State) (w : Word) : State := { s with opl := w, busy := true, done := false, begun := false }

/-- The ENGINE has started the command in `OPL` (40_cipher.md R121; log entry 11). -/
def startCommand (s : State) : State := { s with begun := true }

/-- The completion step: `BUSY <- 0 ; DONE <- 1` (43_control.md R207). -/
def complete (s : State) : State := { s with busy := false, done := true }

/-- A command from its `CMD` write to its completion, as one step (43_control.md R201, R207; 20_memory.md R71 d):
it needs an idle block and its precondition, then it is accepted, has its effect and completes. -/
def perform (i : Instr) (pre : Option Fault) (effect : State → Result) (s : State) : Result :=
  if s.busy then .fault (.cvBusy 0 .write)
  else
    match pre with
    | some f => .fault f
    | none => andThen (effect (startCommand (accept s (encode i)))) (fun t => .next (complete t))

end Sys2Proof.Machine
end

