-- ==== Sys2Proof/Machine/Cipher.lean ====
section
/-! DEFINITION. The cipher commands ENC and DEC (40_cipher.md). -/

namespace Sys2Proof.Machine

/-- The accumulator `sum` and the block between two rounds (40_cipher.md R120, R122). -/
structure Mix where
  sum : Word
  block : Block
deriving DecidableEq, Repr

/-- One round of encrypt; the second half reads the `v0` of the first half (40_cipher.md R120). Irreducible, like all the
word arithmetic: no proof unfolds it by accident, `unfold encRound` opens it. -/
@[irreducible] def encRound (k : Key) (m : Mix) : Mix :=
  let sum := add32 m.sum delta
  let v0 := add32 m.block.v0 (mixF m.block.v1 sum k.k0 k.k1)
  let v1 := add32 m.block.v1 (mixF v0 sum k.k2 k.k3)
  { sum := sum, block := { v0 := v0, v1 := v1 } }

/-- One round of decrypt; `v1` before `v0`, and `sum` steps back at the end (40_cipher.md R122). -/
@[irreducible] def decRound (k : Key) (m : Mix) : Mix :=
  let v1 := sub32 m.block.v1 (mixF m.block.v0 m.sum k.k2 k.k3)
  let v0 := sub32 m.block.v0 (mixF v1 m.sum k.k0 k.k1)
  { sum := sub32 m.sum delta, block := { v0 := v0, v1 := v1 } }

/-- `r` rounds of encrypt. -/
def encRounds (k : Key) (r : Nat) (m : Mix) : Mix := (encRound k)^[r] m

/-- `r` rounds of decrypt. -/
def decRounds (k : Key) (r : Nat) (m : Mix) : Mix := (decRound k)^[r] m

/-- The whole of encrypt, with the last `sum` (40_cipher.md R120). -/
@[irreducible] def encMix (v : Block) (k : Key) : Mix := encRounds k rounds { sum := 0, block := v }

/-- The whole of decrypt, with the last `sum` (40_cipher.md R122). -/
@[irreducible] def decMix (v : Block) (k : Key) : Mix := decRounds k rounds { sum := decSum0, block := v }

/-- `encrypt(v, k)` (40_cipher.md R120). -/
def encrypt (v : Block) (k : Key) : Block := (encMix v k).block

/-- `decrypt(v, k)` (40_cipher.md R122). -/
def decrypt (v : Block) (k : Key) : Block := (decMix v k).block

/-- `SUM`, `RND` and `V` after some rounds. -/
def putMix (s : State) (m : Mix) (rnd : BitVec 6) : State :=
  setBlock (setMix s m.sum rnd) m.block.v0 m.block.v1

/-- ENC_START: `SUM <- 0 ; RND <- 0` (40_cipher.md R121). -/
def encStart (s : State) : Result := .next (setMix s 0 0)

/-- DEC_START: `SUM <- 0xC6EF3720 ; RND <- 0` (40_cipher.md R123). -/
def decStart (s : State) : Result := .next (setMix s decSum0 0)

/-- ENC_ROUND (40_cipher.md R121). -/
def encRoundStep (s : State) : Result :=
  match cipherOperands s with
  | .error f => .fault f
  | .ok (k, v) => .next (putMix s (encRound k { sum := s.sum, block := v }) (s.rnd + 1))

/-- DEC_ROUND (40_cipher.md R123). -/
def decRoundStep (s : State) : Result :=
  match cipherOperands s with
  | .error f => .fault f
  | .ok (k, v) => .next (putMix s (decRound k { sum := s.sum, block := v }) (s.rnd + 1))

/-- ENC and DEC need every operand to hold a value (40_cipher.md R120, R122). -/
def cipherPre (s : State) : Option Fault := violation (cipherOperands s)

/-- The effect of ENC as one operation (40_cipher.md R120).
`SUM` and `RND` end as R121's steps leave them, where they have no meaning (log entry 14). -/
def encEffect (s : State) : Result :=
  match cipherOperands s with
  | .error f => .fault f
  | .ok (k, v) => .next (putMix s (encMix v k) 32)

/-- The effect of DEC as one operation (40_cipher.md R122; log entry 14). -/
def decEffect (s : State) : Result :=
  match cipherOperands s with
  | .error f => .fault f
  | .ok (k, v) => .next (putMix s (decMix v k) 32)

/-- ENC (40_cipher.md R120). -/
def execEnc (s : State) : Result := perform .enc (cipherPre s) encEffect s

/-- DEC (40_cipher.md R122). -/
def execDec (s : State) : Result := perform .dec (cipherPre s) decEffect s

end Sys2Proof.Machine
end

