-- ==== Sys2Proof/Machine/Control.lean ====
section
/-! DEFINITION. The command NOP (43_control.md R200). -/

namespace Sys2Proof.Machine

/-- NOP has no effect of its own (43_control.md R200). -/
def nopEffect (s : State) : Result := .next s

/-- NOP (43_control.md R200). -/
def execNop (s : State) : Result := perform .nop none nopEffect s

end Sys2Proof.Machine
end

