-- ==== Sys2Proof/Machine/Converter.lean ====
section
/-! DEFINITION. The converter commands LDBLK and STBLK (42_converter.md). -/

namespace Sys2Proof.Machine

/-- The byte offset of block `idx` in `BUF` (20_memory.md R65, 30_encoding.md R96). -/
def blockAddr (idx : Nat) : Nat := 8 * idx

/-- A block index needs a finished buffer that has the block (60_exceptions.md R221). -/
def rangePre (idx : Nat) (s : State) : Option Fault :=
  if s.padded = true ∧ idx < s.padlen.toNat / 8 then none else some (.cvRange idx s.padlen)

/-- LDBLK (42_converter.md R182). -/
def ldblkEffect (idx : Nat) (s : State) : Result :=
  match memRead s (blockAddr idx) 8 with
  | .error f => .fault f
  | .ok bs => .next (setBlock s (pack bs).v0 (pack bs).v1)

/-- STBLK needs the range first, then both words of `V` (42_converter.md R183, 60_exceptions.md R224). -/
def stblkPre (idx : Nat) (s : State) : Option Fault :=
  match rangePre idx s with
  | some f => some f
  | none => violation (blockOperand s)

/-- STBLK (42_converter.md R183). -/
def stblkEffect (idx : Nat) (s : State) : Result :=
  match blockOperand s with
  | .error f => .fault f
  | .ok v => memWrite s (blockAddr idx) (unpack v).toList

/-- LDBLK (42_converter.md R182). -/
def execLdblk (idx : Nat) (s : State) : Result := perform (.ldblk idx) (rangePre idx s) (ldblkEffect idx) s

/-- STBLK (42_converter.md R183). -/
def execStblk (idx : Nat) (s : State) : Result := perform (.stblk idx) (stblkPre idx s) (stblkEffect idx) s

end Sys2Proof.Machine
end

