-- ==== Sys2Proof/Machine/Padding.lean ====
section
/-! DEFINITION. The padding commands PCLR, PUSHB, PFIN and the function `pad` (41_padding.md). -/

namespace Sys2Proof.Machine

/-- How many zero bytes follow `len` copied bytes (41_padding.md R150, R153). -/
def npad (len : Nat) : Nat :=
  if len = 0 then 8 else if len % 8 ≠ 0 then 8 - len % 8 else 0

/-- `pad(input, max_len)`: the padded bytes and their number (41_padding.md R150). -/
def pad (input : List Byte) (maxLen : Nat) : List Byte × Nat :=
  let len := min input.length maxLen
  (input.take len ++ List.replicate (npad len) padByte, len + npad len)

/-- PCLR (41_padding.md R151). The bytes of `BUF` keep their values (log entry 13). -/
def pclrEffect (s : State) : Result := .next (clearPadding s)

/-- PUSHB needs `PADDED = 0` (41_padding.md R152, 60_exceptions.md R220). -/
def pushbPre (imm8 : Byte) (s : State) : Option Fault :=
  if s.padded then some (.cvSeq (.command (.pushb imm8))) else none

/-- PUSHB: store the byte, or drop it silently at the bound (41_padding.md R152, R156). -/
def pushbEffect (imm8 : Byte) (s : State) : Result :=
  if s.inlen < s.maxlen then
    andThen (memWrite s s.inlen.toNat [imm8]) (fun t => .next (setInlen t (t.inlen + 1)))
  else .next s

/-- PFIN needs `PADDED = 0` (41_padding.md R153, 60_exceptions.md R220). -/
def pfinPre (s : State) : Option Fault :=
  if s.padded then some (.cvSeq (.command .pfin)) else none

/-- PFIN: append the zero bytes and publish the length (41_padding.md R153). -/
def pfinEffect (s : State) : Result :=
  let n := npad s.inlen.toNat
  andThen (memWrite s s.inlen.toNat (List.replicate n padByte))
    (fun t => .next (publishPadding t (BitVec.ofNat 32 (s.inlen.toNat + n))))

/-- PCLR (41_padding.md R151). -/
def execPclr (s : State) : Result := perform .pclr none pclrEffect s

/-- PUSHB (41_padding.md R152). -/
def execPushb (imm8 : Byte) (s : State) : Result := perform (.pushb imm8) (pushbPre imm8 s) (pushbEffect imm8) s

/-- PFIN (41_padding.md R153). -/
def execPfin (s : State) : Result := perform .pfin (pfinPre s) pfinEffect s

end Sys2Proof.Machine
end

