-- ==== Sys2Proof/Machine/Engine.lean ====
section
/-! DEFINITION. A command taken step by step: its acceptance at the `CMD` write (43_control.md R201) and the
ENGINE's own steps (43_control.md R207, 40_cipher.md R121, R123). -/

namespace Sys2Proof.Machine

/-- The violation that the command raises at the `CMD` write, if its precondition fails (43_control.md R201). -/
def precondition (i : Instr) (s : State) : Option Fault :=
  match i with
  | .nop => none
  | .enc => cipherPre s
  | .dec => cipherPre s
  | .pclr => none
  | .pushb imm8 => pushbPre imm8 s
  | .pfin => pfinPre s
  | .ldblk idx => rangePre idx s
  | .stblk idx => stblkPre idx s

/-- A word written to `CMD` when idle (43_control.md R201). -/
def issue (w : Word) (s : State) : Result :=
  match decode w with
  | .illegal _ => .fault (.cvIllcmd w)
  | .command i =>
    match precondition i s with
    | some f => .fault f
    | none => .next (accept s w)

/-- The ENGINE's first step of a command: the start step of ENC and DEC, the one effect step of the others
(43_control.md R207). -/
def firstStep (i : Instr) (s : State) : Result :=
  match i with
  | .nop => nopEffect s
  | .enc => encStart s
  | .dec => decStart s
  | .pclr => pclrEffect s
  | .pushb imm8 => pushbEffect imm8 s
  | .pfin => pfinEffect s
  | .ldblk idx => ldblkEffect idx s
  | .stblk idx => stblkEffect idx s

/-- A step of a command that has started: a round while `RND < 32`, else the completion step
(40_cipher.md R121, R123; 43_control.md R207). -/
def laterStep (i : Instr) (s : State) : Result :=
  match i with
  | .nop => .next (complete s)
  | .enc => if s.rnd.toNat < rounds then encRoundStep s else .next (complete s)
  | .dec => if s.rnd.toNat < rounds then decRoundStep s else .next (complete s)
  | .pclr => .next (complete s)
  | .pushb _ => .next (complete s)
  | .pfin => .next (complete s)
  | .ldblk _ => .next (complete s)
  | .stblk _ => .next (complete s)

/-- One step of the ENGINE: none while `BUSY = 0` (10_state.md R20, 60_exceptions.md R233).
A word in `OPL` that is no command faults; no run reaches that (log entry 10). -/
def engineStep (s : State) : Result :=
  if s.busy then
    match decode s.opl with
    | .illegal _ => .fault (.oplIllegal s.opl)
    | .command i => if s.begun then laterStep i s else firstStep i (startCommand s)
  else .next s

/-- How many ENGINE steps a command takes, the completion step counted (43_control.md R207). -/
def engineSteps : Instr → Nat
  | .nop => 2
  | .enc => 34
  | .dec => 34
  | .pclr => 2
  | .pushb _ => 2
  | .pfin => 2
  | .ldblk _ => 2
  | .stblk _ => 2

/-- `n` steps of the ENGINE. -/
def engineRun : Nat → State → Result
  | 0, s => .next s
  | n + 1, s => andThen (engineStep s) (engineRun n)

end Sys2Proof.Machine
end

