-- ==== Sys2Proof/Machine/Bus.lean ====
section
/-! DEFINITION. The register window: the HOST's reads and writes (10_state.md R31 to R37, 43_control.md R201 to R205). -/

namespace Sys2Proof.Machine

/-- The registers of the window (10_state.md R36). -/
inductive WindowReg where
  | cmd
  | status
  | maxlen
  | inlen
  | padlen
  | data (r : RegName)
  | reserved
deriving DecidableEq, Repr

/-- The register at an offset of the window; an offset with no name is reserved (10_state.md R36). -/
def windowReg (off : Nat) : WindowReg :=
  match off with
  | 0x00 => .cmd
  | 0x04 => .status
  | 0x08 => .maxlen
  | 0x0C => .inlen
  | 0x10 => .padlen
  | 0x20 => .data (.k 0)
  | 0x24 => .data (.k 1)
  | 0x28 => .data (.k 2)
  | 0x2C => .data (.k 3)
  | 0x30 => .data (.v 0)
  | 0x34 => .data (.v 1)
  | _ => .reserved

/-- Whether an access is inside the contract of the bus: 32 bits at a multiple of 4 in 0x00 .. 0x3C
(60_exceptions.md R217). -/
def validAccess (off : Nat) (width : AccessWidth) : Bool :=
  decide (width = .word ∧ off % 4 = 0 ∧ off ≤ 0x3C)

/-- The data register of a name. -/
def dataReg (s : State) (r : RegName) : Reg :=
  match r with
  | .k i => s.k[i]
  | .v i => s.v[i]

/-- `K[i] <- w` or `V[i] <- w` (43_control.md R204). -/
def setData (s : State) (r : RegName) (w : Word) : State :=
  match r with
  | .k i => setK s i w
  | .v i => setV s i w

/-- The word an idle read returns (43_control.md R203 to R205, 10_state.md R37). -/
def readWindow (s : State) (r : WindowReg) : Except Fault Word :=
  match r with
  | .cmd => .ok 0
  | .status => .ok (statusWord s)
  | .maxlen => .ok s.maxlen
  | .inlen => .ok s.inlen
  | .padlen => .ok s.padlen
  | .data r => (dataReg s r).read r
  | .reserved => .ok 0

/-- A write to `MAXLEN`: before the first byte of a message only (43_control.md R205, 60_exceptions.md R220). -/
def writeMaxlen (s : State) (w : Word) : Result :=
  if s.inlen = 0 ∧ s.padded = false then .next (setMaxlen s w) else .fault (.cvSeq (.maxlenWrite w))

/-- What an idle write does (43_control.md R201, R204, R205; 10_state.md R37). -/
def writeWindow (s : State) (r : WindowReg) (w : Word) : Result :=
  match r with
  | .cmd => issue w s
  | .status => .next s
  | .maxlen => writeMaxlen s w
  | .inlen => .next s
  | .padlen => .next s
  | .data r => .next (setData s r w)
  | .reserved => .next s

/-- One bus transaction; violations in the order CV_BUSACC, CV_BUSY, then those of the register
(60_exceptions.md R224). The word a read returns is logged. -/
def busStep (t : Transaction) (s : State) : Result :=
  match t with
  | .read off width =>
    if validAccess off width then
      if s.busy = true ∧ windowReg off ≠ .status then .fault (.cvBusy off .read)
      else
        match readWindow s (windowReg off) with
        | .error f => .fault f
        | .ok w => .next (logRead s w)
    else .fault (.cvBusacc off width)
  | .write off width w =>
    if validAccess off width then
      if s.busy then .fault (.cvBusy off .write)
      else writeWindow s (windowReg off) w
    else .fault (.cvBusacc off width)

/-- The number of a contract violation in the table of 60_exceptions.md R216; the model's own faults have none.
It numbers faults and raises none. -/
def violationCode : Fault → Option Nat
  | .cvBusacc _ _ => some 1
  | .cvBusy _ _ => some 2
  | .cvIllcmd _ => some 3
  | .cvSeq _ => some 4
  | .cvRange _ _ => some 5
  | .cvUninit _ => some 6
  | .bufAbsent _ => none
  | .bufUnwritten _ => none
  | .oplIllegal _ => none

end Sys2Proof.Machine
end

