-- ==== Sys2Proof/Machine/Dispatch.lean ====
section
/-! DEFINITION. One arm per command. -/

namespace Sys2Proof.Machine

def exec (i : Instr) (s : State) : Host.Outcome State Fault Refusal :=
  match i with
  | .nop => Sys2Proof.Machine.execNop s
  | .enc => Sys2Proof.Machine.execEnc s
  | .dec => Sys2Proof.Machine.execDec s
  | .pclr => Sys2Proof.Machine.execPclr s
  | .pushb imm8 => Sys2Proof.Machine.execPushb imm8 s
  | .pfin => Sys2Proof.Machine.execPfin s
  | .ldblk idx => Sys2Proof.Machine.execLdblk idx s
  | .stblk idx => Sys2Proof.Machine.execStblk idx s

end Sys2Proof.Machine
end

