-- ==== Sys2Proof/Machine/Agenda.lean ====
section
/-! DEFINITION. What each move of the agenda does (log entries 5, 6, 7). -/

namespace Sys2Proof.Machine

/-- A write of a word to `CMD` with the whole command in the same step: issue, effects and completion
(20_memory.md R71 d, 43_control.md R207; log entry 6). -/
def wholeCommand (w : Word) (s : State) : Result :=
  if s.busy then .fault (.cvBusy 0 .write)
  else
    match decode w with
    | .illegal _ => .fault (.cvIllcmd w)
    | .command i => exec i s

/-- WAIT: read STATUS; while `BUSY` reads 1 the ENGINE takes a step and the HOST reads again
(43_control.md R206; log entry 7). -/
def waitStep (s : State) : Result :=
  if s.busy then
    andThen (engineStep (logRead s (statusWord s))) (fun t => .next (setAgenda t (.wait :: t.agenda)))
  else .next (logRead s (statusWord s))

/-- One move, already taken off the agenda. -/
def runMove (m : Move) (s : State) : Result :=
  match m with
  | .bus t => busStep t s
  | .command w => wholeCommand w s
  | .engine => engineStep s
  | .wait => waitStep s
  | .rst => .next (resetBlock s)

/-- The state in which the next step runs the command word `w` (log entry 5).
A command is accepted only by an idle block, so `BUSY` is cleared. -/
def withCommand (s : State) (w : Word) : State :=
  { s with busy := false, agenda := .command w :: s.agenda }

end Sys2Proof.Machine
end

