-- ==== Sys2Proof/Machine/Step.lean ====
section
/-! DEFINITION. One step of the machine. -/

namespace Sys2Proof.Machine

/-- One step: the next move of the agenda; with none left, the ENGINE goes on with the command it has, and an idle
block stays as it is (70_reset_and_hazards.md R251, 60_exceptions.md R233; log entry 7). -/
def step (s : State) : Host.Outcome State Fault Refusal :=
  match s.agenda with
  | [] => engineStep s
  | m :: rest => runMove m (setAgenda s rest)

/-- The instruction whose bits are `w` is the next word the HOST writes to `CMD`, run as a whole.
The block fetches no instructions (10_state.md R24): log entry 5 says how a program comes to run. -/
def State.withFetchWord (s : State) (_nbits w : Nat) : State := withCommand s (BitVec.ofNat 32 w)

end Sys2Proof.Machine
end

