-- ==== Sys2Proof/Machine/Pseudo.lean ====
section
/-! DEFINITION. The notation of the spec's listings: host transactions by name and the pseudo-instructions, as moves
of the HOST (30_encoding.md R102 to R104). Names only, with no meaning of their own. -/

namespace Sys2Proof.Machine

/-- A command line: the command's word written to `CMD`, then WAIT (30_encoding.md R102). -/
def cmdLine (i : Instr) : List Move := [.command (encode i), .wait]

/-- `WR`: a 32-bit write at an offset (30_encoding.md R103). -/
def wr (off : Nat) (w : Word) : Move := .bus (.write off .word w)

/-- `RD`: a 32-bit read at an offset (30_encoding.md R103). -/
def rd (off : Nat) : Move := .bus (.read off .word)

/-- A command line whose command the ENGINE takes step by step during the WAIT (30_encoding.md R102). -/
def cmdLineStepped (i : Instr) : List Move := [wr 0x00 (encode i), .wait]

/-- `SETKEY a, b, c, d` (30_encoding.md R104). -/
def setKey (k : Key) : List Move := [wr 0x20 k.k0, wr 0x24 k.k1, wr 0x28 k.k2, wr 0x2C k.k3]

/-- `SETBLK a, b` (30_encoding.md R104). -/
def setBlk (v : Block) : List Move := [wr 0x30 v.v0, wr 0x34 v.v1]

/-- `GETBLK` (30_encoding.md R104). -/
def getBlk : List Move := [rd 0x30, rd 0x34]

/-- `PADMSG m, bytes` (30_encoding.md R104). -/
def padMsg (m : Word) (bytes : List Byte) : List Move :=
  cmdLine .pclr ++ wr 0x08 m :: (bytes.flatMap (fun b => cmdLine (.pushb b)) ++ cmdLine .pfin)

/-- `ENCBLK i` (30_encoding.md R104). -/
def encBlk (i : Nat) : List Move := cmdLine (.ldblk i) ++ cmdLine .enc ++ cmdLine (.stblk i)

/-- `DECBLK i` (30_encoding.md R104). -/
def decBlk (i : Nat) : List Move := cmdLine (.ldblk i) ++ cmdLine .dec ++ cmdLine (.stblk i)

/-- The blocks of `ENCBUF` for the length `l` that its `RD PADLEN` returns, in index order (30_encoding.md R104). -/
def encBlocks (l : Nat) : List Move := (List.range (l / 8)).flatMap encBlk

/-- The blocks of `DECBUF` for the length `l` that its `RD PADLEN` returns, in index order (30_encoding.md R104). -/
def decBlocks (l : Nat) : List Move := (List.range (l / 8)).flatMap decBlk

/-- `ENCBUF`, by a HOST that will read `l` from `PADLEN` (30_encoding.md R104). -/
def encBuf (l : Nat) : List Move := rd 0x10 :: encBlocks l

/-- `DECBUF`, by a HOST that will read `l` from `PADLEN` (30_encoding.md R104). -/
def decBuf (l : Nat) : List Move := rd 0x10 :: decBlocks l

end Sys2Proof.Machine
end

