-- ==== Sys2Proof/Reference.lean ====
section
/-! DEFINITION. PIA1's two listings over unbounded integers, each line reduced modulo 2^32 once, at its end
(40_cipher.md R120, R122, R127). The statements compare the machine's word arithmetic with them; the machine does not
use them. -/

namespace Sys2Proof.Reference

/-- `((x << 4) + ka) ^ (x + s) ^ ((x >> 5) + kb)`, nothing reduced. -/
@[irreducible] def term (x s ka kb : Nat) : Nat := ((x * 2 ^ 4 + ka) ^^^ (x + s)) ^^^ (x / 2 ^ 5 + kb)

/-- The variables of the listings: `sum`, `v0`, `v1`. -/
structure Vars where
  sum : Nat
  v0 : Nat
  v1 : Nat
deriving DecidableEq, Repr

/-- `delta`. -/
@[irreducible] def delta : Nat := 0x9E3779B9

/-- `a + b (mod 2^32)`. -/
@[irreducible] def addMod (a b : Nat) : Nat := (a + b) % 2 ^ 32

/-- `a - b (mod 2^32)`, the representative in 0 .. 2^32 - 1. -/
@[irreducible] def subMod (a b : Nat) : Nat := (((a : Int) - (b : Int)) % 2 ^ 32).toNat

/-- The body of encrypt's loop. -/
def encBody (k0 k1 k2 k3 : Nat) (x : Vars) : Vars :=
  let sum := addMod x.sum delta
  let v0 := addMod x.v0 (term x.v1 sum k0 k1)
  let v1 := addMod x.v1 (term v0 sum k2 k3)
  { sum := sum, v0 := v0, v1 := v1 }

/-- The body of decrypt's loop. -/
def decBody (k0 k1 k2 k3 : Nat) (x : Vars) : Vars :=
  let v1 := subMod x.v1 (term x.v0 x.sum k2 k3)
  let v0 := subMod x.v0 (term v1 x.sum k0 k1)
  { sum := subMod x.sum delta, v0 := v0, v1 := v1 }

/-- `encrypt`: `sum = 0`, then 32 times the body. -/
def encrypt (k0 k1 k2 k3 v0 v1 : Nat) : Vars := (encBody k0 k1 k2 k3)^[32] { sum := 0, v0 := v0, v1 := v1 }

/-- `decrypt`: `sum = delta * 32` modulo 2^32, then 32 times the body. -/
def decrypt (k0 k1 k2 k3 v0 v1 : Nat) : Vars :=
  (decBody k0 k1 k2 k3)^[32] { sum := delta * 32 % 2 ^ 32, v0 := v0, v1 := v1 }

end Sys2Proof.Reference
end

