-- ==== Sys2Proof/Machine/Result.lean ====
section
/-! DEFINITION. When a run of a HOST program is over, and its observable result (70_reset_and_hazards.md R253). -/

namespace Sys2Proof.Machine

/-- The observable result of a run. A register of `K` or `V` that holds no value shows none (10_state.md R43), and so
does a byte of `BUF` that nothing has written. -/
structure RunResult where
  /-- the words the HOST's reads returned, oldest first -/
  reads : List Word
  k : Vector (Option Word) 4
  v : Vector (Option Word) 2
  maxlen : Word
  inlen : Word
  padlen : Word
  padded : Bool
  done : Bool
  /-- `BUF[0 .. PADLEN-1]` -/
  bytes : List (Option Byte)
deriving DecidableEq, Repr

/-- The HOST has issued its last transaction and `BUSY = 0`. -/
def runOver (s : State) : Bool := s.agenda.isEmpty && !s.busy

/-- The value a data register holds, if any (10_state.md R43). -/
def Reg.value (r : Reg) : Option Word := if r.held then some r.word else none

/-- What a state shows at the end of a run: `OPL`, `RND`, `SUM` and the bytes of `BUF` from `PADLEN` on are no part
of it. -/
def observe (s : State) : RunResult :=
  { reads := s.reads
    k := #v[s.k[0].value, s.k[1].value, s.k[2].value, s.k[3].value]
    v := #v[s.v[0].value, s.v[1].value]
    maxlen := s.maxlen
    inlen := s.inlen
    padlen := s.padlen
    padded := s.padded
    done := s.done
    bytes := (List.range s.padlen.toNat).map (Memory.lookup s.buf) }

/-- The result of a run that has come to `o`: a run that is not over has none yet, and one with a violation has none. -/
def resultOf (o : Result) : Option RunResult :=
  match o with
  | .next t => if runOver t then some (observe t) else none
  | .fault _ => none
  | .refused _ => none

end Sys2Proof.Machine
end

