-- ==== Sys2Proof/Safety.lean ====
section
/-! DEFINITION. What the machine keeps true, what a run inside the contract is, and what the HOST can see. -/

namespace Sys2Proof.Machine

/-- `padlen(0) = 8` and `padlen(n) = 8 * ceil(n / 8)` for `n > 0` (10_state.md R40 c). -/
def padlenOf (n : Nat) : Nat := if n = 0 then 8 else 8 * ((n + 7) / 8)

/-- The ENGINE can go on with the word in `OPL`: it is a command, whose precondition holds as long as it has not
started; ENC and DEC keep their operands while they run (43_control.md R201, R207). -/
def inFlight (s : State) : Prop :=
  match decode s.opl with
  | .illegal _ => False
  | .command i =>
    (s.begun = false → precondition i s = none) ∧
    (s.begun = true → i = .enc ∨ i = .dec → cipherPre s = none)

/-- The invariant: the canonical form of `BUF`, the padding state (10_state.md R40 a to d), the flags (R28, R32) and
the ENGINE's own state (R25, 40_cipher.md R121, R123). -/
structure Consistent (s : State) : Prop where
  /-- the written bytes are listed once each, addresses rising -/
  bufCanonical : Memory.wf s.buf = true
  /-- every written byte lies inside `BUF` (10_state.md R39) -/
  bufInside : ∀ c ∈ s.buf, c.1 < bufBytes s
  /-- 10_state.md R40 a -/
  inlenBound : s.inlen.toNat ≤ s.maxlen.toNat
  /-- 10_state.md R40 a -/
  maxlenBound : s.maxlen.toNat ≤ s.cfg.maxLenCap.val
  /-- 10_state.md R40 b -/
  padlenOpen : s.padded = false → s.padlen = 0
  /-- 10_state.md R40 c -/
  padlenDone : s.padded = true → s.padlen.toNat = padlenOf s.inlen.toNat
  /-- 10_state.md R40 d -/
  written : ∀ a, a < max s.inlen.toNat s.padlen.toNat → (Memory.lookup s.buf a).isSome = true
  /-- 10_state.md R28 -/
  oneOfBusyDone : s.busy = true → s.done = false
  /-- 10_state.md R25 -/
  rndBound : s.rnd.toNat ≤ rounds
  /-- 43_control.md R201, R207 -/
  running : s.busy = true → inFlight s
  /-- 40_cipher.md R121: after `r` round steps `SUM` is `r * DELTA` -/
  encSum : s.busy = true → s.begun = true → decode s.opl = .command .enc →
    s.sum.toNat = s.rnd.toNat * 0x9E3779B9 % 2 ^ 32
  /-- 40_cipher.md R123: after `r` round steps `SUM` is `(32 - r) * DELTA` -/
  decSum : s.busy = true → s.begun = true → decode s.opl = .command .dec →
    s.sum.toNat = (32 - s.rnd.toNat) * 0x9E3779B9 % 2 ^ 32

/-- The words in `K[0..3]`, whether held or not; of use only where `KeyHeld`. -/
def keyWords (s : State) : Key := { k0 := s.k[0].word, k1 := s.k[1].word, k2 := s.k[2].word, k3 := s.k[3].word }

/-- The words in `V[0..1]`, whether held or not; of use only where `BlockHeld`. -/
def blockWords (s : State) : Block := { v0 := s.v[0].word, v1 := s.v[1].word }

/-- All of `K[0..3]` hold a value (40_cipher.md R120). -/
abbrev KeyHeld (s : State) : Prop :=
  s.k[0].held = true ∧ s.k[1].held = true ∧ s.k[2].held = true ∧ s.k[3].held = true

/-- Both of `V[0..1]` hold a value (40_cipher.md R120, 42_converter.md R183). -/
abbrev BlockHeld (s : State) : Prop := s.v[0].held = true ∧ s.v[1].held = true

/-- `n` steps of the machine, as `Host.Core.run` takes them; a violation ends the run, and such a run has no result
(60_exceptions.md R216, 70_reset_and_hazards.md R253; log entry 8). -/
def steps : Nat → State → Result
  | 0, s => .next s
  | n + 1, s => andThen (step s) (steps n)

/-- The result of the run from `s` as it stands after `n` steps (70_reset_and_hazards.md R253). -/
def runResult (n : Nat) (s : State) : Option RunResult := resultOf (steps n s)

/-- Two registers the machine cannot tell apart: both hold the same word, or neither holds a value
(10_state.md R43). -/
def Reg.Same (r r' : Reg) : Prop := r.held = r'.held ∧ (r.held = true → r.word = r'.word)

/-- Two states that differ only in what no rule reads: words of registers that hold no value (10_state.md R43), bytes of
`BUF` at or beyond `max(INLEN, PADLEN)`, and `OPL`, `RND`, `SUM` outside a command that uses them
(10_state.md R24 to R26, 70_reset_and_hazards.md R253). -/
structure Same (s t : State) : Prop where
  cfg : s.cfg = t.cfg
  k : ∀ i : Fin 4, (s.k[i]).Same t.k[i]
  v : ∀ i : Fin 2, (s.v[i]).Same t.v[i]
  maxlen : s.maxlen = t.maxlen
  inlen : s.inlen = t.inlen
  padlen : s.padlen = t.padlen
  busy : s.busy = t.busy
  done : s.done = t.done
  padded : s.padded = t.padded
  opl : s.busy = true → s.opl = t.opl
  begun : s.busy = true → s.begun = t.begun
  mix : s.busy = true → s.begun = true → (decode s.opl = .command .enc ∨ decode s.opl = .command .dec) →
    s.sum = t.sum ∧ s.rnd = t.rnd
  buf : ∀ a, a < max s.inlen.toNat s.padlen.toNat → Memory.lookup s.buf a = Memory.lookup t.buf a
  agenda : s.agenda = t.agenda
  reads : s.reads = t.reads

/-- Two steps end alike: in next states related by `R`, in the same fault, or in the same refusal. -/
def EndAlike (R : State → State → Prop) : Result → Result → Prop
  | .next s, .next t => R s t
  | .fault f, .fault g => f = g
  | .refused f, .refused g => f = g
  | _, _ => False

end Sys2Proof.Machine
end

