-- ==== Sys2Proof/Certificates/Slice0/Obligations.lean ====
section
/-! DEFINITION. The statements about the machine, in the order of the spec's files. Where a statement leaves a field of
the next state open (`opl := t.opl`, `sum := t.sum` and the like), the spec gives that field no meaning there. -/

open Sys2Proof Sys2Proof.Machine

/-! ### Encoding (30_encoding.md) -/

/-- R100: the decoder case by case, the encoder value by value, and that they are inverse to each other. -/
def Obligations.DecodeEncodeInverse : Prop :=
  (∀ w : Word,
    (w.toNat / 2 ^ 16 ≠ 0 ∨ w.toNat / 2 ^ 4 % 16 ≠ 0 → ∃ why, decode w = .illegal why) ∧
    (w.toNat / 2 ^ 16 = 0 → w.toNat / 2 ^ 4 % 16 = 0 →
      (w.toNat % 16 = 0 → w.toNat / 2 ^ 8 % 256 = 0 → decode w = .command .nop) ∧
      (w.toNat % 16 = 1 → w.toNat / 2 ^ 8 % 256 = 0 → decode w = .command .enc) ∧
      (w.toNat % 16 = 2 → w.toNat / 2 ^ 8 % 256 = 0 → decode w = .command .dec) ∧
      (w.toNat % 16 = 3 → w.toNat / 2 ^ 8 % 256 = 0 → decode w = .command .pclr) ∧
      (w.toNat % 16 = 4 → decode w = .command (.pushb (BitVec.ofNat 8 (w.toNat / 2 ^ 8 % 256)))) ∧
      (w.toNat % 16 = 5 → w.toNat / 2 ^ 8 % 256 = 0 → decode w = .command .pfin) ∧
      (w.toNat % 16 = 6 → decode w = .command (.ldblk (w.toNat / 2 ^ 8 % 256))) ∧
      (w.toNat % 16 = 7 → decode w = .command (.stblk (w.toNat / 2 ^ 8 % 256))) ∧
      (w.toNat % 16 ∈ [0, 1, 2, 3, 5] → w.toNat / 2 ^ 8 % 256 ≠ 0 → ∃ why, decode w = .illegal why) ∧
      (8 ≤ w.toNat % 16 → ∃ why, decode w = .illegal why))) ∧
  ((encode .nop).toNat = 0 ∧ (encode .enc).toNat = 1 ∧ (encode .dec).toNat = 2 ∧ (encode .pclr).toNat = 3 ∧
    (∀ b : Byte, (encode (.pushb b)).toNat = 4 + 256 * b.toNat) ∧ (encode .pfin).toNat = 5 ∧
    (∀ i : Nat, i < 256 → (encode (.ldblk i)).toNat = 6 + 256 * i) ∧
    (∀ i : Nat, i < 256 → (encode (.stblk i)).toNat = 7 + 256 * i)) ∧
  (∀ c : Instr, c.WellFormed → decode (encode c) = .command c) ∧
  (∀ (w : Word) (c : Instr), decode w = .command c → encode c = w ∧ c.WellFormed)

/-- R98: which words are reserved, how many are not, and that writing a reserved one is CV_ILLCMD. -/
def Obligations.ReservedWordsExactly : Prop :=
  (∀ w : Word, (∃ why, decode w = .illegal why) ↔
    (8 ≤ w.toNat % 16 ∨ w.toNat / 2 ^ 4 % 16 ≠ 0 ∨ w.toNat / 2 ^ 16 ≠ 0 ∨
      (w.toNat / 2 ^ 8 % 256 ≠ 0 ∧ w.toNat % 16 ∈ [0, 1, 2, 3, 5]))) ∧
  (∀ w : Word, (∃ why, decode w = .illegal why) ↔ ∀ r ∈ opcodeMap, r.selects w = false) ∧
  Set.ncard {w : Word | ∃ i, decode w = .command i} = 5 + 3 * 256 ∧
  (∀ (s : State) (w : Word) (why : Reserved), s.busy = false → decode w = .illegal why →
    busStep (.write 0x00 .word w) s = .fault (.cvIllcmd w) ∧ wholeCommand w s = .fault (.cvIllcmd w))

/-- R97: a word decodes to a command of a row's mnemonic exactly when it selects the row, and the row's word is the
command's encoding. -/
def Obligations.OpcodeMapSelects : Prop :=
  (∀ (w : Word) (r : OpcodeRow), r ∈ opcodeMap →
    (r.selects w = true ↔ ∃ i, decode w = .command i ∧ i.mnemonic = r.mnemonic)) ∧
  (opcodeMap.map (fun r => (r.mnemonic, r.mask.toNat, r.pattern.toNat)) =
    [("NOP", 0xFFFFFFFF, 0), ("ENC", 0xFFFFFFFF, 1), ("DEC", 0xFFFFFFFF, 2), ("PCLR", 0xFFFFFFFF, 3),
     ("PUSHB", 0xFFFF00FF, 4), ("PFIN", 0xFFFFFFFF, 5), ("LDBLK", 0xFFFF00FF, 6), ("STBLK", 0xFFFF00FF, 7)]) ∧
  (encode .nop = 0x00000000 ∧ encode .enc = 0x00000001 ∧ encode .dec = 0x00000002 ∧ encode .pclr = 0x00000003 ∧
    encode .pfin = 0x00000005 ∧
    (∀ b : Byte, encode (.pushb b) = 0x00000004 + 256 * b.setWidth 32) ∧
    (∀ i : Nat, i < 256 → encode (.ldblk i) = 0x00000006 + 256 * BitVec.ofNat 32 i ∧
      encode (.stblk i) = 0x00000007 + 256 * BitVec.ofNat 32 i)) ∧
  (∀ w : Word, 8 ≤ w.toNat % 16 → ∃ why, decode w = .illegal why)

/-- T40 and T41: words written out from the encodings decode to the commands they stand for, and reserved ones are
refused for the reason given. -/
def Obligations.WordsOfTheSpecDecode : Prop :=
  decode 0x00000000 = .command .nop ∧ decode 0x00000001 = .command .enc ∧ decode 0x00000002 = .command .dec ∧
  decode 0x00000003 = .command .pclr ∧ decode 0x00006F04 = .command (.pushb 0x6F) ∧
  decode 0x00000005 = .command .pfin ∧ decode 0x00000106 = .command (.ldblk 1) ∧
  decode 0x00001007 = .command (.stblk 16) ∧ decode 0x0000FF06 = .command (.ldblk 255) ∧
  decode 0x0000000F = .illegal (.opReserved 15) ∧ decode 0x000000F4 = .illegal (.z0NotZero 15) ∧
  decode 0x0000FF03 = .illegal (.argNotZero 3 255) ∧ decode 0x80000001 = .illegal (.z1NotZero 0x8000)

/-! ### The step -/

/-- A step runs the decoded command (a command word written to a busy block is CV_BUSY before anything is decoded, a
reserved word is CV_ILLCMD), every other kind of move does what its meaning says, and the ENGINE takes no step while
BUSY = 0 (R71 b). The agenda is the model's choice (log entries 5 to 7), and so is that `withFetchWord` takes the low 32
bits of its number (log entry 21). -/
def Obligations.StepRunsDecodedCommand : Prop :=
  (∀ (s : State) (w : Word) (rest : List Move) (i : Instr), s.agenda = .command w :: rest → s.busy = false →
    decode w = .command i → step s = exec i (setAgenda s rest)) ∧
  (∀ (s : State) (nbits w : Nat) (i : Instr), decode (BitVec.ofNat 32 w) = .command i →
    step (s.withFetchWord nbits w) = exec i { s with busy := false }) ∧
  (∀ (s : State) (t : Transaction) (rest : List Move), s.agenda = .bus t :: rest →
    step s = busStep t (setAgenda s rest)) ∧
  (∀ (s : State) (w : Word) (rest : List Move), s.agenda = .command w :: rest → s.busy = true →
    step s = .fault (.cvBusy 0x00 .write)) ∧
  (∀ (s : State) (w : Word) (rest : List Move) (why : Reserved), s.agenda = .command w :: rest → s.busy = false →
    decode w = .illegal why → step s = .fault (.cvIllcmd w)) ∧
  (∀ (s : State) (rest : List Move), s.agenda = .wait :: rest → step s = waitStep (setAgenda s rest)) ∧
  (∀ (s : State) (rest : List Move), s.agenda = .engine :: rest → step s = engineStep (setAgenda s rest)) ∧
  (∀ (s : State) (rest : List Move), s.agenda = .rst :: rest → step s = .next (resetBlock (setAgenda s rest))) ∧
  (∀ s : State, s.agenda = [] → step s = engineStep s) ∧
  (∀ s : State, s.busy = false → engineStep s = .next s)

/-! ### Control (43_control.md) -/

/-- R200: NOP changes nothing but the BUSY and DONE protocol, and NOP right after reset makes STATUS go from 0 to 2. -/
def Obligations.NopChangesNothing : Prop :=
  (∀ s : State, s.busy = false → ∃ t, exec .nop s = .next t ∧
    t = { s with opl := t.opl, begun := t.begun, busy := false, done := true }) ∧
  statusWord State.reset = 0x0 ∧
  (∃ t, exec .nop State.reset = .next t ∧ statusWord t = 0x2) ∧
  decode 0x00000000 = .command .nop

/-- R201: what a write to CMD does. -/
def Obligations.CommandIssue : Prop :=
  (∀ (s : State) (w : Word), s.busy = false →
    ((∃ why, decode w = .illegal why) → busStep (.write 0x00 .word w) s = .fault (.cvIllcmd w)) ∧
    (∀ i, decode w = .command i → precondition i s = none →
      ∃ t, busStep (.write 0x00 .word w) s = .next t ∧
        t = { s with opl := w, busy := true, done := false, begun := t.begun }) ∧
    (∀ i f, decode w = .command i → precondition i s = some f →
      busStep (.write 0x00 .word w) s = .fault f ∧
      (f = .cvSeq (.command i) ∨ (∃ idx, f = .cvRange idx s.padlen) ∨ ∃ r, f = .cvUninit r))) ∧
  (∀ (s : State) (w : Word), s.busy = true → busStep (.write 0x00 .word w) s = .fault (.cvBusy 0x00 .write))

/-- R203: a STATUS read returns the flags, at any time, with no side effect, and no other transaction is allowed while
BUSY = 1. -/
def Obligations.StatusReadReturnsFlags : Prop :=
  (∀ s : State, ∃ w, busStep (.read 0x04 .word) s = .next { s with reads := s.reads ++ [w] } ∧
    w.toNat = s.busy.toNat + 2 * s.done.toNat + 4 * s.padded.toNat) ∧
  (∀ (s : State) (off : Nat) (w : Word), s.busy = true → off % 4 = 0 → off ≤ 0x3C →
    busStep (.write off .word w) s = .fault (.cvBusy off .write) ∧
    (off ≠ 0x04 → busStep (.read off .word) s = .fault (.cvBusy off .read)))

/-- R204: the HOST writes and reads K and V. -/
def Obligations.DataRegisterAccess : Prop :=
  ∀ s : State, s.busy = false →
    (∀ (i : Fin 4) (w : Word), ∃ t, busStep (.write (0x20 + 4 * i.val) .word w) s = .next t ∧
      t = { s with k := s.k.set i { word := w, held := true } } ∧
      busStep (.read (0x20 + 4 * i.val) .word) t = .next { t with reads := t.reads ++ [w] }) ∧
    (∀ (i : Fin 2) (w : Word), ∃ t, busStep (.write (0x30 + 4 * i.val) .word w) s = .next t ∧
      t = { s with v := s.v.set i { word := w, held := true } } ∧
      busStep (.read (0x30 + 4 * i.val) .word) t = .next { t with reads := t.reads ++ [w] }) ∧
    (∀ i : Fin 4, (s.k[i].held = true →
        busStep (.read (0x20 + 4 * i.val) .word) s = .next { s with reads := s.reads ++ [s.k[i].word] }) ∧
      (s.k[i].held = false → busStep (.read (0x20 + 4 * i.val) .word) s = .fault (.cvUninit (.k i)))) ∧
    (∀ i : Fin 2, (s.v[i].held = true →
        busStep (.read (0x30 + 4 * i.val) .word) s = .next { s with reads := s.reads ++ [s.v[i].word] }) ∧
      (s.v[i].held = false → busStep (.read (0x30 + 4 * i.val) .word) s = .fault (.cvUninit (.v i))))

/-- R205: the HOST writes MAXLEN, clamped, and reads MAXLEN, INLEN, PADLEN and CMD. -/
def Obligations.LengthRegisterAccess : Prop :=
  ∀ s : State, s.busy = false →
    (∀ w : Word, s.inlen = 0 → s.padded = false →
      ∃ t, busStep (.write 0x08 .word w) s = .next t ∧ t = { s with maxlen := t.maxlen } ∧
        t.maxlen.toNat = min w.toNat s.cfg.maxLenCap.val) ∧
    (∀ w : Word, s.inlen ≠ 0 ∨ s.padded = true → busStep (.write 0x08 .word w) s = .fault (.cvSeq (.maxlenWrite w))) ∧
    busStep (.read 0x08 .word) s = .next { s with reads := s.reads ++ [s.maxlen] } ∧
    busStep (.read 0x0C .word) s = .next { s with reads := s.reads ++ [s.inlen] } ∧
    busStep (.read 0x10 .word) s = .next { s with reads := s.reads ++ [s.padlen] } ∧
    busStep (.read 0x00 .word) s = .next { s with reads := s.reads ++ [0] }

/-- R207: taken one ENGINE step at a time, a command is busy until its last step and then ends as the whole command
does: 2 steps (effect, completion), or 34 for ENC and DEC (start, 32 rounds, completion). -/
def Obligations.SteppedCommandEqualsWhole : Prop :=
  ∀ (s : State) (w : Word) (i : Instr), s.busy = false → decode w = .command i →
    (∀ f, issue w s = .fault f → exec i s = .fault f) ∧
    (∀ a, issue w s = .next a →
      engineRun (if i = .enc ∨ i = .dec then 34 else 2) a = exec i s ∧
      ∀ n u, n < (if i = .enc ∨ i = .dec then 34 else 2) → engineRun n a = .next u → u.busy = true)

/-- R207: from a state of the invariant every command whose precondition holds completes, and the ENGINE is never
stopped. -/
def Obligations.EveryCommandCompletes : Prop :=
  (∀ (s : State) (i : Instr), Consistent s → s.busy = false → precondition i s = none →
    ∃ t, exec i s = .next t ∧ t.busy = false ∧ t.done = true) ∧
  (∀ s : State, Consistent s → ∃ t, engineStep s = .next t) ∧
  (∀ s : State, Consistent s → ∃ n t, n ≤ 34 ∧ engineRun n s = .next t ∧ t.busy = false)

/-- R206: every WAIT ends, with a STATUS read that returns BUSY = 0. -/
def Obligations.WaitEnds : Prop :=
  ∀ (s : State) (rest : List Move), Consistent s → s.agenda = .wait :: rest →
    ∃ n t w ws, n ≤ 35 ∧ steps n s = .next t ∧ t.busy = false ∧ t.agenda = rest ∧
      t.reads = s.reads ++ ws ++ [w] ∧ w.getLsbD 0 = false ∧ ∀ x ∈ ws, x.getLsbD 0 = true

/-- R102: a command line taken as a whole (CMD write with the command, then WAIT) and taken step by step (CMD write, then
WAIT while the ENGINE runs) end in the same state, but for the STATUS reads that return BUSY = 1, whose number R250 leaves
open (log entry 7). -/
def Obligations.CommandLineWholeOrStepped : Prop :=
  ∀ (s : State) (i : Instr) (rest : List Move), Consistent s → s.busy = false → i.WellFormed →
    (∀ f, precondition i s = some f →
      step (setAgenda s (cmdLine i ++ rest)) = .fault f ∧ step (setAgenda s (cmdLineStepped i ++ rest)) = .fault f) ∧
    (precondition i s = none → ∃ t ws, exec i (setAgenda s rest) = .next t ∧
      steps 2 (setAgenda s (cmdLine i ++ rest)) = .next { t with reads := s.reads ++ [statusWord t] } ∧
      steps (if i = .enc ∨ i = .dec then 36 else 4) (setAgenda s (cmdLineStepped i ++ rest)) =
        .next { t with reads := s.reads ++ ws ++ [statusWord t] } ∧
      ws.length = (if i = .enc ∨ i = .dec then 34 else 2) ∧ ∀ w ∈ ws, w.getLsbD 0 = true)

/-- R253: when a run is over, its result, and what is no part of the result. The model's choices in it: the HOST has issued
its last transaction when the agenda is empty (log entries 5 and 16); a register that holds no value shows none, and the
words read are kept in `reads` (log entry 16); a violation ends the run (log entry 8); an idle block without moves stays as
it is, so that further steps keep a result (log entry 7). -/
def Obligations.ResultOfRun : Prop :=
  (∀ (n : Nat) (s t : State), steps n s = .next t → t.agenda = [] → t.busy = false →
    ∃ r, runResult n s = some r ∧ r.reads = t.reads ∧
      (∀ i : Fin 4, (t.k[i].held = true → r.k[i] = some t.k[i].word) ∧ (t.k[i].held = false → r.k[i] = none)) ∧
      (∀ i : Fin 2, (t.v[i].held = true → r.v[i] = some t.v[i].word) ∧ (t.v[i].held = false → r.v[i] = none)) ∧
      r.maxlen = t.maxlen ∧ r.inlen = t.inlen ∧ r.padlen = t.padlen ∧ r.padded = t.padded ∧ r.done = t.done ∧
      r.bytes.length = t.padlen.toNat ∧ (∀ a, a < t.padlen.toNat → r.bytes[a]? = some (Memory.lookup t.buf a)) ∧
      (Consistent t → ∀ x ∈ r.bytes, x.isSome = true)) ∧
  (∀ (n : Nat) (s t : State), steps n s = .next t → t.agenda ≠ [] ∨ t.busy = true → runResult n s = none) ∧
  (∀ (n : Nat) (s : State) (f : Fault), steps n s = .fault f → ∀ m, runResult m s = none) ∧
  (∀ (m n : Nat) (s : State) (r : RunResult), runResult n s = some r → n ≤ m → runResult m s = some r) ∧
  (∀ (n : Nat) (s t : State), Consistent s → Consistent t → Same s t → runResult n s = runResult n t)

/-! ### State (10_state.md) -/

/-- R37: reserved offsets, read-only registers and CMD when idle; the accesses that are violations. -/
def Obligations.ReservedAndReadOnlyOffsets : Prop :=
  (∀ (s : State) (off : Nat), s.busy = false → off ∈ [0x14, 0x18, 0x1C, 0x38, 0x3C] →
    busStep (.read off .word) s = .next { s with reads := s.reads ++ [0] } ∧
    ∀ w, busStep (.write off .word w) s = .next s) ∧
  (∀ (s : State) (off : Nat) (w : Word), s.busy = false → off ∈ [0x04, 0x0C, 0x10] →
    busStep (.write off .word w) s = .next s) ∧
  (∀ s : State, s.busy = false → busStep (.read 0x00 .word) s = .next { s with reads := s.reads ++ [0] }) ∧
  (∀ (s : State) (off : Nat) (w : Word), s.busy = true → off % 4 = 0 → off ≤ 0x3C →
    (off ≠ 0x04 → busStep (.read off .word) s = .fault (.cvBusy off .read)) ∧
    busStep (.write off .word w) s = .fault (.cvBusy off .write)) ∧
  (∀ (s : State) (off : Nat) (width : AccessWidth) (w : Word),
    ¬ (width = .word ∧ off % 4 = 0 ∧ off ≤ 0x3C) →
      busStep (.read off width) s = .fault (.cvBusacc off width) ∧
      busStep (.write off width w) s = .fault (.cvBusacc off width))

/-- R68: a read changes nothing and can be repeated; a write to a data register or MAXLEN can be repeated. -/
def Obligations.HostAccessIdempotent : Prop :=
  (∀ (s t : State) (off : Nat) (width : AccessWidth), busStep (.read off width) s = .next t →
    ∃ w, t = { s with reads := s.reads ++ [w] } ∧
      busStep (.read off width) t = .next { s with reads := s.reads ++ [w, w] }) ∧
  (∀ (s t : State) (off : Nat) (w : Word), busStep (.write off .word w) s = .next t → off ≠ 0x00 →
    t = { s with k := t.k, v := t.v, maxlen := t.maxlen } ∧
    (off ≠ 0x08 → t.maxlen = s.maxlen) ∧ (off < 0x20 ∨ 0x2C < off → t.k = s.k) ∧
    (off < 0x30 ∨ 0x34 < off → t.v = s.v) ∧
    (∀ i : Fin 4, off ≠ 0x20 + 4 * i.val → t.k[i] = s.k[i]) ∧
    (∀ i : Fin 2, off ≠ 0x30 + 4 * i.val → t.v[i] = s.v[i]) ∧
    busStep (.write off .word w) t = .next t) ∧
  (∀ (s t : State) (w w' : Word), busStep (.write 0x00 .word w) s = .next t →
    t.busy = true ∧ busStep (.write 0x00 .word w') t = .fault (.cvBusy 0x00 .write))

/-- R40: the invariant of the padding state, of the flags and of the ENGINE is kept by every step, from any state. -/
def Obligations.InvariantKept : Prop :=
  ∀ s t : State, Consistent s → step s = .next t → Consistent t

/-- The invariant holds after reset, whatever the parameters. -/
def Obligations.InvariantAtReset : Prop :=
  ∀ cfg : Config, Consistent (State.resetOf cfg)

/-- R32: STATUS takes the values 0, 1, 2, 4, 5, 6 only. -/
def Obligations.StatusValues : Prop :=
  ∀ s : State, Consistent s → (statusWord s).toNat ∈ [0, 1, 2, 4, 5, 6]

/-- R21, R22, R33 to R35: which registers and flags each command may write; K and MAXLEN none. -/
def Obligations.CommandWritesOnlyItsRegisters : Prop :=
  ∀ (i : Instr) (s t : State), exec i s = .next t →
    t.cfg = s.cfg ∧ t.k = s.k ∧ t.maxlen = s.maxlen ∧ t.agenda = s.agenda ∧ t.reads = s.reads ∧
    t.busy = false ∧ t.done = true ∧
    (i ≠ .enc → i ≠ .dec → (∀ idx, i ≠ .ldblk idx) → t.v = s.v) ∧
    ((∀ b, i ≠ .pushb b) → i ≠ .pclr → t.inlen = s.inlen) ∧
    (i ≠ .pclr → i ≠ .pfin → t.padlen = s.padlen ∧ t.padded = s.padded)

/-- R23 and R133: no step of the ENGINE and no command writes the key; only a HOST write or reset does. -/
def Obligations.OnlyHostWritesKey : Prop :=
  ∀ (s t : State) (m : Move) (rest : List Move), s.agenda = m :: rest → step s = .next t → t.k ≠ s.k →
    m = .rst ∨ ∃ (i : Fin 4) (w : Word), m = .bus (.write (0x20 + 4 * i.val) .word w)

/-- R43: nothing depends on what no rule reads. Two states of the invariant that differ only in words of registers that
hold no value, in bytes of BUF at or beyond max(INLEN, PADLEN), and in OPL, RND, SUM where no command uses them, take
steps that end alike, and stay so. -/
def Obligations.HiddenStateUnobservable : Prop :=
  ∀ s t : State, Consistent s → Consistent t → Same s t → EndAlike Same (step s) (step t)

/-! ### Memory (20_memory.md) -/

/-- R62: which bytes of BUF each command writes: every byte outside them reads as before. -/
def Obligations.CommandWritesOnlyItsBytes : Prop :=
  (∀ (i : Instr) (s t : State) (a : Nat), i = .nop ∨ i = .enc ∨ i = .dec ∨ i = .pclr ∨ (∃ idx, i = .ldblk idx) →
    exec i s = .next t → Memory.lookup t.buf a = Memory.lookup s.buf a) ∧
  (∀ (b : Byte) (s t : State) (a : Nat), exec (.pushb b) s = .next t → a ≠ s.inlen.toNat →
    Memory.lookup t.buf a = Memory.lookup s.buf a) ∧
  (∀ (b : Byte) (s t : State), exec (.pushb b) s = .next t → s.maxlen.toNat ≤ s.inlen.toNat → t.buf = s.buf) ∧
  (∀ (s t : State) (a : Nat), exec .pfin s = .next t → a < s.inlen.toNat ∨ t.padlen.toNat ≤ a →
    Memory.lookup t.buf a = Memory.lookup s.buf a) ∧
  (∀ (idx : Nat) (s t : State) (a : Nat), exec (.stblk idx) s = .next t →
    a < blockAddr idx ∨ blockAddr idx + 8 ≤ a → Memory.lookup t.buf a = Memory.lookup s.buf a)

/-- R76 and R185: what LDBLK of one block loads depends on that block's eight bytes only. -/
def Obligations.LoadReadsOnlyItsBlock : Prop :=
  ∀ (idx : Nat) (s s' t t' : State), exec (.ldblk idx) s = .next t → exec (.ldblk idx) s' = .next t' →
    (∀ j, j < 8 → Memory.lookup s.buf (8 * idx + j) = Memory.lookup s'.buf (8 * idx + j)) → t.v = t'.v

/-! ### Cipher (00_scope.md, 40_cipher.md) -/

/-- R8: the arithmetic primitives over unsigned integers. -/
def Obligations.ArithmeticPrimitives : Prop :=
  (∀ a b : Word, (add32 a b).toNat = (a.toNat + b.toNat) % 2 ^ 32 ∧
    ((sub32 a b).toNat : Int) = ((a.toNat : Int) - (b.toNat : Int)) % 2 ^ 32 ∧
    ∀ i, (xor32 a b).getLsbD i = (a.getLsbD i != b.getLsbD i)) ∧
  (∀ x : Word, (shl4 x).toNat = x.toNat * 16 % 2 ^ 32 ∧ (shr5 x).toNat = x.toNat / 32) ∧
  (∀ x s ka kb : Word, mixF x s ka kb =
    xor32 (xor32 (add32 (shl4 x) ka) (add32 x s)) (add32 (shr5 x) kb))

/-- R124: addition and subtraction wrap and undo each other. -/
def Obligations.AddSubUndo : Prop :=
  (∀ a b : Word, sub32 (add32 a b) b = a ∧ add32 (sub32 a b) b = a) ∧
  add32 0xFFFFFFFF 1 = 0 ∧ sub32 0 1 = 0xFFFFFFFF

/-- R120: ENC. -/
def Obligations.EncResult : Prop :=
  (∀ s : State, s.busy = false → KeyHeld s → BlockHeld s →
    ∃ t, exec .enc s = .next t ∧
      t = { s with
        v := #v[{ word := (encrypt (blockWords s) (keyWords s)).v0, held := true },
                { word := (encrypt (blockWords s) (keyWords s)).v1, held := true }],
        busy := false, done := true, opl := t.opl, begun := t.begun, sum := t.sum, rnd := t.rnd }) ∧
  (∀ s : State, s.busy = false → ¬ (KeyHeld s ∧ BlockHeld s) → ∃ r, exec .enc s = .fault (.cvUninit r)) ∧
  (∀ (v : Block) (k : Key),
    (encrypt v k).v0.toNat = (Reference.encrypt k.k0.toNat k.k1.toNat k.k2.toNat k.k3.toNat v.v0.toNat v.v1.toNat).v0 ∧
    (encrypt v k).v1.toNat = (Reference.encrypt k.k0.toNat k.k1.toNat k.k2.toNat k.k3.toNat v.v0.toNat v.v1.toNat).v1) ∧
  encrypt ⟨0, 0⟩ ⟨0, 0, 0, 0⟩ = ⟨0x41EA3A0A, 0x94BAA940⟩ ∧
  encrypt ⟨0xFFFFFFFF, 0xFFFFFFFF⟩ ⟨0xFFFFFFFF, 0xFFFFFFFF, 0xFFFFFFFF, 0xFFFFFFFF⟩ = ⟨0x319BBEFB, 0x016ABDB2⟩ ∧
  encrypt ⟨0x484F4C41, 0x31323334⟩ ⟨0x12345678, 0x9ABCDEF0, 0xFEDCBA98, 0x76543210⟩ = ⟨0xBE91739F, 0xC5B30D30⟩ ∧
  decode 0x00000001 = .command .enc

/-- R122: DEC. -/
def Obligations.DecResult : Prop :=
  (∀ s : State, s.busy = false → KeyHeld s → BlockHeld s →
    ∃ t, exec .dec s = .next t ∧
      t = { s with
        v := #v[{ word := (decrypt (blockWords s) (keyWords s)).v0, held := true },
                { word := (decrypt (blockWords s) (keyWords s)).v1, held := true }],
        busy := false, done := true, opl := t.opl, begun := t.begun, sum := t.sum, rnd := t.rnd }) ∧
  (∀ s : State, s.busy = false → ¬ (KeyHeld s ∧ BlockHeld s) → ∃ r, exec .dec s = .fault (.cvUninit r)) ∧
  (∀ (v : Block) (k : Key),
    (decrypt v k).v0.toNat = (Reference.decrypt k.k0.toNat k.k1.toNat k.k2.toNat k.k3.toNat v.v0.toNat v.v1.toNat).v0 ∧
    (decrypt v k).v1.toNat = (Reference.decrypt k.k0.toNat k.k1.toNat k.k2.toNat k.k3.toNat v.v0.toNat v.v1.toNat).v1) ∧
  decrypt ⟨0, 0⟩ ⟨0, 0, 0, 0⟩ = ⟨0x1423FF6D, 0x9216EF3A⟩ ∧
  decrypt ⟨0xBE91739F, 0xC5B30D30⟩ ⟨0x12345678, 0x9ABCDEF0, 0xFEDCBA98, 0x76543210⟩ = ⟨0x484F4C41, 0x31323334⟩ ∧
  (∀ (v : Block) (k : Key), (decRounds k 32 { sum := 0xC6EF3720, block := v }).sum = 0) ∧
  decode 0x00000002 = .command .dec

/-- R121: ENC one ENGINE step at a time. -/
def Obligations.EncRoundByRound : Prop :=
  ∀ s : State, s.busy = true → decode s.opl = .command .enc →
    (s.begun = false → engineStep s = .next { s with begun := true, sum := 0, rnd := 0 }) ∧
    (s.begun = true → s.rnd.toNat < 32 → KeyHeld s → BlockHeld s →
      ∃ sum v0 v1, engineStep s = .next
          { s with v := #v[{ word := v0, held := true }, { word := v1, held := true }], sum := sum, rnd := s.rnd + 1 } ∧
        sum = add32 s.sum 0x9E3779B9 ∧
        v0 = add32 s.v[0].word (mixF s.v[1].word sum s.k[0].word s.k[1].word) ∧
        v1 = add32 s.v[1].word (mixF v0 sum s.k[2].word s.k[3].word)) ∧
    (s.begun = true → s.rnd.toNat = 32 → engineStep s = .next { s with busy := false, done := true }) ∧
    (s.begun = false → KeyHeld s → BlockHeld s → ∀ r, r ≤ 32 →
      ∃ u, engineRun (1 + r) s = .next u ∧ u.rnd.toNat = r ∧ u.sum.toNat = r * 0x9E3779B9 % 2 ^ 32)

/-- R123: DEC one ENGINE step at a time. -/
def Obligations.DecRoundByRound : Prop :=
  ∀ s : State, s.busy = true → decode s.opl = .command .dec →
    (s.begun = false → engineStep s = .next { s with begun := true, sum := 0xC6EF3720, rnd := 0 }) ∧
    (s.begun = true → s.rnd.toNat < 32 → KeyHeld s → BlockHeld s →
      ∃ sum v0 v1, engineStep s = .next
          { s with v := #v[{ word := v0, held := true }, { word := v1, held := true }], sum := sum, rnd := s.rnd + 1 } ∧
        v1 = sub32 s.v[1].word (mixF s.v[0].word s.sum s.k[2].word s.k[3].word) ∧
        v0 = sub32 s.v[0].word (mixF v1 s.sum s.k[0].word s.k[1].word) ∧
        sum = sub32 s.sum 0x9E3779B9) ∧
    (s.begun = true → s.rnd.toNat = 32 → engineStep s = .next { s with busy := false, done := true }) ∧
    (s.begun = false → KeyHeld s → BlockHeld s → ∀ r, r ≤ 32 →
      ∃ u, engineRun (1 + r) s = .next u ∧ u.rnd.toNat = r ∧ u.sum.toNat = (32 - r) * 0x9E3779B9 % 2 ^ 32)

/-- R128: the 32 values of `sum`, whatever the block and the key. -/
def Obligations.SumSchedule : Prop :=
  (∀ (k : Key) (v : Block) (r : Nat), r ≤ 32 →
    (encRounds k r { sum := 0, block := v }).sum.toNat = r * 0x9E3779B9 % 2 ^ 32) ∧
  (∀ (k : Key) (v : Block) (r : Nat), 1 ≤ r → r ≤ 32 →
    (decRounds k (r - 1) { sum := 0xC6EF3720, block := v }).sum.toNat = (33 - r) * 0x9E3779B9 % 2 ^ 32) ∧
  (∀ (k : Key) (v : Block), (List.range 32).map (fun r => (encRounds k (r + 1) { sum := 0, block := v }).sum) =
    [0x9E3779B9, 0x3C6EF372, 0xDAA66D2B, 0x78DDE6E4, 0x1715609D, 0xB54CDA56, 0x5384540F, 0xF1BBCDC8,
     0x8FF34781, 0x2E2AC13A, 0xCC623AF3, 0x6A99B4AC, 0x08D12E65, 0xA708A81E, 0x454021D7, 0xE3779B90,
     0x81AF1549, 0x1FE68F02, 0xBE1E08BB, 0x5C558274, 0xFA8CFC2D, 0x98C475E6, 0x36FBEF9F, 0xD5336958,
     0x736AE311, 0x11A25CCA, 0xAFD9D683, 0x4E11503C, 0xEC48C9F5, 0x8A8043AE, 0x28B7BD67, 0xC6EF3720])

/-- R129: decrypt undoes encrypt, and DEC undoes ENC. -/
def Obligations.DecryptUndoesEncrypt : Prop :=
  (∀ (v : Block) (k : Key), decrypt (encrypt v k) k = v) ∧
  (∀ s t : State, exec .enc s = .next t → ∃ u, exec .dec t = .next u ∧ u.v = s.v ∧ u.k = s.k)

/-- R130: encrypt undoes decrypt, and both are bijections on the blocks for each key. -/
def Obligations.EncryptUndoesDecrypt : Prop :=
  (∀ (v : Block) (k : Key), encrypt (decrypt v k) k = v) ∧
  (∀ k : Key, Function.Bijective (fun v => encrypt v k) ∧ Function.Bijective (fun v => decrypt v k))

/-- R131: the V that ENC or DEC leaves depends on V and K alone. -/
def Obligations.CipherDependsOnOperandsOnly : Prop :=
  ∀ (i : Instr) (s s' t : State), i = .enc ∨ i = .dec → exec i s = .next t → s'.busy = false →
    s'.k = s.k → s'.v = s.v → ∃ t', exec i s' = .next t' ∧ t'.v = t.v

/-! ### Padding (41_padding.md) -/

/-- R151: PCLR, legal in every idle state. -/
def Obligations.PclrResult : Prop :=
  (∀ s : State, s.busy = false → ∃ t, exec .pclr s = .next t ∧
    t = { s with inlen := 0, padlen := 0, padded := false, busy := false, done := true, opl := t.opl, begun := t.begun }) ∧
  decode 0x00000003 = .command .pclr

/-- R152: PUSHB stores the byte at INLEN, drops it at the bound, and is CV_SEQ on a finished buffer. -/
def Obligations.PushbResult : Prop :=
  (∀ (b : Byte) (s : State), s.busy = false →
    (s.padded = false → s.maxlen.toNat ≤ s.cfg.maxLenCap.val → s.inlen.toNat < s.maxlen.toNat →
      ∃ t, exec (.pushb b) s = .next t ∧
        t = { s with inlen := s.inlen + 1, buf := t.buf, busy := false, done := true, opl := t.opl, begun := t.begun } ∧
        t.inlen.toNat = s.inlen.toNat + 1 ∧
        Memory.lookup t.buf s.inlen.toNat = some b ∧
        ∀ a, a ≠ s.inlen.toNat → Memory.lookup t.buf a = Memory.lookup s.buf a) ∧
    (s.padded = false → s.maxlen.toNat ≤ s.inlen.toNat →
      ∃ t, exec (.pushb b) s = .next t ∧
        t = { s with busy := false, done := true, opl := t.opl, begun := t.begun }) ∧
    (s.padded = true → exec (.pushb b) s = .fault (.cvSeq (.command (.pushb b))))) ∧
  ∀ b : Byte, decode (BitVec.ofNat 32 (0x00000004 + 256 * b.toNat)) = .command (.pushb b)

/-- R153: PFIN appends the zero bytes and publishes the length, and is CV_SEQ on a finished buffer. -/
def Obligations.PfinResult : Prop :=
  (∀ s : State, s.busy = false →
    (s.padded = false → s.inlen.toNat ≤ s.cfg.maxLenCap.val →
      ∃ t n, exec .pfin s = .next t ∧
        (s.inlen.toNat = 0 → n = 8) ∧
        (s.inlen.toNat ≠ 0 → s.inlen.toNat % 8 ≠ 0 → n = 8 - s.inlen.toNat % 8) ∧
        (s.inlen.toNat ≠ 0 → s.inlen.toNat % 8 = 0 → n = 0) ∧
        t = { s with
          padlen := t.padlen, padded := true, buf := t.buf, busy := false, done := true, opl := t.opl,
          begun := t.begun } ∧
        t.padlen.toNat = s.inlen.toNat + n ∧
        (∀ a, s.inlen.toNat ≤ a → a < s.inlen.toNat + n → Memory.lookup t.buf a = some 0x00) ∧
        (∀ a, a < s.inlen.toNat ∨ s.inlen.toNat + n ≤ a → Memory.lookup t.buf a = Memory.lookup s.buf a)) ∧
    (s.padded = true → exec .pfin s = .fault (.cvSeq (.command .pfin)))) ∧
  decode 0x00000005 = .command .pfin

/-- R154: from any idle state, PADMSG leaves in BUF exactly what `pad` computes. That its commands and its MAXLEN write
stand on the agenda is the model's choice (log entry 5), and so is one step for each whole command (log entry 6): each
WAIT then takes one STATUS read. -/
def Obligations.PadmsgComputesPad : Prop :=
  ∀ (s : State) (m : Word) (input : List Byte) (rest : List Move), s.busy = false →
    s.agenda = padMsg m input ++ rest →
    ∃ t, steps (2 * input.length + 5) s = .next t ∧ t.agenda = rest ∧ t.busy = false ∧
      t.maxlen.toNat = min m.toNat s.cfg.maxLenCap.val ∧
      t.inlen.toNat = min input.length (min m.toNat s.cfg.maxLenCap.val) ∧
      t.padlen.toNat = (pad input (min m.toNat s.cfg.maxLenCap.val)).2 ∧
      t.padded = true ∧ t.k = s.k ∧ t.v = s.v ∧
      t.reads = s.reads ++ List.replicate (input.length + 1) 0x2 ++ [0x6] ∧
      ∀ a, a < t.padlen.toNat →
        Memory.lookup t.buf a = (pad input (min m.toNat s.cfg.maxLenCap.val)).1[a]?

/-- R155: what `pad` guarantees of its result. -/
def Obligations.PadGuarantees : Prop :=
  ∀ (input : List Byte) (maxLen : Nat) (padded : List Byte) (padlen len : Nat),
    pad input maxLen = (padded, padlen) → len = min input.length maxLen →
    padded.length = padlen ∧ padlen % 8 = 0 ∧ len ≤ padlen ∧
    padded.take len = input.take len ∧ (∀ j, len ≤ j → j < padlen → padded[j]? = some 0x00) ∧
    (0 < len → ∀ m, m % 8 = 0 → len ≤ m → padlen ≤ m) ∧ (len = 0 → padlen = 8) ∧
    8 ≤ padlen ∧ padlen ≤ len + 8 ∧ (padlen = len + 8 ↔ len = 0) ∧ (0 < len → padlen ≤ len + 7) ∧
    padlen ≤ maxLen + 8

/-- R156, R157, R158, R159: truncation ignores the rest of the input, aligned input gets no padding, empty input gives
eight zero bytes, and padding cannot be told from data. -/
def Obligations.PadSpecialCases : Prop :=
  (∀ (input : List Byte) (maxLen : Nat), pad input maxLen = pad (input.take maxLen) maxLen) ∧
  (∀ (input : List Byte) (maxLen : Nat), input.length % 8 = 0 → 0 < input.length → input.length ≤ maxLen →
    pad input maxLen = (input, input.length)) ∧
  (∀ maxLen : Nat, pad [] maxLen = ([0, 0, 0, 0, 0, 0, 0, 0], 8)) ∧
  pad [0x41] 128 = ([0x41, 0, 0, 0, 0, 0, 0, 0], 8) ∧ pad [0x41, 0x00, 0x00] 128 = ([0x41, 0, 0, 0, 0, 0, 0, 0], 8)

/-! ### Converter (42_converter.md) -/

/-- R180 and R181: pack and unpack byte by byte, and that they are inverse to each other. -/
def Obligations.PackUnpackInverse : Prop :=
  (∀ b : Vector Byte 8,
    (pack b).v0.toNat = b[0].toNat + 2 ^ 8 * b[1].toNat + 2 ^ 16 * b[2].toNat + 2 ^ 24 * b[3].toNat ∧
    (pack b).v1.toNat = b[4].toNat + 2 ^ 8 * b[5].toNat + 2 ^ 16 * b[6].toNat + 2 ^ 24 * b[7].toNat) ∧
  (∀ (v : Block) (j : Nat) (h : j < 4),
    (unpack v)[j].toNat = v.v0.toNat / 2 ^ (8 * j) % 256 ∧
    (unpack v)[4 + j].toNat = v.v1.toNat / 2 ^ (8 * j) % 256) ∧
  (∀ b : Vector Byte 8, unpack (pack b) = b) ∧
  (∀ v : Block, pack (unpack v) = v) ∧
  pack #v[0x48, 0x4F, 0x4C, 0x41, 0x31, 0x32, 0x33, 0x34] = ⟨0x414C4F48, 0x34333231⟩ ∧
  unpack ⟨0x43F5F9FE, 0x707EF69F⟩ = #v[0xFE, 0xF9, 0xF5, 0x43, 0x9F, 0xF6, 0x7E, 0x70]

/-- R182: LDBLK loads the block in little-endian order; R221: out of range it is CV_RANGE. -/
def Obligations.LdblkResult : Prop :=
  (∀ (idx : Nat) (s : State), s.busy = false →
    (∀ bs : Vector Byte 8, s.padded = true → idx < s.padlen.toNat / 8 → 8 * idx + 8 ≤ bufBytes s →
      (∀ (j : Nat) (h : j < 8), Memory.lookup s.buf (8 * idx + j) = some bs[j]) →
      ∃ t, exec (.ldblk idx) s = .next t ∧
        t = { s with
          v := #v[{ word := le32 bs[0] bs[1] bs[2] bs[3], held := true },
                  { word := le32 bs[4] bs[5] bs[6] bs[7], held := true }],
          busy := false, done := true, opl := t.opl, begun := t.begun }) ∧
    (s.padded = false ∨ s.padlen.toNat / 8 ≤ idx → exec (.ldblk idx) s = .fault (.cvRange idx s.padlen))) ∧
  ∀ idx : Nat, idx < 256 → decode (BitVec.ofNat 32 (0x00000006 + 256 * idx)) = .command (.ldblk idx)

/-- R183: STBLK stores the block in little-endian order; R221, R222: CV_RANGE, then CV_UNINIT. -/
def Obligations.StblkResult : Prop :=
  (∀ (idx : Nat) (s : State), s.busy = false →
    (s.padded = true → idx < s.padlen.toNat / 8 → 8 * idx + 8 ≤ bufBytes s → BlockHeld s →
      ∃ t, exec (.stblk idx) s = .next t ∧
        t = { s with buf := t.buf, busy := false, done := true, opl := t.opl, begun := t.begun } ∧
        (∀ j, j < 4 → Memory.lookup t.buf (8 * idx + j) = some (byteOf s.v[0].word j) ∧
          Memory.lookup t.buf (8 * idx + 4 + j) = some (byteOf s.v[1].word j)) ∧
        (∀ a, a < 8 * idx ∨ 8 * idx + 8 ≤ a → Memory.lookup t.buf a = Memory.lookup s.buf a)) ∧
    (s.padded = false ∨ s.padlen.toNat / 8 ≤ idx → exec (.stblk idx) s = .fault (.cvRange idx s.padlen)) ∧
    (s.padded = true → idx < s.padlen.toNat / 8 → ¬ BlockHeld s →
      ∃ i : Fin 2, s.v[i].held = false ∧ exec (.stblk idx) s = .fault (.cvUninit (.v i)))) ∧
  ∀ idx : Nat, idx < 256 → decode (BitVec.ofNat 32 (0x00000007 + 256 * idx)) = .command (.stblk idx)

/-- R184: in range, LDBLK then STBLK changes no byte of BUF, and STBLK then LDBLK changes no bit of V. -/
def Obligations.ConverterRoundTrip : Prop :=
  ∀ (idx : Nat) (s : State), Consistent s → s.busy = false → s.padded = true → idx < s.padlen.toNat / 8 →
    (∃ t u, exec (.ldblk idx) s = .next t ∧ exec (.stblk idx) t = .next u ∧ u.buf = s.buf) ∧
    (BlockHeld s → ∃ t u, exec (.stblk idx) s = .next t ∧ exec (.ldblk idx) t = .next u ∧ u.v = s.v)

/-- R186: an encryption pass, in whatever order it visits each block once, replaces every block by its encryption; a
decryption pass likewise; ENCBUF and then DECBUF leave BUF as it was. The agenda is the model's choice: `encBuf l` and
`decBuf l` name in advance the length `l` that their own read of PADLEN returns (log entry 5), and a whole command is one
step (log entry 6), so that each WAIT takes one STATUS read. -/
def Obligations.PassesTransformEveryBlock : Prop :=
  (∀ (s : State) (order : List Nat) (rest : List Move), Consistent s → s.busy = false → s.padded = true → KeyHeld s →
    order.Perm (List.range (s.padlen.toNat / 8)) → s.agenda = order.flatMap encBlk ++ rest →
    ∃ t, steps (6 * (s.padlen.toNat / 8)) s = .next t ∧ t.agenda = rest ∧ t.busy = false ∧
      t.reads = s.reads ++ List.replicate (3 * (s.padlen.toNat / 8)) 0x6 ∧
      t.k = s.k ∧ t.padded = true ∧ t.padlen = s.padlen ∧ t.inlen = s.inlen ∧ t.maxlen = s.maxlen ∧
      (∀ (i : Nat) (bs : Vector Byte 8), i < s.padlen.toNat / 8 →
        (∀ (j : Nat) (h : j < 8), Memory.lookup s.buf (8 * i + j) = some bs[j]) →
        ∀ (j : Nat) (h : j < 8),
          Memory.lookup t.buf (8 * i + j) = some (unpack (encrypt (pack bs) (keyWords s)))[j]) ∧
      ∀ a, s.padlen.toNat ≤ a → Memory.lookup t.buf a = Memory.lookup s.buf a) ∧
  (∀ (s : State) (order : List Nat) (rest : List Move), Consistent s → s.busy = false → s.padded = true → KeyHeld s →
    order.Perm (List.range (s.padlen.toNat / 8)) → s.agenda = order.flatMap decBlk ++ rest →
    ∃ t, steps (6 * (s.padlen.toNat / 8)) s = .next t ∧ t.agenda = rest ∧ t.busy = false ∧
      t.reads = s.reads ++ List.replicate (3 * (s.padlen.toNat / 8)) 0x6 ∧
      t.k = s.k ∧ t.padded = true ∧ t.padlen = s.padlen ∧ t.inlen = s.inlen ∧ t.maxlen = s.maxlen ∧
      (∀ (i : Nat) (bs : Vector Byte 8), i < s.padlen.toNat / 8 →
        (∀ (j : Nat) (h : j < 8), Memory.lookup s.buf (8 * i + j) = some bs[j]) →
        ∀ (j : Nat) (h : j < 8),
          Memory.lookup t.buf (8 * i + j) = some (unpack (decrypt (pack bs) (keyWords s)))[j]) ∧
      ∀ a, s.padlen.toNat ≤ a → Memory.lookup t.buf a = Memory.lookup s.buf a) ∧
  (∀ (s : State) (rest : List Move), Consistent s → s.busy = false → s.padded = true → KeyHeld s →
    s.agenda = encBuf s.padlen.toNat ++ decBuf s.padlen.toNat ++ rest →
    ∃ t, steps (2 * (1 + 6 * (s.padlen.toNat / 8))) s = .next t ∧ t.agenda = rest ∧
      t.reads = s.reads ++ [s.padlen] ++ List.replicate (3 * (s.padlen.toNat / 8)) 0x6 ++
        [s.padlen] ++ List.replicate (3 * (s.padlen.toNat / 8)) 0x6 ∧ t.buf = s.buf)

/-! ### Violations (60_exceptions.md) -/

/-- R217: an access is CV_BUSACC exactly when it is no 32-bit access at a multiple of 4 in 0x00 .. 0x3C. -/
def Obligations.BusAccessExactly : Prop :=
  ∀ (s : State) (off : Nat) (width : AccessWidth) (w : Word),
    (busStep (.read off width) s = .fault (.cvBusacc off width) ↔ ¬ (width = .word ∧ off % 4 = 0 ∧ off ≤ 0x3C)) ∧
    (busStep (.write off width w) s = .fault (.cvBusacc off width) ↔ ¬ (width = .word ∧ off % 4 = 0 ∧ off ≤ 0x3C))

/-- R218: while BUSY = 1 every valid access but a STATUS read is CV_BUSY, a command too. -/
def Obligations.BusyExactly : Prop :=
  (∀ (s : State) (off : Nat) (w : Word), s.busy = true → off % 4 = 0 → off ≤ 0x3C →
    busStep (.write off .word w) s = .fault (.cvBusy off .write) ∧
    (off ≠ 0x04 → busStep (.read off .word) s = .fault (.cvBusy off .read)) ∧
    (∃ x, busStep (.read 0x04 .word) s = .next { s with reads := s.reads ++ [x] })) ∧
  (∀ (s : State) (off o : Nat) (d : Direction) (w : Word), s.busy = false →
    busStep (.write off .word w) s ≠ .fault (.cvBusy o d) ∧ busStep (.read off .word) s ≠ .fault (.cvBusy o d)) ∧
  (∀ (i : Instr) (s : State), s.busy = true → exec i s = .fault (.cvBusy 0x00 .write))

/-- R220: CV_SEQ exactly: PUSHB and PFIN on a finished buffer, a MAXLEN write inside a message; PCLR never, and a
dropped PUSHB is none. -/
def Obligations.SequenceExactly : Prop :=
  ∀ s : State, s.busy = false →
    (∀ b : Byte, exec (.pushb b) s = .fault (.cvSeq (.command (.pushb b))) ↔ s.padded = true) ∧
    (exec .pfin s = .fault (.cvSeq (.command .pfin)) ↔ s.padded = true) ∧
    (∀ w : Word, busStep (.write 0x08 .word w) s = .fault (.cvSeq (.maxlenWrite w)) ↔
      s.inlen ≠ 0 ∨ s.padded = true) ∧
    (∃ t, exec .pclr s = .next t) ∧
    (∀ b : Byte, s.padded = false → s.inlen = s.maxlen → ∃ t, exec (.pushb b) s = .next t)

/-- R221: CV_RANGE exactly, and index 0 is in range of every finished buffer. -/
def Obligations.RangeExactly : Prop :=
  (∀ (s : State) (idx : Nat), s.busy = false →
    (exec (.ldblk idx) s = .fault (.cvRange idx s.padlen) ↔ s.padded = false ∨ s.padlen.toNat / 8 ≤ idx) ∧
    (exec (.stblk idx) s = .fault (.cvRange idx s.padlen) ↔ s.padded = false ∨ s.padlen.toNat / 8 ≤ idx)) ∧
  (∀ s : State, Consistent s → s.padded = true → 1 ≤ s.padlen.toNat / 8)

/-- R222: CV_UNINIT exactly; a register holds a value from the first write to it, or for V from the first LDBLK, ENC or
DEC that completes; LDBLK never raises it. -/
def Obligations.UninitExactly : Prop :=
  (∀ s : State, s.busy = false →
    ((∃ r, exec .enc s = .fault (.cvUninit r)) ↔ ¬ (KeyHeld s ∧ BlockHeld s)) ∧
    ((∃ r, exec .dec s = .fault (.cvUninit r)) ↔ ¬ (KeyHeld s ∧ BlockHeld s)) ∧
    (∀ idx, s.padded = true → idx < s.padlen.toNat / 8 →
      ((∃ r, exec (.stblk idx) s = .fault (.cvUninit r)) ↔ ¬ BlockHeld s)) ∧
    (∀ idx r, exec (.ldblk idx) s ≠ .fault (.cvUninit r)) ∧
    (∀ i : Fin 4, busStep (.read (0x20 + 4 * i.val) .word) s = .fault (.cvUninit (.k i)) ↔ s.k[i].held = false) ∧
    (∀ i : Fin 2, busStep (.read (0x30 + 4 * i.val) .word) s = .fault (.cvUninit (.v i)) ↔ s.v[i].held = false)) ∧
  (∀ (i : Instr) (s t : State), exec i s = .next t →
    (i = .enc ∨ i = .dec ∨ (∃ idx, i = .ldblk idx) → BlockHeld t) ∧
    (∀ j : Fin 4, s.k[j].held = true → t.k[j].held = true) ∧
    (∀ j : Fin 2, s.v[j].held = true → t.v[j].held = true)) ∧
  (∀ (s t : State) (off : Nat) (width : AccessWidth) (w : Word), busStep (.write off width w) s = .next t →
    (∀ j : Fin 4, t.k[j].held = true ↔ s.k[j].held = true ∨ off = 0x20 + 4 * j.val) ∧
    (∀ j : Fin 2, t.v[j].held = true ↔ s.v[j].held = true ∨ off = 0x30 + 4 * j.val)) ∧
  (∀ s : State, (∀ j : Fin 4, (resetBlock s).k[j].held = false) ∧ ∀ j : Fin 2, (resetBlock s).v[j].held = false)

/-- R224: which violation is reported when several apply. R216: the six violations have the numbers 1 to 6; the three
faults of the model's own (log entry 10) have none. -/
def Obligations.ViolationOrder : Prop :=
  (∀ (s : State) (off : Nat) (width : AccessWidth) (w : Word), s.busy = true →
    ¬ (width = .word ∧ off % 4 = 0 ∧ off ≤ 0x3C) →
    busStep (.read off width) s = .fault (.cvBusacc off width) ∧
    busStep (.write off width w) s = .fault (.cvBusacc off width)) ∧
  (∀ (s : State) (w : Word) (why : Reserved), decode w = .illegal why →
    (s.busy = true → busStep (.write 0x00 .word w) s = .fault (.cvBusy 0x00 .write)) ∧
    (s.busy = false → busStep (.write 0x00 .word w) s = .fault (.cvIllcmd w))) ∧
  (∀ (s : State) (idx : Nat), s.busy = false → (s.padded = false ∨ s.padlen.toNat / 8 ≤ idx) → ¬ BlockHeld s →
    exec (.stblk idx) s = .fault (.cvRange idx s.padlen)) ∧
  ((∀ off width, violationCode (.cvBusacc off width) = some 1) ∧
    (∀ off dir, violationCode (.cvBusy off dir) = some 2) ∧ (∀ w, violationCode (.cvIllcmd w) = some 3) ∧
    (∀ use, violationCode (.cvSeq use) = some 4) ∧ (∀ idx padlen, violationCode (.cvRange idx padlen) = some 5) ∧
    (∀ r, violationCode (.cvUninit r) = some 6) ∧ (∀ a, violationCode (.bufAbsent a) = none) ∧
    (∀ a, violationCode (.bufUnwritten a) = none) ∧ (∀ w, violationCode (.oplIllegal w) = none))

/-- From a state of the invariant every fault of a step is one of the six contract violations. -/
def Obligations.OnlyContractViolations : Prop :=
  ∀ (s : State) (f : Fault), Consistent s → step s = .fault f → (violationCode f).isSome = true

/-! ### Reset (10_state.md, 70_reset_and_hazards.md) -/

/-- R42: the state after the reset event, in the model's reset state too. -/
def Obligations.ResetState : Prop :=
  ∀ t : State, (t = State.reset ∨ ∃ s rest, s.agenda = .rst :: rest ∧ step s = .next t) →
    t.busy = false ∧ t.done = false ∧ t.padded = false ∧ t.maxlen.toNat = t.cfg.maxLenCap.val ∧
    t.inlen = 0 ∧ t.padlen = 0 ∧ (∀ i : Fin 4, t.k[i].held = false) ∧ (∀ i : Fin 2, t.v[i].held = false) ∧
    ∀ a, Memory.lookup t.buf a = none

/-- R240 to R242, R227: reset acts in every state and keeps nothing of the block: two machines with the same parameters
and environment are in states that nothing can tell apart after it, whatever they held and whatever they were doing. What
`Same` leaves open (OPL, RND, SUM, the words of K and V that hold no value) the spec leaves unspecified (log entries 2
and 3). That the moves to come, the words read and the parameters stay is the model's choice (log entry 20). -/
def Obligations.ResetForgetsEverything : Prop :=
  ∀ (s s' : State) (rest : List Move), s.agenda = .rst :: rest → s'.agenda = .rst :: rest → s.cfg = s'.cfg →
    s.reads = s'.reads → ∃ t t', step s = .next t ∧ step s' = .next t' ∧ Same t t' ∧ t.busy = false ∧ t.done = false ∧
      t.agenda = rest ∧ t.reads = s.reads ∧ t.cfg = s.cfg
end

