-- ==== Sys2Proof/Laws/State.lean ====
section
/-! SUPPORT. What each update of the state does to each field, and to the readings of the state that it leaves alone. -/

namespace Sys2Proof.Machine

variable (s : State)

/-! ### setK -/

@[simp] theorem setK_cfg (i : Fin 4) (w : Word) : (setK s i w).cfg = s.cfg := rfl
@[simp] theorem setK_k (i : Fin 4) (w : Word) : (setK s i w).k = s.k.set i (.written w) := rfl
@[simp] theorem setK_v (i : Fin 4) (w : Word) : (setK s i w).v = s.v := rfl
@[simp] theorem setK_maxlen (i : Fin 4) (w : Word) : (setK s i w).maxlen = s.maxlen := rfl
@[simp] theorem setK_inlen (i : Fin 4) (w : Word) : (setK s i w).inlen = s.inlen := rfl
@[simp] theorem setK_padlen (i : Fin 4) (w : Word) : (setK s i w).padlen = s.padlen := rfl
@[simp] theorem setK_busy (i : Fin 4) (w : Word) : (setK s i w).busy = s.busy := rfl
@[simp] theorem setK_done (i : Fin 4) (w : Word) : (setK s i w).done = s.done := rfl
@[simp] theorem setK_padded (i : Fin 4) (w : Word) : (setK s i w).padded = s.padded := rfl
@[simp] theorem setK_opl (i : Fin 4) (w : Word) : (setK s i w).opl = s.opl := rfl
@[simp] theorem setK_begun (i : Fin 4) (w : Word) : (setK s i w).begun = s.begun := rfl
@[simp] theorem setK_rnd (i : Fin 4) (w : Word) : (setK s i w).rnd = s.rnd := rfl
@[simp] theorem setK_sum (i : Fin 4) (w : Word) : (setK s i w).sum = s.sum := rfl
@[simp] theorem setK_buf (i : Fin 4) (w : Word) : (setK s i w).buf = s.buf := rfl
@[simp] theorem setK_agenda (i : Fin 4) (w : Word) : (setK s i w).agenda = s.agenda := rfl
@[simp] theorem setK_reads (i : Fin 4) (w : Word) : (setK s i w).reads = s.reads := rfl

/-! ### setV -/

@[simp] theorem setV_cfg (i : Fin 2) (w : Word) : (setV s i w).cfg = s.cfg := rfl
@[simp] theorem setV_k (i : Fin 2) (w : Word) : (setV s i w).k = s.k := rfl
@[simp] theorem setV_v (i : Fin 2) (w : Word) : (setV s i w).v = s.v.set i (.written w) := rfl
@[simp] theorem setV_maxlen (i : Fin 2) (w : Word) : (setV s i w).maxlen = s.maxlen := rfl
@[simp] theorem setV_inlen (i : Fin 2) (w : Word) : (setV s i w).inlen = s.inlen := rfl
@[simp] theorem setV_padlen (i : Fin 2) (w : Word) : (setV s i w).padlen = s.padlen := rfl
@[simp] theorem setV_busy (i : Fin 2) (w : Word) : (setV s i w).busy = s.busy := rfl
@[simp] theorem setV_done (i : Fin 2) (w : Word) : (setV s i w).done = s.done := rfl
@[simp] theorem setV_padded (i : Fin 2) (w : Word) : (setV s i w).padded = s.padded := rfl
@[simp] theorem setV_opl (i : Fin 2) (w : Word) : (setV s i w).opl = s.opl := rfl
@[simp] theorem setV_begun (i : Fin 2) (w : Word) : (setV s i w).begun = s.begun := rfl
@[simp] theorem setV_rnd (i : Fin 2) (w : Word) : (setV s i w).rnd = s.rnd := rfl
@[simp] theorem setV_sum (i : Fin 2) (w : Word) : (setV s i w).sum = s.sum := rfl
@[simp] theorem setV_buf (i : Fin 2) (w : Word) : (setV s i w).buf = s.buf := rfl
@[simp] theorem setV_agenda (i : Fin 2) (w : Word) : (setV s i w).agenda = s.agenda := rfl
@[simp] theorem setV_reads (i : Fin 2) (w : Word) : (setV s i w).reads = s.reads := rfl

/-! ### setBlock -/

@[simp] theorem setBlock_cfg (v0 v1 : Word) : (setBlock s v0 v1).cfg = s.cfg := rfl
@[simp] theorem setBlock_k (v0 v1 : Word) : (setBlock s v0 v1).k = s.k := rfl
@[simp] theorem setBlock_v (v0 v1 : Word) : (setBlock s v0 v1).v = #v[.written v0, .written v1] := rfl
@[simp] theorem setBlock_maxlen (v0 v1 : Word) : (setBlock s v0 v1).maxlen = s.maxlen := rfl
@[simp] theorem setBlock_inlen (v0 v1 : Word) : (setBlock s v0 v1).inlen = s.inlen := rfl
@[simp] theorem setBlock_padlen (v0 v1 : Word) : (setBlock s v0 v1).padlen = s.padlen := rfl
@[simp] theorem setBlock_busy (v0 v1 : Word) : (setBlock s v0 v1).busy = s.busy := rfl
@[simp] theorem setBlock_done (v0 v1 : Word) : (setBlock s v0 v1).done = s.done := rfl
@[simp] theorem setBlock_padded (v0 v1 : Word) : (setBlock s v0 v1).padded = s.padded := rfl
@[simp] theorem setBlock_opl (v0 v1 : Word) : (setBlock s v0 v1).opl = s.opl := rfl
@[simp] theorem setBlock_begun (v0 v1 : Word) : (setBlock s v0 v1).begun = s.begun := rfl
@[simp] theorem setBlock_rnd (v0 v1 : Word) : (setBlock s v0 v1).rnd = s.rnd := rfl
@[simp] theorem setBlock_sum (v0 v1 : Word) : (setBlock s v0 v1).sum = s.sum := rfl
@[simp] theorem setBlock_buf (v0 v1 : Word) : (setBlock s v0 v1).buf = s.buf := rfl
@[simp] theorem setBlock_agenda (v0 v1 : Word) : (setBlock s v0 v1).agenda = s.agenda := rfl
@[simp] theorem setBlock_reads (v0 v1 : Word) : (setBlock s v0 v1).reads = s.reads := rfl

/-! ### setMix -/

@[simp] theorem setMix_cfg (x : Word) (r : BitVec 6) : (setMix s x r).cfg = s.cfg := rfl
@[simp] theorem setMix_k (x : Word) (r : BitVec 6) : (setMix s x r).k = s.k := rfl
@[simp] theorem setMix_v (x : Word) (r : BitVec 6) : (setMix s x r).v = s.v := rfl
@[simp] theorem setMix_maxlen (x : Word) (r : BitVec 6) : (setMix s x r).maxlen = s.maxlen := rfl
@[simp] theorem setMix_inlen (x : Word) (r : BitVec 6) : (setMix s x r).inlen = s.inlen := rfl
@[simp] theorem setMix_padlen (x : Word) (r : BitVec 6) : (setMix s x r).padlen = s.padlen := rfl
@[simp] theorem setMix_busy (x : Word) (r : BitVec 6) : (setMix s x r).busy = s.busy := rfl
@[simp] theorem setMix_done (x : Word) (r : BitVec 6) : (setMix s x r).done = s.done := rfl
@[simp] theorem setMix_padded (x : Word) (r : BitVec 6) : (setMix s x r).padded = s.padded := rfl
@[simp] theorem setMix_opl (x : Word) (r : BitVec 6) : (setMix s x r).opl = s.opl := rfl
@[simp] theorem setMix_begun (x : Word) (r : BitVec 6) : (setMix s x r).begun = s.begun := rfl
@[simp] theorem setMix_rnd (x : Word) (r : BitVec 6) : (setMix s x r).rnd = r := rfl
@[simp] theorem setMix_sum (x : Word) (r : BitVec 6) : (setMix s x r).sum = x := rfl
@[simp] theorem setMix_buf (x : Word) (r : BitVec 6) : (setMix s x r).buf = s.buf := rfl
@[simp] theorem setMix_agenda (x : Word) (r : BitVec 6) : (setMix s x r).agenda = s.agenda := rfl
@[simp] theorem setMix_reads (x : Word) (r : BitVec 6) : (setMix s x r).reads = s.reads := rfl

/-! ### setMaxlen -/

@[simp] theorem setMaxlen_cfg (w : Word) : (setMaxlen s w).cfg = s.cfg := rfl
@[simp] theorem setMaxlen_k (w : Word) : (setMaxlen s w).k = s.k := rfl
@[simp] theorem setMaxlen_v (w : Word) : (setMaxlen s w).v = s.v := rfl
@[simp] theorem setMaxlen_maxlen (w : Word) : (setMaxlen s w).maxlen = BitVec.ofNat 32 (min w.toNat s.cfg.maxLenCap.val) := rfl
@[simp] theorem setMaxlen_inlen (w : Word) : (setMaxlen s w).inlen = s.inlen := rfl
@[simp] theorem setMaxlen_padlen (w : Word) : (setMaxlen s w).padlen = s.padlen := rfl
@[simp] theorem setMaxlen_busy (w : Word) : (setMaxlen s w).busy = s.busy := rfl
@[simp] theorem setMaxlen_done (w : Word) : (setMaxlen s w).done = s.done := rfl
@[simp] theorem setMaxlen_padded (w : Word) : (setMaxlen s w).padded = s.padded := rfl
@[simp] theorem setMaxlen_opl (w : Word) : (setMaxlen s w).opl = s.opl := rfl
@[simp] theorem setMaxlen_begun (w : Word) : (setMaxlen s w).begun = s.begun := rfl
@[simp] theorem setMaxlen_rnd (w : Word) : (setMaxlen s w).rnd = s.rnd := rfl
@[simp] theorem setMaxlen_sum (w : Word) : (setMaxlen s w).sum = s.sum := rfl
@[simp] theorem setMaxlen_buf (w : Word) : (setMaxlen s w).buf = s.buf := rfl
@[simp] theorem setMaxlen_agenda (w : Word) : (setMaxlen s w).agenda = s.agenda := rfl
@[simp] theorem setMaxlen_reads (w : Word) : (setMaxlen s w).reads = s.reads := rfl

/-! ### setInlen -/

@[simp] theorem setInlen_cfg (w : Word) : (setInlen s w).cfg = s.cfg := rfl
@[simp] theorem setInlen_k (w : Word) : (setInlen s w).k = s.k := rfl
@[simp] theorem setInlen_v (w : Word) : (setInlen s w).v = s.v := rfl
@[simp] theorem setInlen_maxlen (w : Word) : (setInlen s w).maxlen = s.maxlen := rfl
@[simp] theorem setInlen_inlen (w : Word) : (setInlen s w).inlen = w := rfl
@[simp] theorem setInlen_padlen (w : Word) : (setInlen s w).padlen = s.padlen := rfl
@[simp] theorem setInlen_busy (w : Word) : (setInlen s w).busy = s.busy := rfl
@[simp] theorem setInlen_done (w : Word) : (setInlen s w).done = s.done := rfl
@[simp] theorem setInlen_padded (w : Word) : (setInlen s w).padded = s.padded := rfl
@[simp] theorem setInlen_opl (w : Word) : (setInlen s w).opl = s.opl := rfl
@[simp] theorem setInlen_begun (w : Word) : (setInlen s w).begun = s.begun := rfl
@[simp] theorem setInlen_rnd (w : Word) : (setInlen s w).rnd = s.rnd := rfl
@[simp] theorem setInlen_sum (w : Word) : (setInlen s w).sum = s.sum := rfl
@[simp] theorem setInlen_buf (w : Word) : (setInlen s w).buf = s.buf := rfl
@[simp] theorem setInlen_agenda (w : Word) : (setInlen s w).agenda = s.agenda := rfl
@[simp] theorem setInlen_reads (w : Word) : (setInlen s w).reads = s.reads := rfl

/-! ### clearPadding -/

@[simp] theorem clearPadding_cfg : (clearPadding s).cfg = s.cfg := rfl
@[simp] theorem clearPadding_k : (clearPadding s).k = s.k := rfl
@[simp] theorem clearPadding_v : (clearPadding s).v = s.v := rfl
@[simp] theorem clearPadding_maxlen : (clearPadding s).maxlen = s.maxlen := rfl
@[simp] theorem clearPadding_inlen : (clearPadding s).inlen = 0 := rfl
@[simp] theorem clearPadding_padlen : (clearPadding s).padlen = 0 := rfl
@[simp] theorem clearPadding_busy : (clearPadding s).busy = s.busy := rfl
@[simp] theorem clearPadding_done : (clearPadding s).done = s.done := rfl
@[simp] theorem clearPadding_padded : (clearPadding s).padded = false := rfl
@[simp] theorem clearPadding_opl : (clearPadding s).opl = s.opl := rfl
@[simp] theorem clearPadding_begun : (clearPadding s).begun = s.begun := rfl
@[simp] theorem clearPadding_rnd : (clearPadding s).rnd = s.rnd := rfl
@[simp] theorem clearPadding_sum : (clearPadding s).sum = s.sum := rfl
@[simp] theorem clearPadding_buf : (clearPadding s).buf = s.buf := rfl
@[simp] theorem clearPadding_agenda : (clearPadding s).agenda = s.agenda := rfl
@[simp] theorem clearPadding_reads : (clearPadding s).reads = s.reads := rfl

/-! ### publishPadding -/

@[simp] theorem publishPadding_cfg (w : Word) : (publishPadding s w).cfg = s.cfg := rfl
@[simp] theorem publishPadding_k (w : Word) : (publishPadding s w).k = s.k := rfl
@[simp] theorem publishPadding_v (w : Word) : (publishPadding s w).v = s.v := rfl
@[simp] theorem publishPadding_maxlen (w : Word) : (publishPadding s w).maxlen = s.maxlen := rfl
@[simp] theorem publishPadding_inlen (w : Word) : (publishPadding s w).inlen = s.inlen := rfl
@[simp] theorem publishPadding_padlen (w : Word) : (publishPadding s w).padlen = w := rfl
@[simp] theorem publishPadding_busy (w : Word) : (publishPadding s w).busy = s.busy := rfl
@[simp] theorem publishPadding_done (w : Word) : (publishPadding s w).done = s.done := rfl
@[simp] theorem publishPadding_padded (w : Word) : (publishPadding s w).padded = true := rfl
@[simp] theorem publishPadding_opl (w : Word) : (publishPadding s w).opl = s.opl := rfl
@[simp] theorem publishPadding_begun (w : Word) : (publishPadding s w).begun = s.begun := rfl
@[simp] theorem publishPadding_rnd (w : Word) : (publishPadding s w).rnd = s.rnd := rfl
@[simp] theorem publishPadding_sum (w : Word) : (publishPadding s w).sum = s.sum := rfl
@[simp] theorem publishPadding_buf (w : Word) : (publishPadding s w).buf = s.buf := rfl
@[simp] theorem publishPadding_agenda (w : Word) : (publishPadding s w).agenda = s.agenda := rfl
@[simp] theorem publishPadding_reads (w : Word) : (publishPadding s w).reads = s.reads := rfl

/-! ### setBuf -/

@[simp] theorem setBuf_cfg (m : Memory) : (setBuf s m).cfg = s.cfg := rfl
@[simp] theorem setBuf_k (m : Memory) : (setBuf s m).k = s.k := rfl
@[simp] theorem setBuf_v (m : Memory) : (setBuf s m).v = s.v := rfl
@[simp] theorem setBuf_maxlen (m : Memory) : (setBuf s m).maxlen = s.maxlen := rfl
@[simp] theorem setBuf_inlen (m : Memory) : (setBuf s m).inlen = s.inlen := rfl
@[simp] theorem setBuf_padlen (m : Memory) : (setBuf s m).padlen = s.padlen := rfl
@[simp] theorem setBuf_busy (m : Memory) : (setBuf s m).busy = s.busy := rfl
@[simp] theorem setBuf_done (m : Memory) : (setBuf s m).done = s.done := rfl
@[simp] theorem setBuf_padded (m : Memory) : (setBuf s m).padded = s.padded := rfl
@[simp] theorem setBuf_opl (m : Memory) : (setBuf s m).opl = s.opl := rfl
@[simp] theorem setBuf_begun (m : Memory) : (setBuf s m).begun = s.begun := rfl
@[simp] theorem setBuf_rnd (m : Memory) : (setBuf s m).rnd = s.rnd := rfl
@[simp] theorem setBuf_sum (m : Memory) : (setBuf s m).sum = s.sum := rfl
@[simp] theorem setBuf_buf (m : Memory) : (setBuf s m).buf = m := rfl
@[simp] theorem setBuf_agenda (m : Memory) : (setBuf s m).agenda = s.agenda := rfl
@[simp] theorem setBuf_reads (m : Memory) : (setBuf s m).reads = s.reads := rfl

/-! ### logRead -/

@[simp] theorem logRead_cfg (w : Word) : (logRead s w).cfg = s.cfg := rfl
@[simp] theorem logRead_k (w : Word) : (logRead s w).k = s.k := rfl
@[simp] theorem logRead_v (w : Word) : (logRead s w).v = s.v := rfl
@[simp] theorem logRead_maxlen (w : Word) : (logRead s w).maxlen = s.maxlen := rfl
@[simp] theorem logRead_inlen (w : Word) : (logRead s w).inlen = s.inlen := rfl
@[simp] theorem logRead_padlen (w : Word) : (logRead s w).padlen = s.padlen := rfl
@[simp] theorem logRead_busy (w : Word) : (logRead s w).busy = s.busy := rfl
@[simp] theorem logRead_done (w : Word) : (logRead s w).done = s.done := rfl
@[simp] theorem logRead_padded (w : Word) : (logRead s w).padded = s.padded := rfl
@[simp] theorem logRead_opl (w : Word) : (logRead s w).opl = s.opl := rfl
@[simp] theorem logRead_begun (w : Word) : (logRead s w).begun = s.begun := rfl
@[simp] theorem logRead_rnd (w : Word) : (logRead s w).rnd = s.rnd := rfl
@[simp] theorem logRead_sum (w : Word) : (logRead s w).sum = s.sum := rfl
@[simp] theorem logRead_buf (w : Word) : (logRead s w).buf = s.buf := rfl
@[simp] theorem logRead_agenda (w : Word) : (logRead s w).agenda = s.agenda := rfl
@[simp] theorem logRead_reads (w : Word) : (logRead s w).reads = s.reads ++ [w] := rfl

/-! ### setAgenda -/

@[simp] theorem setAgenda_cfg (ms : List Move) : (setAgenda s ms).cfg = s.cfg := rfl
@[simp] theorem setAgenda_k (ms : List Move) : (setAgenda s ms).k = s.k := rfl
@[simp] theorem setAgenda_v (ms : List Move) : (setAgenda s ms).v = s.v := rfl
@[simp] theorem setAgenda_maxlen (ms : List Move) : (setAgenda s ms).maxlen = s.maxlen := rfl
@[simp] theorem setAgenda_inlen (ms : List Move) : (setAgenda s ms).inlen = s.inlen := rfl
@[simp] theorem setAgenda_padlen (ms : List Move) : (setAgenda s ms).padlen = s.padlen := rfl
@[simp] theorem setAgenda_busy (ms : List Move) : (setAgenda s ms).busy = s.busy := rfl
@[simp] theorem setAgenda_done (ms : List Move) : (setAgenda s ms).done = s.done := rfl
@[simp] theorem setAgenda_padded (ms : List Move) : (setAgenda s ms).padded = s.padded := rfl
@[simp] theorem setAgenda_opl (ms : List Move) : (setAgenda s ms).opl = s.opl := rfl
@[simp] theorem setAgenda_begun (ms : List Move) : (setAgenda s ms).begun = s.begun := rfl
@[simp] theorem setAgenda_rnd (ms : List Move) : (setAgenda s ms).rnd = s.rnd := rfl
@[simp] theorem setAgenda_sum (ms : List Move) : (setAgenda s ms).sum = s.sum := rfl
@[simp] theorem setAgenda_buf (ms : List Move) : (setAgenda s ms).buf = s.buf := rfl
@[simp] theorem setAgenda_agenda (ms : List Move) : (setAgenda s ms).agenda = ms := rfl
@[simp] theorem setAgenda_reads (ms : List Move) : (setAgenda s ms).reads = s.reads := rfl

/-! ### accept -/

@[simp] theorem accept_cfg (w : Word) : (accept s w).cfg = s.cfg := rfl
@[simp] theorem accept_k (w : Word) : (accept s w).k = s.k := rfl
@[simp] theorem accept_v (w : Word) : (accept s w).v = s.v := rfl
@[simp] theorem accept_maxlen (w : Word) : (accept s w).maxlen = s.maxlen := rfl
@[simp] theorem accept_inlen (w : Word) : (accept s w).inlen = s.inlen := rfl
@[simp] theorem accept_padlen (w : Word) : (accept s w).padlen = s.padlen := rfl
@[simp] theorem accept_busy (w : Word) : (accept s w).busy = true := rfl
@[simp] theorem accept_done (w : Word) : (accept s w).done = false := rfl
@[simp] theorem accept_padded (w : Word) : (accept s w).padded = s.padded := rfl
@[simp] theorem accept_opl (w : Word) : (accept s w).opl = w := rfl
@[simp] theorem accept_begun (w : Word) : (accept s w).begun = false := rfl
@[simp] theorem accept_rnd (w : Word) : (accept s w).rnd = s.rnd := rfl
@[simp] theorem accept_sum (w : Word) : (accept s w).sum = s.sum := rfl
@[simp] theorem accept_buf (w : Word) : (accept s w).buf = s.buf := rfl
@[simp] theorem accept_agenda (w : Word) : (accept s w).agenda = s.agenda := rfl
@[simp] theorem accept_reads (w : Word) : (accept s w).reads = s.reads := rfl

/-! ### startCommand -/

@[simp] theorem startCommand_cfg : (startCommand s).cfg = s.cfg := rfl
@[simp] theorem startCommand_k : (startCommand s).k = s.k := rfl
@[simp] theorem startCommand_v : (startCommand s).v = s.v := rfl
@[simp] theorem startCommand_maxlen : (startCommand s).maxlen = s.maxlen := rfl
@[simp] theorem startCommand_inlen : (startCommand s).inlen = s.inlen := rfl
@[simp] theorem startCommand_padlen : (startCommand s).padlen = s.padlen := rfl
@[simp] theorem startCommand_busy : (startCommand s).busy = s.busy := rfl
@[simp] theorem startCommand_done : (startCommand s).done = s.done := rfl
@[simp] theorem startCommand_padded : (startCommand s).padded = s.padded := rfl
@[simp] theorem startCommand_opl : (startCommand s).opl = s.opl := rfl
@[simp] theorem startCommand_begun : (startCommand s).begun = true := rfl
@[simp] theorem startCommand_rnd : (startCommand s).rnd = s.rnd := rfl
@[simp] theorem startCommand_sum : (startCommand s).sum = s.sum := rfl
@[simp] theorem startCommand_buf : (startCommand s).buf = s.buf := rfl
@[simp] theorem startCommand_agenda : (startCommand s).agenda = s.agenda := rfl
@[simp] theorem startCommand_reads : (startCommand s).reads = s.reads := rfl

/-! ### complete -/

@[simp] theorem complete_cfg : (complete s).cfg = s.cfg := rfl
@[simp] theorem complete_k : (complete s).k = s.k := rfl
@[simp] theorem complete_v : (complete s).v = s.v := rfl
@[simp] theorem complete_maxlen : (complete s).maxlen = s.maxlen := rfl
@[simp] theorem complete_inlen : (complete s).inlen = s.inlen := rfl
@[simp] theorem complete_padlen : (complete s).padlen = s.padlen := rfl
@[simp] theorem complete_busy : (complete s).busy = false := rfl
@[simp] theorem complete_done : (complete s).done = true := rfl
@[simp] theorem complete_padded : (complete s).padded = s.padded := rfl
@[simp] theorem complete_opl : (complete s).opl = s.opl := rfl
@[simp] theorem complete_begun : (complete s).begun = s.begun := rfl
@[simp] theorem complete_rnd : (complete s).rnd = s.rnd := rfl
@[simp] theorem complete_sum : (complete s).sum = s.sum := rfl
@[simp] theorem complete_buf : (complete s).buf = s.buf := rfl
@[simp] theorem complete_agenda : (complete s).agenda = s.agenda := rfl
@[simp] theorem complete_reads : (complete s).reads = s.reads := rfl

/-! ### resetBlock -/

@[simp] theorem resetBlock_cfg : (resetBlock s).cfg = s.cfg := rfl
@[simp] theorem resetBlock_k : (resetBlock s).k = #v[.blank, .blank, .blank, .blank] := rfl
@[simp] theorem resetBlock_v : (resetBlock s).v = #v[.blank, .blank] := rfl
@[simp] theorem resetBlock_maxlen : (resetBlock s).maxlen = BitVec.ofNat 32 s.cfg.maxLenCap.val := rfl
@[simp] theorem resetBlock_inlen : (resetBlock s).inlen = 0 := rfl
@[simp] theorem resetBlock_padlen : (resetBlock s).padlen = 0 := rfl
@[simp] theorem resetBlock_busy : (resetBlock s).busy = false := rfl
@[simp] theorem resetBlock_done : (resetBlock s).done = false := rfl
@[simp] theorem resetBlock_padded : (resetBlock s).padded = false := rfl
@[simp] theorem resetBlock_opl : (resetBlock s).opl = 0 := rfl
@[simp] theorem resetBlock_begun : (resetBlock s).begun = false := rfl
@[simp] theorem resetBlock_rnd : (resetBlock s).rnd = 0 := rfl
@[simp] theorem resetBlock_sum : (resetBlock s).sum = 0 := rfl
@[simp] theorem resetBlock_buf : (resetBlock s).buf = [] := rfl
@[simp] theorem resetBlock_agenda : (resetBlock s).agenda = s.agenda := rfl
@[simp] theorem resetBlock_reads : (resetBlock s).reads = s.reads := rfl

/-! ### Readings of the state that an update leaves alone -/

@[simp] theorem bufBytes_setK (i : Fin 4) (w : Word) : bufBytes (setK s i w) = bufBytes s := rfl
@[simp] theorem bufBytes_setV (i : Fin 2) (w : Word) : bufBytes (setV s i w) = bufBytes s := rfl
@[simp] theorem bufBytes_setBlock (v0 v1 : Word) : bufBytes (setBlock s v0 v1) = bufBytes s := rfl
@[simp] theorem bufBytes_setMix (x : Word) (r : BitVec 6) : bufBytes (setMix s x r) = bufBytes s := rfl
@[simp] theorem bufBytes_setMaxlen (w : Word) : bufBytes (setMaxlen s w) = bufBytes s := rfl
@[simp] theorem bufBytes_setInlen (w : Word) : bufBytes (setInlen s w) = bufBytes s := rfl
@[simp] theorem bufBytes_clearPadding : bufBytes (clearPadding s) = bufBytes s := rfl
@[simp] theorem bufBytes_publishPadding (w : Word) : bufBytes (publishPadding s w) = bufBytes s := rfl
@[simp] theorem bufBytes_setBuf (m : Memory) : bufBytes (setBuf s m) = bufBytes s := rfl
@[simp] theorem bufBytes_logRead (w : Word) : bufBytes (logRead s w) = bufBytes s := rfl
@[simp] theorem bufBytes_setAgenda (ms : List Move) : bufBytes (setAgenda s ms) = bufBytes s := rfl
@[simp] theorem bufBytes_accept (w : Word) : bufBytes (accept s w) = bufBytes s := rfl
@[simp] theorem bufBytes_startCommand : bufBytes (startCommand s) = bufBytes s := rfl
@[simp] theorem bufBytes_complete : bufBytes (complete s) = bufBytes s := rfl
@[simp] theorem bufBytes_resetBlock : bufBytes (resetBlock s) = bufBytes s := rfl
@[simp] theorem keyOperand_setV (i : Fin 2) (w : Word) : keyOperand (setV s i w) = keyOperand s := rfl
@[simp] theorem keyOperand_setBlock (v0 v1 : Word) : keyOperand (setBlock s v0 v1) = keyOperand s := rfl
@[simp] theorem keyOperand_setMix (x : Word) (r : BitVec 6) : keyOperand (setMix s x r) = keyOperand s := rfl
@[simp] theorem keyOperand_setMaxlen (w : Word) : keyOperand (setMaxlen s w) = keyOperand s := rfl
@[simp] theorem keyOperand_setInlen (w : Word) : keyOperand (setInlen s w) = keyOperand s := rfl
@[simp] theorem keyOperand_clearPadding : keyOperand (clearPadding s) = keyOperand s := rfl
@[simp] theorem keyOperand_publishPadding (w : Word) : keyOperand (publishPadding s w) = keyOperand s := rfl
@[simp] theorem keyOperand_setBuf (m : Memory) : keyOperand (setBuf s m) = keyOperand s := rfl
@[simp] theorem keyOperand_logRead (w : Word) : keyOperand (logRead s w) = keyOperand s := rfl
@[simp] theorem keyOperand_setAgenda (ms : List Move) : keyOperand (setAgenda s ms) = keyOperand s := rfl
@[simp] theorem keyOperand_accept (w : Word) : keyOperand (accept s w) = keyOperand s := rfl
@[simp] theorem keyOperand_startCommand : keyOperand (startCommand s) = keyOperand s := rfl
@[simp] theorem keyOperand_complete : keyOperand (complete s) = keyOperand s := rfl
@[simp] theorem blockOperand_setK (i : Fin 4) (w : Word) : blockOperand (setK s i w) = blockOperand s := rfl
@[simp] theorem blockOperand_setMix (x : Word) (r : BitVec 6) : blockOperand (setMix s x r) = blockOperand s := rfl
@[simp] theorem blockOperand_setMaxlen (w : Word) : blockOperand (setMaxlen s w) = blockOperand s := rfl
@[simp] theorem blockOperand_setInlen (w : Word) : blockOperand (setInlen s w) = blockOperand s := rfl
@[simp] theorem blockOperand_clearPadding : blockOperand (clearPadding s) = blockOperand s := rfl
@[simp] theorem blockOperand_publishPadding (w : Word) : blockOperand (publishPadding s w) = blockOperand s := rfl
@[simp] theorem blockOperand_setBuf (m : Memory) : blockOperand (setBuf s m) = blockOperand s := rfl
@[simp] theorem blockOperand_logRead (w : Word) : blockOperand (logRead s w) = blockOperand s := rfl
@[simp] theorem blockOperand_setAgenda (ms : List Move) : blockOperand (setAgenda s ms) = blockOperand s := rfl
@[simp] theorem blockOperand_accept (w : Word) : blockOperand (accept s w) = blockOperand s := rfl
@[simp] theorem blockOperand_startCommand : blockOperand (startCommand s) = blockOperand s := rfl
@[simp] theorem blockOperand_complete : blockOperand (complete s) = blockOperand s := rfl
@[simp] theorem cipherOperands_setMix (x : Word) (r : BitVec 6) : cipherOperands (setMix s x r) = cipherOperands s := rfl
@[simp] theorem cipherOperands_setMaxlen (w : Word) : cipherOperands (setMaxlen s w) = cipherOperands s := rfl
@[simp] theorem cipherOperands_setInlen (w : Word) : cipherOperands (setInlen s w) = cipherOperands s := rfl
@[simp] theorem cipherOperands_clearPadding : cipherOperands (clearPadding s) = cipherOperands s := rfl
@[simp] theorem cipherOperands_publishPadding (w : Word) : cipherOperands (publishPadding s w) = cipherOperands s := rfl
@[simp] theorem cipherOperands_setBuf (m : Memory) : cipherOperands (setBuf s m) = cipherOperands s := rfl
@[simp] theorem cipherOperands_logRead (w : Word) : cipherOperands (logRead s w) = cipherOperands s := rfl
@[simp] theorem cipherOperands_setAgenda (ms : List Move) : cipherOperands (setAgenda s ms) = cipherOperands s := rfl
@[simp] theorem cipherOperands_accept (w : Word) : cipherOperands (accept s w) = cipherOperands s := rfl
@[simp] theorem cipherOperands_startCommand : cipherOperands (startCommand s) = cipherOperands s := rfl
@[simp] theorem cipherOperands_complete : cipherOperands (complete s) = cipherOperands s := rfl
@[simp] theorem memRead_setK (i : Fin 4) (w : Word) (addr m : Nat) : memRead (setK s i w) addr m = memRead s addr m := rfl
@[simp] theorem memRead_setV (i : Fin 2) (w : Word) (addr m : Nat) : memRead (setV s i w) addr m = memRead s addr m := rfl
@[simp] theorem memRead_setBlock (v0 v1 : Word) (addr m : Nat) : memRead (setBlock s v0 v1) addr m = memRead s addr m := rfl
@[simp] theorem memRead_setMix (x : Word) (r : BitVec 6) (addr m : Nat) : memRead (setMix s x r) addr m = memRead s addr m := rfl
@[simp] theorem memRead_setMaxlen (w : Word) (addr m : Nat) : memRead (setMaxlen s w) addr m = memRead s addr m := rfl
@[simp] theorem memRead_setInlen (w : Word) (addr m : Nat) : memRead (setInlen s w) addr m = memRead s addr m := rfl
@[simp] theorem memRead_clearPadding (addr m : Nat) : memRead (clearPadding s) addr m = memRead s addr m := rfl
@[simp] theorem memRead_publishPadding (w : Word) (addr m : Nat) : memRead (publishPadding s w) addr m = memRead s addr m := rfl
@[simp] theorem memRead_logRead (w : Word) (addr m : Nat) : memRead (logRead s w) addr m = memRead s addr m := rfl
@[simp] theorem memRead_setAgenda (ms : List Move) (addr m : Nat) : memRead (setAgenda s ms) addr m = memRead s addr m := rfl
@[simp] theorem memRead_accept (w : Word) (addr m : Nat) : memRead (accept s w) addr m = memRead s addr m := rfl
@[simp] theorem memRead_startCommand (addr m : Nat) : memRead (startCommand s) addr m = memRead s addr m := rfl
@[simp] theorem memRead_complete (addr m : Nat) : memRead (complete s) addr m = memRead s addr m := rfl
@[simp] theorem statusWord_setK (i : Fin 4) (w : Word) : statusWord (setK s i w) = statusWord s := rfl
@[simp] theorem statusWord_setV (i : Fin 2) (w : Word) : statusWord (setV s i w) = statusWord s := rfl
@[simp] theorem statusWord_setBlock (v0 v1 : Word) : statusWord (setBlock s v0 v1) = statusWord s := rfl
@[simp] theorem statusWord_setMix (x : Word) (r : BitVec 6) : statusWord (setMix s x r) = statusWord s := rfl
@[simp] theorem statusWord_setMaxlen (w : Word) : statusWord (setMaxlen s w) = statusWord s := rfl
@[simp] theorem statusWord_setInlen (w : Word) : statusWord (setInlen s w) = statusWord s := rfl
@[simp] theorem statusWord_setBuf (m : Memory) : statusWord (setBuf s m) = statusWord s := rfl
@[simp] theorem statusWord_logRead (w : Word) : statusWord (logRead s w) = statusWord s := rfl
@[simp] theorem statusWord_setAgenda (ms : List Move) : statusWord (setAgenda s ms) = statusWord s := rfl
@[simp] theorem statusWord_startCommand : statusWord (startCommand s) = statusWord s := rfl

end Sys2Proof.Machine
end

