-- ==== Sys2Proof/Laws/Memory.lean ====
section
/-! SUPPORT. The laws of the bytes of `BUF`: read after write, the canonical form, and runs of bytes. -/

namespace Sys2Proof.Machine

/-! ### One byte -/

theorem Memory.lookup_insert (m : Memory) (a x : Nat) (b : Byte) :
    Memory.lookup (Memory.insert m a b) x = if x = a then some b else Memory.lookup m x := by
  induction m with
  | nil => rfl
  | cons c m ih =>
    obtain ⟨y, d⟩ := c
    simp only [Memory.insert]
    split
    · simp [Memory.lookup]
    · split
      · next h => subst h; by_cases hx : x = a <;> simp [Memory.lookup, hx]
      · next h =>
        simp only [Memory.lookup, ih]
        by_cases hx : x = a
        · subst hx; simp [h]
        · simp [hx]

theorem Memory.mem_insert {m : Memory} {a : Nat} {b : Byte} {c : Host.Cell}
    (h : c ∈ Memory.insert m a b) : c = (a, b) ∨ c ∈ m := by
  induction m with
  | nil => simpa [Memory.insert] using h
  | cons d m ih =>
    obtain ⟨y, e⟩ := d
    simp only [Memory.insert] at h
    split at h
    · simpa using h
    · split at h
      · rcases List.mem_cons.1 h with h | h
        · exact .inl h
        · exact .inr (List.mem_cons_of_mem _ h)
      · rcases List.mem_cons.1 h with h | h
        · exact .inr (h ▸ List.mem_cons_self)
        · exact (ih h).imp id (List.mem_cons_of_mem _)

/-- The canonical form says that the addresses are strictly rising. -/
theorem Memory.wf_iff (m : Memory) : Memory.wf m = true ↔ m.Pairwise (fun c d => c.1 < d.1) := by
  induction m with
  | nil => simp [Memory.wf]
  | cons c m ih =>
    cases m with
    | nil => simp [Memory.wf]
    | cons d m =>
      obtain ⟨a, b⟩ := c
      obtain ⟨x, y⟩ := d
      simp only [Memory.wf, Bool.and_eq_true, decide_eq_true_eq, ih, List.pairwise_cons, List.mem_cons]
      constructor
      · rintro ⟨h, h1, h2⟩
        refine ⟨?_, h1, h2⟩
        rintro e (rfl | he)
        · exact h
        · exact Nat.lt_trans h (h1 e he)
      · rintro ⟨h, h1, h2⟩
        exact ⟨h _ (.inl rfl), h1, h2⟩

theorem Memory.wf_insert (m : Memory) (a : Nat) (b : Byte) (h : Memory.wf m = true) :
    Memory.wf (Memory.insert m a b) = true := by
  rw [Memory.wf_iff] at *
  induction m with
  | nil => simp [Memory.insert]
  | cons c m ih =>
    obtain ⟨y, e⟩ := c
    obtain ⟨h1, h2⟩ := List.pairwise_cons.1 h
    simp only [Memory.insert]
    split
    · next hlt =>
      refine List.pairwise_cons.2 ⟨?_, h⟩
      intro d hd
      rcases List.mem_cons.1 hd with rfl | hd
      · exact hlt
      · exact Nat.lt_trans hlt (h1 d hd)
    · split
      · next heq => subst heq; exact List.pairwise_cons.2 ⟨h1, h2⟩
      · next hlt hne =>
        refine List.pairwise_cons.2 ⟨?_, ih h2⟩
        intro d hd
        rcases Memory.mem_insert hd with rfl | hd
        · simp only; omega
        · exact h1 d hd

/-- Canonical memories that read alike are the same list. -/
theorem Memory.eq_of_lookup_eq {m n : Memory} (hm : Memory.wf m = true) (hn : Memory.wf n = true)
    (h : ∀ a, Memory.lookup m a = Memory.lookup n a) : m = n := by
  rw [Memory.wf_iff] at hm hn
  have low : ∀ {l : Memory} {a : Nat}, (∀ c ∈ l, a < c.1) → Memory.lookup l a = none := by
    intro l a hl
    induction l with
    | nil => rfl
    | cons c l ih =>
      have := hl c List.mem_cons_self
      have hne : a ≠ c.1 := by omega
      simp [Memory.lookup, hne, ih fun d hd => hl d (List.mem_cons_of_mem _ hd)]
  induction m generalizing n with
  | nil =>
    cases n with
    | nil => rfl
    | cons d n => have := h d.1; simp [Memory.lookup] at this
  | cons c m ih =>
    cases n with
    | nil => have := h c.1; simp [Memory.lookup] at this
    | cons d n =>
      obtain ⟨hm1, hm2⟩ := List.pairwise_cons.1 hm
      obtain ⟨hn1, hn2⟩ := List.pairwise_cons.1 hn
      have hcd : c.1 = d.1 := by
        rcases Nat.lt_trichotomy c.1 d.1 with hlt | heq | hgt
        · have h0 := h c.1
          have h1 : Memory.lookup (d :: n) c.1 = none := low fun e he => by
            rcases List.mem_cons.1 he with rfl | he
            · exact hlt
            · exact Nat.lt_trans hlt (hn1 e he)
          rw [h1] at h0; simp [Memory.lookup] at h0
        · exact heq
        · have h0 := h d.1
          have h1 : Memory.lookup (c :: m) d.1 = none := low fun e he => by
            rcases List.mem_cons.1 he with rfl | he
            · exact hgt
            · exact Nat.lt_trans hgt (hm1 e he)
          rw [h1] at h0; simp [Memory.lookup] at h0
      have hv : c.2 = d.2 := by
        have h0 := h c.1
        simpa [Memory.lookup, hcd] using h0
      have hc : c = d := Prod.ext hcd hv
      subst hc
      congr 1
      refine ih hm2 hn2 fun a => ?_
      by_cases ha : a = c.1
      · subst ha; rw [low hm1, low hn1]
      · have h0 := h a
        simpa [Memory.lookup, ha] using h0

/-! ### Runs of bytes -/

theorem Memory.lookup_insertAll (bs : List Byte) (m : Memory) (a x : Nat) :
    Memory.lookup (Memory.insertAll m a bs) x =
      if a ≤ x ∧ x < a + bs.length then bs[x - a]? else Memory.lookup m x := by
  induction bs generalizing m a with
  | nil => simp [Memory.insertAll]
  | cons b bs ih =>
    simp only [Memory.insertAll, ih, Memory.lookup_insert, List.length_cons]
    by_cases hx : x = a
    · subst hx; simp
    · by_cases h1 : a + 1 ≤ x ∧ x < a + 1 + bs.length
      · have e : x - a = (x - (a + 1)) + 1 := by omega
        rw [if_pos h1, if_pos (by omega), e, List.getElem?_cons_succ]
      · rw [if_neg h1, if_neg hx, if_neg (by omega)]

/-- A byte inside the run reads as the byte written there. -/
theorem Memory.lookup_insertAll_inside {bs : List Byte} {m : Memory} {a j : Nat} (h : j < bs.length) :
    Memory.lookup (Memory.insertAll m a bs) (a + j) = bs[j]? := by
  rw [Memory.lookup_insertAll, if_pos (by omega)]; congr 1; omega

/-- A byte outside the run reads as before. -/
theorem Memory.lookup_insertAll_outside {bs : List Byte} {m : Memory} {a x : Nat}
    (h : x < a ∨ a + bs.length ≤ x) :
    Memory.lookup (Memory.insertAll m a bs) x = Memory.lookup m x := by
  rw [Memory.lookup_insertAll, if_neg (by omega)]

theorem Memory.wf_insertAll (bs : List Byte) (m : Memory) (a : Nat) (h : Memory.wf m = true) :
    Memory.wf (Memory.insertAll m a bs) = true := by
  induction bs generalizing m a with
  | nil => exact h
  | cons b bs ih => exact ih _ _ (Memory.wf_insert _ _ _ h)

theorem Memory.mem_insertAll {bs : List Byte} {m : Memory} {a : Nat} {c : Host.Cell}
    (h : c ∈ Memory.insertAll m a bs) : c ∈ m ∨ (a ≤ c.1 ∧ c.1 < a + bs.length) := by
  induction bs generalizing m a with
  | nil => exact .inl h
  | cons b bs ih =>
    rcases ih h with h | h
    · rcases Memory.mem_insert h with rfl | h
      · right; simp
      · exact .inl h
    · right; simp only [List.length_cons]; omega

/-- What a run of bytes reads as. -/
theorem Memory.readN_eq_ok_iff (m : Memory) (a : Nat) {n : Nat} (bs : Vector Byte n) :
    Memory.readN m a n = .ok bs ↔ ∀ (j : Nat) (h : j < n), Memory.lookup m (a + j) = some bs[j] := by
  induction n with
  | zero =>
    constructor
    · intro _ j h; omega
    · intro _
      have : bs = #v[] := by ext j h; omega
      simp [Memory.readN, this]
  | succ n ih =>
    simp only [Memory.readN]
    constructor
    · intro h j hj
      split at h
      · cases h
      · next cs hcs =>
        split at h
        · cases h
        · next b hb =>
          cases h
          rcases Nat.lt_or_ge j n with hlt | hge
          · rw [(ih cs).1 hcs j hlt, Vector.getElem_push_lt]
          · obtain rfl : j = n := by omega
            simpa using hb
    · intro h
      have hpop : Memory.readN m a n = .ok bs.pop := by
        refine (ih _).2 fun j hj => ?_
        rw [h j (by omega)]; simp
      rw [hpop]
      simp only [h n (by omega)]
      congr 1
      ext j hj
      simp only [Vector.getElem_push]
      split
      · simp
      · obtain rfl : j = n := by omega
        rfl

/-- A run of written bytes can be read. -/
theorem Memory.readN_written {m : Memory} {a n : Nat} (h : ∀ j, j < n → (Memory.lookup m (a + j)).isSome = true) :
    ∃ bs : Vector Byte n, Memory.readN m a n = .ok bs := by
  refine ⟨Vector.ofFn fun j => (Memory.lookup m (a + j)).get (h j j.2), ?_⟩
  rw [Memory.readN_eq_ok_iff]
  intro j hj
  simp

/-- Two memories that agree on a run read alike there. -/
theorem Memory.readN_congr {m m' : Memory} {a n : Nat}
    (h : ∀ j, j < n → Memory.lookup m (a + j) = Memory.lookup m' (a + j)) :
    Memory.readN m a n = Memory.readN m' a n := by
  induction n with
  | zero => rfl
  | succ n ih => simp only [Memory.readN, ih fun j hj => h j (by omega), h n (by omega)]

end Sys2Proof.Machine
end

