-- ==== Sys2Proof/Laws/Ops.lean ====
section
/-! SUPPORT. What each shared operation can do, said once. -/

namespace Sys2Proof.Machine

/-! ### Sequencing -/

@[simp] theorem andThen_next (s : State) (f : State → Result) : andThen (.next s) f = f s := rfl
@[simp] theorem andThen_fault (r : Fault) (f : State → Result) : andThen (.fault r) f = .fault r := rfl
@[simp] theorem andThen_refused (r : Refusal) (f : State → Result) : andThen (.refused r) f = .refused r := rfl

theorem andThen_eq_next {o : Result} {f : State → Result} {t : State} (h : andThen o f = .next t) :
    ∃ s, o = .next s ∧ f s = .next t := by
  cases o with
  | next s => exact ⟨s, rfl, h⟩
  | fault r => cases h
  | refused r => cases h

/-! ### `BUF` -/

theorem memRead_ok {s : State} {a n : Nat} {bs : Vector Byte n} (h : memRead s a n = .ok bs) :
    a + n ≤ bufBytes s ∧ ∀ (j : Nat) (hj : j < n), Memory.lookup s.buf (a + j) = some bs[j] := by
  unfold memRead at h
  split at h
  · next hin =>
    refine ⟨hin, ?_⟩
    split at h
    · cases h
    · next cs hcs => cases h; exact (Memory.readN_eq_ok_iff _ _ _).1 hcs
  · cases h

theorem memRead_eq_ok {s : State} {a n : Nat} {bs : Vector Byte n} (hin : a + n ≤ bufBytes s)
    (h : ∀ (j : Nat) (hj : j < n), Memory.lookup s.buf (a + j) = some bs[j]) : memRead s a n = .ok bs := by
  unfold memRead
  rw [if_pos hin, (Memory.readN_eq_ok_iff _ _ _).2 h]

/-- Written bytes inside `BUF` can be read (20_memory.md R77). -/
theorem memRead_written {s : State} {a n : Nat} (hin : a + n ≤ bufBytes s)
    (h : ∀ j, j < n → (Memory.lookup s.buf (a + j)).isSome = true) : ∃ bs : Vector Byte n, memRead s a n = .ok bs := by
  obtain ⟨bs, hbs⟩ := Memory.readN_written h
  exact ⟨bs, memRead_eq_ok hin ((Memory.readN_eq_ok_iff _ _ _).1 hbs)⟩

theorem memRead_congr {s t : State} {a n : Nat} (hcfg : s.cfg = t.cfg)
    (h : ∀ j, j < n → Memory.lookup s.buf (a + j) = Memory.lookup t.buf (a + j)) :
    memRead s a n = memRead t a n := by
  unfold memRead bufBytes
  rw [hcfg, Memory.readN_congr h]

/-- Everything a MemWrite can do: inside `BUF` it changes those bytes and nothing else, outside it faults
(20_memory.md R77). -/
theorem memWrite_cases (s : State) (a : Nat) (bs : List Byte) :
    (a + bs.length ≤ bufBytes s ∧ memWrite s a bs = .next (setBuf s (Memory.insertAll s.buf a bs))) ∨
    (bufBytes s < a + bs.length ∧ memWrite s a bs = .fault (.bufAbsent a)) := by
  unfold memWrite
  split
  · exact .inl ⟨‹_›, rfl⟩
  · exact .inr ⟨by omega, rfl⟩

theorem memWrite_inside {s : State} {a : Nat} {bs : List Byte} (h : a + bs.length ≤ bufBytes s) :
    memWrite s a bs = .next (setBuf s (Memory.insertAll s.buf a bs)) := if_pos h

theorem memWrite_eq_next {s t : State} {a : Nat} {bs : List Byte} (h : memWrite s a bs = .next t) :
    a + bs.length ≤ bufBytes s ∧ t = setBuf s (Memory.insertAll s.buf a bs) := by
  rcases memWrite_cases s a bs with ⟨hin, e⟩ | ⟨_, e⟩ <;> rw [e] at h <;> cases h
  exact ⟨hin, rfl⟩

/-! ### The data registers -/

@[simp] theorem Reg.written_word (w : Word) : (Reg.written w).word = w := rfl
@[simp] theorem Reg.written_held (w : Word) : (Reg.written w).held = true := rfl
@[simp] theorem Reg.blank_held : Reg.blank.held = false := rfl

theorem Reg.read_held {r : Reg} (n : RegName) (h : r.held = true) : r.read n = .ok r.word := if_pos h

theorem Reg.read_blank {r : Reg} (n : RegName) (h : r.held = false) : r.read n = .error (.cvUninit n) := by
  simp [Reg.read, h]

/-- A register that holds a value is the register written with that value. -/
theorem Reg.eq_written {r : Reg} (h : r.held = true) : r = .written r.word := by
  cases r; simp_all [Reg.written]

/-! ### The operands of the commands -/

theorem keyOperand_held {s : State} (h : KeyHeld s) : keyOperand s = .ok (keyWords s) := by
  obtain ⟨h0, h1, h2, h3⟩ := h
  simp [keyOperand, keyWords, Reg.read, h0, h1, h2, h3, bind, Except.bind, pure, Except.pure]

theorem blockOperand_held {s : State} (h : BlockHeld s) : blockOperand s = .ok (blockWords s) := by
  obtain ⟨h0, h1⟩ := h
  simp [blockOperand, blockWords, Reg.read, h0, h1, bind, Except.bind, pure, Except.pure]

theorem cipherOperands_held {s : State} (hk : KeyHeld s) (hv : BlockHeld s) :
    cipherOperands s = .ok (keyWords s, blockWords s) := by
  simp [cipherOperands, keyOperand_held hk, blockOperand_held hv, bind, Except.bind, pure, Except.pure]

/-- Everything reading a register can answer. -/
theorem Reg.read_cases (r : Reg) (n : RegName) :
    (r.held = true ∧ r.read n = .ok r.word) ∨ (r.held = false ∧ r.read n = .error (.cvUninit n)) := by
  cases h : r.held
  · exact .inr ⟨rfl, Reg.read_blank n h⟩
  · exact .inl ⟨rfl, Reg.read_held n h⟩

/-- Everything reading the key can answer: its words, or CV_UNINIT naming a register that holds no value. -/
theorem keyOperand_cases (s : State) :
    (KeyHeld s ∧ keyOperand s = .ok (keyWords s)) ∨
    ∃ i : Fin 4, s.k[i].held = false ∧ keyOperand s = .error (.cvUninit (.k i)) := by
  by_cases h : KeyHeld s
  · exact .inl ⟨h, keyOperand_held h⟩
  · right
    simp only [keyOperand, bind, Except.bind, pure, Except.pure]
    rcases Reg.read_cases s.k[0] (.k 0) with ⟨h0, e0⟩ | ⟨h0, e0⟩ <;> rw [e0]
    · rcases Reg.read_cases s.k[1] (.k 1) with ⟨h1, e1⟩ | ⟨h1, e1⟩ <;> simp only [e1]
      · rcases Reg.read_cases s.k[2] (.k 2) with ⟨h2, e2⟩ | ⟨h2, e2⟩ <;> simp only [e2]
        · rcases Reg.read_cases s.k[3] (.k 3) with ⟨h3, e3⟩ | ⟨h3, e3⟩ <;> simp only [e3]
          · exact absurd ⟨h0, h1, h2, h3⟩ h
          · exact ⟨3, h3, rfl⟩
        · exact ⟨2, h2, rfl⟩
      · exact ⟨1, h1, rfl⟩
    · exact ⟨0, h0, rfl⟩

/-- Everything reading the block can answer. -/
theorem blockOperand_cases (s : State) :
    (BlockHeld s ∧ blockOperand s = .ok (blockWords s)) ∨
    ∃ i : Fin 2, s.v[i].held = false ∧ blockOperand s = .error (.cvUninit (.v i)) := by
  by_cases h : BlockHeld s
  · exact .inl ⟨h, blockOperand_held h⟩
  · right
    simp only [blockOperand, bind, Except.bind, pure, Except.pure]
    rcases Reg.read_cases s.v[0] (.v 0) with ⟨h0, e0⟩ | ⟨h0, e0⟩ <;> rw [e0]
    · rcases Reg.read_cases s.v[1] (.v 1) with ⟨h1, e1⟩ | ⟨h1, e1⟩ <;> simp only [e1]
      · exact absurd ⟨h0, h1⟩ h
      · exact ⟨1, h1, rfl⟩
    · exact ⟨0, h0, rfl⟩

/-- Everything reading the operands of ENC and DEC can answer. -/
theorem cipherOperands_cases (s : State) :
    (KeyHeld s ∧ BlockHeld s ∧ cipherOperands s = .ok (keyWords s, blockWords s)) ∨
    ∃ r : RegName, (match r with | .k i => s.k[i].held | .v i => s.v[i].held) = false ∧
      cipherOperands s = .error (.cvUninit r) := by
  rcases keyOperand_cases s with ⟨hk, ek⟩ | ⟨i, hi, ek⟩
  · rcases blockOperand_cases s with ⟨hv, ev⟩ | ⟨i, hi, ev⟩
    · exact .inl ⟨hk, hv, cipherOperands_held hk hv⟩
    · refine .inr ⟨.v i, hi, ?_⟩
      simp [cipherOperands, ek, ev, bind, Except.bind]
  · refine .inr ⟨.k i, hi, ?_⟩
    simp [cipherOperands, ek, bind, Except.bind]

theorem cipherPre_eq_none_iff (s : State) : cipherPre s = none ↔ KeyHeld s ∧ BlockHeld s := by
  constructor
  · intro h
    rcases cipherOperands_cases s with ⟨hk, hv, _⟩ | ⟨r, _, e⟩
    · exact ⟨hk, hv⟩
    · simp [cipherPre, e, violation] at h
  · rintro ⟨hk, hv⟩
    simp [cipherPre, cipherOperands_held hk hv, violation]

theorem rangePre_eq_none_iff (idx : Nat) (s : State) :
    rangePre idx s = none ↔ s.padded = true ∧ idx < s.padlen.toNat / 8 := by
  unfold rangePre; split <;> simp_all

theorem stblkPre_eq_none_iff (idx : Nat) (s : State) :
    stblkPre idx s = none ↔ (s.padded = true ∧ idx < s.padlen.toNat / 8) ∧ BlockHeld s := by
  rw [← rangePre_eq_none_iff]
  unfold stblkPre
  cases h : rangePre idx s with
  | some f => simp
  | none =>
    rcases blockOperand_cases s with ⟨hv, e⟩ | ⟨i, hi, e⟩
    · simpa [e, violation] using hv
    · have hn : ¬ BlockHeld s := fun hv => by rw [blockOperand_held hv] at e; cases e
      simpa [e, violation] using hn

/-! ### A command as one step -/

/-- A command that needs no more than it has completes. -/
theorem perform_eq_next {i : Instr} {pre : Option Fault} {effect : State → Result} {s u : State}
    (hidle : s.busy = false) (hpre : pre = none)
    (he : effect (startCommand (accept s (encode i))) = .next u) :
    perform i pre effect s = .next (complete u) := by
  simp [perform, hidle, hpre, he]

/-- Everything a command can do: it completes from an idle state in which its precondition holds and its effect
answers a next state. -/
theorem perform_next {i : Instr} {pre : Option Fault} {effect : State → Result} {s t : State}
    (h : perform i pre effect s = .next t) :
    s.busy = false ∧ pre = none ∧
      ∃ u, effect (startCommand (accept s (encode i))) = .next u ∧ t = complete u := by
  unfold perform at h
  split at h
  · cases h
  · next hb =>
    split at h
    · cases h
    · obtain ⟨u, hu, e⟩ := andThen_eq_next h
      cases e
      exact ⟨by simpa using hb, rfl, u, hu, rfl⟩

theorem perform_busy {i : Instr} {pre : Option Fault} {effect : State → Result} {s : State}
    (h : s.busy = true) : perform i pre effect s = .fault (.cvBusy 0 .write) := by simp [perform, h]

theorem perform_violation {i : Instr} {pre : Option Fault} {effect : State → Result} {s : State} {f : Fault}
    (hidle : s.busy = false) (hpre : pre = some f) : perform i pre effect s = .fault f := by
  simp [perform, hidle, hpre]

end Sys2Proof.Machine
end

