-- ==== Sys2Proof/Laws/Cipher.lean ====
section
/-! SUPPORT. The rounds, and what they leave in the state. -/

namespace Sys2Proof.Machine

@[simp] theorem encRounds_zero (k : Key) (m : Mix) : encRounds k 0 m = m := rfl
@[simp] theorem decRounds_zero (k : Key) (m : Mix) : decRounds k 0 m = m := rfl

/-- One round more, done last. -/
theorem encRounds_succ (k : Key) (r : Nat) (m : Mix) : encRounds k (r + 1) m = encRound k (encRounds k r m) :=
  Function.iterate_succ_apply' _ _ _

/-- One round more, done last. -/
theorem decRounds_succ (k : Key) (r : Nat) (m : Mix) : decRounds k (r + 1) m = decRound k (decRounds k r m) :=
  Function.iterate_succ_apply' _ _ _

/-- The block after all rounds is `encrypt`'s. -/
@[simp] theorem encMix_block (v : Block) (k : Key) : (encMix v k).block = encrypt v k := rfl

/-- The block after all rounds is `decrypt`'s. -/
@[simp] theorem decMix_block (v : Block) (k : Key) : (decMix v k).block = decrypt v k := rfl

/-! ### putMix -/

variable (s : State) (m : Mix) (r : BitVec 6)

@[simp] theorem putMix_cfg : (putMix s m r).cfg = s.cfg := rfl
@[simp] theorem putMix_k : (putMix s m r).k = s.k := rfl
@[simp] theorem putMix_v : (putMix s m r).v = #v[.written m.block.v0, .written m.block.v1] := rfl
@[simp] theorem putMix_maxlen : (putMix s m r).maxlen = s.maxlen := rfl
@[simp] theorem putMix_inlen : (putMix s m r).inlen = s.inlen := rfl
@[simp] theorem putMix_padlen : (putMix s m r).padlen = s.padlen := rfl
@[simp] theorem putMix_busy : (putMix s m r).busy = s.busy := rfl
@[simp] theorem putMix_done : (putMix s m r).done = s.done := rfl
@[simp] theorem putMix_padded : (putMix s m r).padded = s.padded := rfl
@[simp] theorem putMix_opl : (putMix s m r).opl = s.opl := rfl
@[simp] theorem putMix_begun : (putMix s m r).begun = s.begun := rfl
@[simp] theorem putMix_rnd : (putMix s m r).rnd = r := rfl
@[simp] theorem putMix_sum : (putMix s m r).sum = m.sum := rfl
@[simp] theorem putMix_buf : (putMix s m r).buf = s.buf := rfl
@[simp] theorem putMix_agenda : (putMix s m r).agenda = s.agenda := rfl
@[simp] theorem putMix_reads : (putMix s m r).reads = s.reads := rfl
@[simp] theorem keyWords_putMix : keyWords (putMix s m r) = keyWords s := rfl
@[simp] theorem blockWords_putMix : blockWords (putMix s m r) = m.block := rfl
@[simp] theorem keyOperand_putMix : keyOperand (putMix s m r) = keyOperand s := rfl

/-- Once the rounds have written `V`, both its words hold a value. -/
theorem blockHeld_putMix : BlockHeld (putMix s m r) := ⟨rfl, rfl⟩

/-! ### The words of the registers under the updates around a command -/

@[simp] theorem keyWords_accept (w : Word) : keyWords (accept s w) = keyWords s := rfl
@[simp] theorem keyWords_startCommand : keyWords (startCommand s) = keyWords s := rfl
@[simp] theorem keyWords_complete : keyWords (complete s) = keyWords s := rfl
@[simp] theorem keyWords_setAgenda (ms : List Move) : keyWords (setAgenda s ms) = keyWords s := rfl
@[simp] theorem keyWords_setMix (x : Word) : keyWords (setMix s x r) = keyWords s := rfl
@[simp] theorem keyWords_setBuf (b : Memory) : keyWords (setBuf s b) = keyWords s := rfl
@[simp] theorem blockWords_accept (w : Word) : blockWords (accept s w) = blockWords s := rfl
@[simp] theorem blockWords_startCommand : blockWords (startCommand s) = blockWords s := rfl
@[simp] theorem blockWords_complete : blockWords (complete s) = blockWords s := rfl
@[simp] theorem blockWords_setAgenda (ms : List Move) : blockWords (setAgenda s ms) = blockWords s := rfl
@[simp] theorem blockWords_setMix (x : Word) : blockWords (setMix s x r) = blockWords s := rfl
@[simp] theorem blockWords_setBlock (v0 v1 : Word) : blockWords (setBlock s v0 v1) = { v0 := v0, v1 := v1 } := rfl
@[simp] theorem blockWords_setBuf (b : Memory) : blockWords (setBuf s b) = blockWords s := rfl

variable {s}

/-- Held words put back in place are the registers themselves. -/
theorem written_blockWords (h : BlockHeld s) :
    #v[Reg.written (blockWords s).v0, Reg.written (blockWords s).v1] = s.v := by
  obtain ⟨h0, h1⟩ := h
  apply Vector.ext
  intro i hi
  rcases i with _ | _ | i
  · exact (Reg.eq_written h0).symm
  · exact (Reg.eq_written h1).symm
  · omega

/-! ### The operations of ENC and DEC on held operands -/

theorem encRoundStep_held (hk : KeyHeld s) (hv : BlockHeld s) : encRoundStep s =
    .next (putMix s (encRound (keyWords s) { sum := s.sum, block := blockWords s }) (s.rnd + 1)) := by
  simp [encRoundStep, cipherOperands_held hk hv]

theorem decRoundStep_held (hk : KeyHeld s) (hv : BlockHeld s) : decRoundStep s =
    .next (putMix s (decRound (keyWords s) { sum := s.sum, block := blockWords s }) (s.rnd + 1)) := by
  simp [decRoundStep, cipherOperands_held hk hv]

theorem encEffect_held (hk : KeyHeld s) (hv : BlockHeld s) :
    encEffect s = .next (putMix s (encMix (blockWords s) (keyWords s)) 32) := by
  simp [encEffect, cipherOperands_held hk hv]

theorem decEffect_held (hk : KeyHeld s) (hv : BlockHeld s) :
    decEffect s = .next (putMix s (decMix (blockWords s) (keyWords s)) 32) := by
  simp [decEffect, cipherOperands_held hk hv]

end Sys2Proof.Machine
end

