-- ==== Sys2Proof/Laws/Engine.lean ====
section
/-! SUPPORT. The ENGINE's steps: which operation each is, and how runs of steps join. -/

namespace Sys2Proof.Machine

/-- An idle ENGINE takes no step. -/
theorem engineStep_idle {s : State} (h : s.busy = false) : engineStep s = .next s := by simp [engineStep, h]

theorem engineStep_first {s : State} {i : Instr} (hb : s.busy = true) (hd : decode s.opl = .command i)
    (h : s.begun = false) : engineStep s = firstStep i (startCommand s) := by
  simp [engineStep, hb, hd, h]

theorem engineStep_later {s : State} {i : Instr} (hb : s.busy = true) (hd : decode s.opl = .command i)
    (h : s.begun = true) : engineStep s = laterStep i s := by
  simp [engineStep, hb, hd, h]

theorem laterStep_enc_round {s : State} (h : s.rnd.toNat < rounds) : laterStep .enc s = encRoundStep s := if_pos h

theorem laterStep_dec_round {s : State} (h : s.rnd.toNat < rounds) : laterStep .dec s = decRoundStep s := if_pos h

theorem laterStep_enc_finish {s : State} (h : ¬ s.rnd.toNat < rounds) : laterStep .enc s = .next (complete s) :=
  if_neg h

theorem laterStep_dec_finish {s : State} (h : ¬ s.rnd.toNat < rounds) : laterStep .dec s = .next (complete s) :=
  if_neg h

/-- A command without rounds only completes once it has started. -/
theorem laterStep_effect {i : Instr} (s : State) (he : i ≠ .enc) (hd : i ≠ .dec) : laterStep i s = .next (complete s) := by
  cases i with
  | enc => exact absurd rfl he
  | dec => exact absurd rfl hd
  | nop => rfl
  | pclr => rfl
  | pushb imm8 => rfl
  | pfin => rfl
  | ldblk idx => rfl
  | stblk idx => rfl

/-- A command without rounds is its one effect step, between acceptance and completion. -/
theorem exec_eq_perform {i : Instr} (s : State) (he : i ≠ .enc) (hd : i ≠ .dec) :
    exec i s = perform i (precondition i s) (firstStep i) s := by
  cases i with
  | enc => exact absurd rfl he
  | dec => exact absurd rfl hd
  | nop => rfl
  | pclr => rfl
  | pushb imm8 => rfl
  | pfin => rfl
  | ldblk idx => rfl
  | stblk idx => rfl

theorem engineRun_add (a b : Nat) (s : State) : engineRun (a + b) s = andThen (engineRun a s) (engineRun b) := by
  induction a generalizing s with
  | zero => simp [engineRun]
  | succ a ih =>
    rw [Nat.succ_add, engineRun, engineRun]
    cases engineStep s <;> simp [ih]

theorem engineRun_one (s : State) : engineRun 1 s = engineStep s := by
  simp only [engineRun]
  cases engineStep s <;> rfl

end Sys2Proof.Machine
end

