-- ==== Sys2Proof/Laws/Step.lean ====
section
/-! SUPPORT. What one step does with each move, and how runs of steps join. -/

namespace Sys2Proof.Machine

variable {s : State} {rest : List Move}

theorem step_empty (h : s.agenda = []) : step s = engineStep s := by simp [step, h]

theorem step_move {m : Move} (h : s.agenda = m :: rest) : step s = runMove m (setAgenda s rest) := by simp [step, h]

/-- A whole command written to an idle block runs the decoded command. -/
theorem wholeCommand_idle {w : Word} {i : Instr} (hb : s.busy = false) (hd : decode w = .command i) :
    wholeCommand w s = exec i s := by simp [wholeCommand, hb, hd]

theorem waitStep_idle (hb : s.busy = false) : waitStep s = .next (logRead s (statusWord s)) := by simp [waitStep, hb]

theorem waitStep_busy (hb : s.busy = true) : waitStep s =
    andThen (engineStep (logRead s (statusWord s))) (fun t => .next (setAgenda t (.wait :: t.agenda))) := by
  simp [waitStep, hb]

/-! ### Runs -/

theorem steps_one (s : State) : steps 1 s = step s := by
  simp only [steps]
  cases step s <;> rfl

theorem steps_add (m n : Nat) (s : State) : steps (m + n) s = andThen (steps m s) (steps n) := by
  induction m generalizing s with
  | zero => simp [steps]
  | succ m ih =>
    rw [Nat.succ_add, steps, steps]
    cases step s <;> simp [ih]

/-- The host's run of this machine is `steps`. -/
theorem run_eq_steps (n : Nat) (s : State) : Host.Core.run Sys2Proof.core n s = steps n s := by
  have succ : ∀ (M : Host.Core) (n : Nat) (s : M.State), M.run (n + 1) s =
      Host.Outcome.casesOn (motive := fun _ => Host.Outcome M.State M.Fault M.Refusal) (M.step s)
        (fun t => M.run n t) (fun r => .fault r) (fun r => .refused r) := by
    intro M n s
    simp only [Host.Core.run]
    cases M.step s <;> rfl
  induction n generalizing s with
  | zero => rfl
  | succ n ih =>
    refine (succ Sys2Proof.core n s).trans ?_
    show Host.Outcome.casesOn (motive := fun _ => Result) (step s) _ _ _ = andThen (step s) (steps n)
    cases step s with
    | next t => exact ih t
    | fault r => rfl
    | refused r => rfl

/-! ### STATUS -/

/-- `STATUS` as a number (10_state.md R32). -/
theorem statusWord_toNat (s : State) :
    (statusWord s).toNat = s.busy.toNat + 2 * s.done.toNat + 4 * s.padded.toNat := by
  unfold statusWord
  cases s.busy <;> cases s.done <;> cases s.padded <;> rfl

/-- Bit 0 of `STATUS` is `BUSY` (10_state.md R27). -/
theorem statusWord_bit0 (s : State) : (statusWord s).getLsbD 0 = s.busy := by
  unfold statusWord
  cases s.busy <;> cases s.done <;> cases s.padded <;> rfl

end Sys2Proof.Machine
end

