-- ==== Sys2Proof/Laws/Bus.lean ====
section
/-! SUPPORT. The register window: where each register lies, and everything one bus transaction can do. -/

namespace Sys2Proof.Machine

/-! ### Offsets (10_state.md R36) -/

@[simp] theorem windowReg_k (i : Fin 4) : windowReg (0x20 + 4 * i.val) = .data (.k i) := by
  revert i; decide

@[simp] theorem windowReg_v (i : Fin 2) : windowReg (0x30 + 4 * i.val) = .data (.v i) := by
  revert i; decide

/-- `K[i]` lies at `0x20 + 4 * i` and nowhere else. -/
theorem windowReg_eq_k {off : Nat} {i : Fin 4} (h : windowReg off = .data (.k i)) : off = 0x20 + 4 * i.val := by
  unfold windowReg at h
  split at h <;> (cases h; try rfl)

/-- `V[i]` lies at `0x30 + 4 * i` and nowhere else. -/
theorem windowReg_eq_v {off : Nat} {i : Fin 2} (h : windowReg off = .data (.v i)) : off = 0x30 + 4 * i.val := by
  unfold windowReg at h
  split at h <;> (cases h; try rfl)

theorem windowReg_eq_cmd {off : Nat} (h : windowReg off = .cmd) : off = 0x00 := by
  unfold windowReg at h
  split at h <;> (cases h; try rfl)

theorem windowReg_eq_status {off : Nat} (h : windowReg off = .status) : off = 0x04 := by
  unfold windowReg at h
  split at h <;> (cases h; try rfl)

theorem windowReg_eq_maxlen {off : Nat} (h : windowReg off = .maxlen) : off = 0x08 := by
  unfold windowReg at h
  split at h <;> (cases h; try rfl)

/-! ### Transactions -/

theorem validAccess_iff (off : Nat) (width : AccessWidth) :
    validAccess off width = true ↔ width = .word ∧ off % 4 = 0 ∧ off ≤ 0x3C := decide_eq_true_iff

theorem busStep_read_invalid {s : State} {off : Nat} {width : AccessWidth} (h : validAccess off width = false) :
    busStep (.read off width) s = .fault (.cvBusacc off width) := by simp [busStep, h]

theorem busStep_write_invalid {s : State} {off : Nat} {width : AccessWidth} {w : Word}
    (h : validAccess off width = false) : busStep (.write off width w) s = .fault (.cvBusacc off width) := by
  simp [busStep, h]

theorem busStep_read_busy {s : State} {off : Nat} {width : AccessWidth} (hv : validAccess off width = true)
    (hb : s.busy = true) (h : windowReg off ≠ .status) : busStep (.read off width) s = .fault (.cvBusy off .read) := by
  simp [busStep, hv, hb, h]

theorem busStep_write_busy {s : State} {off : Nat} {width : AccessWidth} {w : Word} (hv : validAccess off width = true)
    (hb : s.busy = true) : busStep (.write off width w) s = .fault (.cvBusy off .write) := by simp [busStep, hv, hb]

/-- A read while idle, or of STATUS at any time. -/
theorem busStep_read_allowed {s : State} {off : Nat} {width : AccessWidth} (hv : validAccess off width = true)
    (h : s.busy = false ∨ windowReg off = .status) : busStep (.read off width) s =
      match readWindow s (windowReg off) with
      | .error f => .fault f
      | .ok w => .next (logRead s w) := by
  have : ¬ (s.busy = true ∧ windowReg off ≠ .status) := by
    rintro ⟨hb, hn⟩
    rcases h with h | h
    · rw [h] at hb; cases hb
    · exact hn h
  exact (if_pos hv).trans (if_neg this)

theorem busStep_write_idle {s : State} {off : Nat} {width : AccessWidth} {w : Word} (hv : validAccess off width = true)
    (hb : s.busy = false) : busStep (.write off width w) s = writeWindow s (windowReg off) w := by
  simp [busStep, hv, hb]

/-- Everything a read that answers a next state can do: it logs one word. -/
theorem busStep_read_next {s t : State} {off : Nat} {width : AccessWidth} (h : busStep (.read off width) s = .next t) :
    validAccess off width = true ∧ (s.busy = false ∨ windowReg off = .status) ∧
      ∃ w, readWindow s (windowReg off) = .ok w ∧ t = logRead s w := by
  simp only [busStep] at h
  split at h
  · next hv =>
    split at h
    · cases h
    · next hn =>
      refine ⟨hv, ?_, ?_⟩
      · by_cases hb : s.busy = true
        · exact .inr (by by_contra hc; exact hn ⟨hb, hc⟩)
        · exact .inl (by simpa using hb)
      · split at h
        · cases h
        · next w hw => cases h; exact ⟨w, hw, rfl⟩
  · cases h

/-- Everything a write that answers a next state can do. -/
theorem busStep_write_next {s t : State} {off : Nat} {width : AccessWidth} {w : Word}
    (h : busStep (.write off width w) s = .next t) :
    validAccess off width = true ∧ s.busy = false ∧
      ((windowReg off = .cmd ∧ (∃ i, decode w = .command i ∧ precondition i s = none) ∧ t = accept s w) ∨
       (windowReg off = .maxlen ∧ s.inlen = 0 ∧ s.padded = false ∧ t = setMaxlen s w) ∨
       (∃ r, windowReg off = .data r ∧ t = setData s r w) ∨
       ((windowReg off = .status ∨ windowReg off = .inlen ∨ windowReg off = .padlen ∨ windowReg off = .reserved) ∧
         t = s)) := by
  simp only [busStep] at h
  split at h
  · next hv =>
    split at h
    · cases h
    · next hb =>
      refine ⟨hv, by simpa using hb, ?_⟩
      generalize windowReg off = r at h
      cases r with
      | cmd =>
        simp only [writeWindow, issue] at h
        split at h
        · cases h
        · next i hd =>
          split at h
          · cases h
          · next hp => cases h; exact .inl ⟨rfl, ⟨i, hd, hp⟩, rfl⟩
      | status => cases h; exact .inr (.inr (.inr ⟨.inl rfl, rfl⟩))
      | maxlen =>
        simp only [writeWindow, writeMaxlen] at h
        split at h
        · next hm => cases h; exact .inr (.inl ⟨rfl, hm.1, hm.2, rfl⟩)
        · cases h
      | inlen => cases h; exact .inr (.inr (.inr ⟨.inr (.inl rfl), rfl⟩))
      | padlen => cases h; exact .inr (.inr (.inr ⟨.inr (.inr (.inl rfl)), rfl⟩))
      | data r => cases h; exact .inr (.inr (.inl ⟨r, rfl, rfl⟩))
      | reserved => cases h; exact .inr (.inr (.inr ⟨.inr (.inr (.inr rfl)), rfl⟩))
  · cases h

end Sys2Proof.Machine
end

