-- ==== Sys2Proof/Laws/Decode.lean ====
section
/-! SUPPORT. The fields of a command word as numbers, and of a word put together from its fields. -/

namespace Sys2Proof

theorem fieldOP_toNat (w : Word) : (fieldOP w).toNat = w.toNat % 16 := by
  simp [fieldOP]

theorem fieldZ0_toNat (w : Word) : (fieldZ0 w).toNat = w.toNat / 2 ^ 4 % 16 := by
  simp [fieldZ0, Nat.shiftRight_eq_div_pow]

theorem fieldARG_toNat (w : Word) : (fieldARG w).toNat = w.toNat / 2 ^ 8 % 256 := by
  simp [fieldARG, Nat.shiftRight_eq_div_pow]

theorem fieldZ1_toNat (w : Word) : (fieldZ1 w).toNat = w.toNat / 2 ^ 16 := by
  have := w.isLt
  simp only [fieldZ1, BitVec.extractLsb'_toNat, Nat.shiftRight_eq_div_pow]
  omega

theorem wordOf_toNat (arg : Byte) (op : BitVec 4) : (wordOf arg op).toNat = 256 * arg.toNat + op.toNat := by
  have e : ∀ a b : Nat, b < 16 → a <<< 4 ||| b = 16 * a + b := fun a b hb => by
    rw [Nat.shiftLeft_eq, Nat.mul_comm]; exact (Nat.two_pow_add_eq_or_of_lt (i := 4) hb a).symm
  have h1 : ((0 : BitVec 16) ++ arg).toNat = arg.toNat := by rw [BitVec.toNat_append]; simp
  have h2 : ((0 : BitVec 16) ++ arg ++ (0 : BitVec 4)).toNat = 16 * arg.toNat := by
    rw [BitVec.toNat_append, h1, e _ _ (0 : BitVec 4).isLt]; simp
  have h3 := BitVec.toNat_append ((0 : BitVec 16) ++ arg ++ (0 : BitVec 4)) op
  rw [h2, e _ _ op.isLt] at h3
  refine h3.trans ?_
  omega

@[simp] theorem fieldOP_wordOf (arg : Byte) (op : BitVec 4) : fieldOP (wordOf arg op) = op := by
  apply BitVec.eq_of_toNat_eq
  have := op.isLt
  rw [fieldOP_toNat, wordOf_toNat]; omega

@[simp] theorem fieldZ0_wordOf (arg : Byte) (op : BitVec 4) : fieldZ0 (wordOf arg op) = 0 := by
  apply BitVec.eq_of_toNat_eq
  have := op.isLt
  rw [fieldZ0_toNat, wordOf_toNat]; simp; omega

@[simp] theorem fieldARG_wordOf (arg : Byte) (op : BitVec 4) : fieldARG (wordOf arg op) = arg := by
  apply BitVec.eq_of_toNat_eq
  have := op.isLt
  have := arg.isLt
  rw [fieldARG_toNat, wordOf_toNat]; omega

@[simp] theorem fieldZ1_wordOf (arg : Byte) (op : BitVec 4) : fieldZ1 (wordOf arg op) = 0 := by
  apply BitVec.eq_of_toNat_eq
  have := op.isLt
  have := arg.isLt
  rw [fieldZ1_toNat, wordOf_toNat]; simp; omega

/-- A word with zero `Z1` and `Z0` is the word of its other two fields. -/
theorem wordOf_fields {w : Word} (h1 : fieldZ1 w = 0) (h0 : fieldZ0 w = 0) : wordOf (fieldARG w) (fieldOP w) = w := by
  apply BitVec.eq_of_toNat_eq
  have h1 := congrArg BitVec.toNat h1
  have h0 := congrArg BitVec.toNat h0
  rw [fieldZ1_toNat] at h1
  rw [fieldZ0_toNat] at h0
  rw [wordOf_toNat, fieldARG_toNat, fieldOP_toNat]
  simp at h1 h0
  omega

end Sys2Proof
end

