-- ==== Sys2Proof/Laws/Exec.lean ====
section
/-! SUPPORT. Everything a command can do, said once: what its effect answers, where its violations come from, and the
next state it ends in. -/

namespace Sys2Proof.Machine

variable {s t : State}

/-! ### Lengths -/

theorem npad_le (len : Nat) : npad len ≤ 8 := by
  unfold npad
  split
  · omega
  · split <;> omega

theorem npad_le_of_pos {len : Nat} (h : len ≠ 0) : npad len ≤ 7 := by
  unfold npad
  rw [if_neg h]
  split <;> omega

/-- The padded length is the length and the zero bytes after it (10_state.md R40 c, 41_padding.md R150). -/
theorem padlenOf_eq_add_npad (len : Nat) : padlenOf len = len + npad len := by
  unfold padlenOf npad
  split
  · omega
  · split <;> omega

theorem maxLenCap_lt (s : State) : s.cfg.maxLenCap.val < 2041 := s.cfg.maxLenCap.isLt

/-! ### The effects -/

/-- Everything PUSHB's effect can do (41_padding.md R152). -/
theorem pushbEffect_cases (b : Byte) (s : State) :
    (s.inlen < s.maxlen ∧ s.inlen.toNat + 1 ≤ bufBytes s ∧
      pushbEffect b s = .next (setInlen (setBuf s (Memory.insertAll s.buf s.inlen.toNat [b])) (s.inlen + 1))) ∨
    (s.inlen < s.maxlen ∧ bufBytes s < s.inlen.toNat + 1 ∧ pushbEffect b s = .fault (.bufAbsent s.inlen.toNat)) ∨
    (¬ s.inlen < s.maxlen ∧ pushbEffect b s = .next s) := by
  by_cases h : s.inlen < s.maxlen
  · rcases memWrite_cases s s.inlen.toNat [b] with ⟨hin, e⟩ | ⟨hout, e⟩
    · exact .inl ⟨h, hin, by simp [pushbEffect, h, e]⟩
    · exact .inr (.inl ⟨h, hout, by simp [pushbEffect, h, e]⟩)
  · exact .inr (.inr ⟨h, by simp [pushbEffect, h]⟩)

/-- Everything PFIN's effect can do (41_padding.md R153). -/
theorem pfinEffect_cases (s : State) :
    (s.inlen.toNat + npad s.inlen.toNat ≤ bufBytes s ∧
      pfinEffect s = .next (publishPadding
        (setBuf s (Memory.insertAll s.buf s.inlen.toNat (List.replicate (npad s.inlen.toNat) padByte)))
        (BitVec.ofNat 32 (s.inlen.toNat + npad s.inlen.toNat)))) ∨
    (bufBytes s < s.inlen.toNat + npad s.inlen.toNat ∧ pfinEffect s = .fault (.bufAbsent s.inlen.toNat)) := by
  rcases memWrite_cases s s.inlen.toNat (List.replicate (npad s.inlen.toNat) padByte) with ⟨hin, e⟩ | ⟨hout, e⟩
  · exact .inl ⟨by simpa using hin, by simp [pfinEffect, e]⟩
  · exact .inr ⟨by simpa using hout, by simp [pfinEffect, e]⟩

/-- What LDBLK's effect does when it answers a next state (42_converter.md R182). -/
theorem ldblkEffect_next {idx : Nat} (h : ldblkEffect idx s = .next t) :
    ∃ bs : Vector Byte 8, memRead s (blockAddr idx) 8 = .ok bs ∧ t = setBlock s (pack bs).v0 (pack bs).v1 := by
  unfold ldblkEffect at h
  split at h
  · cases h
  · next bs hbs => cases h; exact ⟨bs, hbs, rfl⟩

/-- What STBLK's effect does when it answers a next state (42_converter.md R183). -/
theorem stblkEffect_next {idx : Nat} (h : stblkEffect idx s = .next t) :
    BlockHeld s ∧ blockAddr idx + 8 ≤ bufBytes s ∧
      t = setBuf s (Memory.insertAll s.buf (blockAddr idx) (unpack (blockWords s)).toList) := by
  rcases blockOperand_cases s with ⟨hv, e⟩ | ⟨i, _, e⟩
  · simp only [stblkEffect, e] at h
    obtain ⟨hin, e'⟩ := memWrite_eq_next h
    exact ⟨hv, by simpa using hin, e'⟩
  · simp only [stblkEffect, e] at h
    cases h

/-! ### Violations at the issue of a command -/

/-- What a command's precondition looks at. -/
theorem precondition_congr (i : Instr) (hk : t.k = s.k) (hv : t.v = s.v) (hp : t.padded = s.padded)
    (hl : t.padlen = s.padlen) : precondition i t = precondition i s := by
  cases i <;> simp [precondition, cipherPre, cipherOperands, keyOperand, blockOperand, pushbPre, pfinPre, rangePre,
    stblkPre, hk, hv, hp, hl]

/-- Which violations a command's precondition can raise (43_control.md R201). -/
theorem precondition_kind {i : Instr} {f : Fault} (h : precondition i s = some f) :
    f = .cvSeq (.command i) ∨ (∃ idx, f = .cvRange idx s.padlen) ∨ ∃ r, f = .cvUninit r := by
  have cipher : ∀ f, cipherPre s = some f → ∃ r, f = .cvUninit r := by
    intro f hf
    rcases cipherOperands_cases s with ⟨_, _, e⟩ | ⟨r, _, e⟩ <;> simp [cipherPre, e, violation] at hf
    exact ⟨r, hf.symm⟩
  have range : ∀ idx f, rangePre idx s = some f → ∃ idx, f = .cvRange idx s.padlen := by
    intro idx f hf
    unfold rangePre at hf
    split at hf <;> cases hf
    exact ⟨_, rfl⟩
  cases i with
  | nop => cases h
  | enc => exact .inr (.inr (cipher _ h))
  | dec => exact .inr (.inr (cipher _ h))
  | pclr => cases h
  | pushb b => simp only [precondition, pushbPre] at h; split at h <;> cases h; exact .inl rfl
  | pfin => simp only [precondition, pfinPre] at h; split at h <;> cases h; exact .inl rfl
  | ldblk idx => exact .inr (.inl (range _ _ h))
  | stblk idx =>
    simp only [precondition, stblkPre] at h
    split at h
    · next hf => cases h; exact .inr (.inl (range _ _ hf))
    · rcases blockOperand_cases s with ⟨_, e⟩ | ⟨r, _, e⟩ <;> simp [e, violation] at h
      exact .inr (.inr ⟨_, h.symm⟩)

/-- A command whose precondition fails raises that violation. -/
theorem exec_violation {i : Instr} {f : Fault} (hb : s.busy = false) (h : precondition i s = some f) :
    exec i s = .fault f := by
  cases i <;> simp only [precondition] at h
  all_goals first | (cases h; done) | exact perform_violation hb h

/-- A command completes only from an idle state in which its precondition holds. -/
theorem exec_next_pre {i : Instr} (h : exec i s = .next t) : s.busy = false ∧ precondition i s = none := by
  cases i <;> (unfold exec at h; obtain ⟨hb, hp, -⟩ := perform_next h; exact ⟨hb, hp⟩)

/-! ### The next state of each command -/

theorem execNop_next (h : exec .nop s = .next t) : t = complete (startCommand (accept s (encode .nop))) := by
  obtain ⟨-, -, u, hu, rfl⟩ := perform_next (show execNop s = .next t from h)
  cases hu; rfl

theorem execEnc_next (h : exec .enc s = .next t) : KeyHeld s ∧ BlockHeld s ∧
    t = complete (putMix (startCommand (accept s (encode .enc))) (encMix (blockWords s) (keyWords s)) 32) := by
  obtain ⟨-, hp, u, hu, rfl⟩ := perform_next (show execEnc s = .next t from h)
  obtain ⟨hk, hv⟩ := (cipherPre_eq_none_iff s).1 hp
  rw [encEffect_held (by exact hk) (by exact hv)] at hu
  cases hu
  exact ⟨hk, hv, rfl⟩

theorem execDec_next (h : exec .dec s = .next t) : KeyHeld s ∧ BlockHeld s ∧
    t = complete (putMix (startCommand (accept s (encode .dec))) (decMix (blockWords s) (keyWords s)) 32) := by
  obtain ⟨-, hp, u, hu, rfl⟩ := perform_next (show execDec s = .next t from h)
  obtain ⟨hk, hv⟩ := (cipherPre_eq_none_iff s).1 hp
  rw [decEffect_held (by exact hk) (by exact hv)] at hu
  cases hu
  exact ⟨hk, hv, rfl⟩

theorem execPclr_next (h : exec .pclr s = .next t) :
    t = complete (clearPadding (startCommand (accept s (encode .pclr)))) := by
  obtain ⟨-, -, u, hu, rfl⟩ := perform_next (show execPclr s = .next t from h)
  cases hu; rfl

theorem execPushb_next {b : Byte} (h : exec (.pushb b) s = .next t) : s.padded = false ∧
    ((s.inlen < s.maxlen ∧ s.inlen.toNat + 1 ≤ bufBytes s ∧
      t = complete (setInlen (setBuf (startCommand (accept s (encode (.pushb b))))
        (Memory.insertAll s.buf s.inlen.toNat [b])) (s.inlen + 1))) ∨
    (¬ s.inlen < s.maxlen ∧ t = complete (startCommand (accept s (encode (.pushb b)))))) := by
  obtain ⟨-, hp, u, hu, rfl⟩ := perform_next (show execPushb b s = .next t from h)
  refine ⟨by simpa [pushbPre] using hp, ?_⟩
  rcases pushbEffect_cases b (startCommand (accept s (encode (.pushb b)))) with ⟨hl, hin, e⟩ | ⟨_, _, e⟩ | ⟨hl, e⟩ <;>
    rw [e] at hu <;> cases hu
  · exact .inl ⟨hl, hin, rfl⟩
  · exact .inr ⟨hl, rfl⟩

theorem execPfin_next (h : exec .pfin s = .next t) : s.padded = false ∧
    s.inlen.toNat + npad s.inlen.toNat ≤ bufBytes s ∧
    t = complete (publishPadding (setBuf (startCommand (accept s (encode .pfin)))
      (Memory.insertAll s.buf s.inlen.toNat (List.replicate (npad s.inlen.toNat) padByte)))
      (BitVec.ofNat 32 (s.inlen.toNat + npad s.inlen.toNat))) := by
  obtain ⟨-, hp, u, hu, rfl⟩ := perform_next (show execPfin s = .next t from h)
  rcases pfinEffect_cases (startCommand (accept s (encode .pfin))) with ⟨hin, e⟩ | ⟨_, e⟩ <;> rw [e] at hu <;> cases hu
  exact ⟨by simpa [pfinPre] using hp, hin, rfl⟩

theorem execLdblk_next {idx : Nat} (h : exec (.ldblk idx) s = .next t) :
    (s.padded = true ∧ idx < s.padlen.toNat / 8) ∧ ∃ bs : Vector Byte 8, memRead s (blockAddr idx) 8 = .ok bs ∧
      t = complete (setBlock (startCommand (accept s (encode (.ldblk idx)))) (pack bs).v0 (pack bs).v1) := by
  obtain ⟨-, hp, u, hu, rfl⟩ := perform_next (show execLdblk idx s = .next t from h)
  obtain ⟨bs, hbs, rfl⟩ := ldblkEffect_next hu
  exact ⟨(rangePre_eq_none_iff _ _).1 hp, bs, hbs, rfl⟩

theorem execStblk_next {idx : Nat} (h : exec (.stblk idx) s = .next t) :
    (s.padded = true ∧ idx < s.padlen.toNat / 8) ∧ BlockHeld s ∧ blockAddr idx + 8 ≤ bufBytes s ∧
      t = complete (setBuf (startCommand (accept s (encode (.stblk idx))))
        (Memory.insertAll s.buf (blockAddr idx) (unpack (blockWords s)).toList)) := by
  obtain ⟨-, hp, u, hu, rfl⟩ := perform_next (show execStblk idx s = .next t from h)
  obtain ⟨_, hin, rfl⟩ := stblkEffect_next hu
  obtain ⟨hr, hv⟩ := (stblkPre_eq_none_iff _ _).1 hp
  exact ⟨hr, hv, hin, rfl⟩

end Sys2Proof.Machine
end

