-- ==== Sys2Proof/Laws/Safety.lean ====
section
/-! SUPPORT. What the invariant says in an idle state, and what of the environment it does not look at. -/

namespace Sys2Proof.Machine

variable {s : State}

/-- An idle state is consistent when its buffer and lengths are. -/
theorem Consistent.of_idle (hb : s.busy = false) (hwf : Memory.wf s.buf = true)
    (hin : ∀ c ∈ s.buf, c.1 < bufBytes s) (hlen : s.inlen.toNat ≤ s.maxlen.toNat)
    (hmax : s.maxlen.toNat ≤ s.cfg.maxLenCap.val) (hopen : s.padded = false → s.padlen = 0)
    (hdone : s.padded = true → s.padlen.toNat = padlenOf s.inlen.toNat)
    (hwr : ∀ a, a < max s.inlen.toNat s.padlen.toNat → (Memory.lookup s.buf a).isSome = true)
    (hrnd : s.rnd.toNat ≤ rounds) : Consistent s where
  bufCanonical := hwf
  bufInside := hin
  inlenBound := hlen
  maxlenBound := hmax
  padlenOpen := hopen
  padlenDone := hdone
  written := hwr
  oneOfBusyDone := by simp [hb]
  rndBound := hrnd
  running := by simp [hb]
  encSum := by simp [hb]
  decSum := by simp [hb]

/-- The agenda is no part of the invariant. -/
theorem Consistent.setAgenda (h : Consistent s) (ms : List Move) : Consistent (setAgenda s ms) :=
  ⟨h.1, h.2, h.3, h.4, h.5, h.6, h.7, h.8, h.9, h.10, h.11, h.12⟩

/-- The words read are no part of the invariant. -/
theorem Consistent.logRead (h : Consistent s) (w : Word) : Consistent (logRead s w) :=
  ⟨h.1, h.2, h.3, h.4, h.5, h.6, h.7, h.8, h.9, h.10, h.11, h.12⟩

/-- A block in range lies inside the finished buffer, and that inside `BUF` (42_converter.md R185). -/
theorem Consistent.block_inside (h : Consistent s) (hp : s.padded = true) {idx : Nat} (hi : idx < s.padlen.toNat / 8) :
    8 * idx + 8 ≤ s.padlen.toNat ∧ s.padlen.toNat ≤ bufBytes s := by
  have := h.padlenDone hp
  have := h.inlenBound
  have := h.maxlenBound
  have := npad_le s.inlen.toNat
  have := padlenOf_eq_add_npad s.inlen.toNat
  exact ⟨by omega, by unfold bufBytes; omega⟩

/-- A block in range can be read (42_converter.md R185). -/
theorem Consistent.block_readable (h : Consistent s) (hp : s.padded = true) {idx : Nat}
    (hi : idx < s.padlen.toNat / 8) : ∃ bs : Vector Byte 8, memRead s (blockAddr idx) 8 = .ok bs := by
  obtain ⟨h1, h2⟩ := h.block_inside hp hi
  unfold blockAddr
  exact memRead_written (by omega) fun j hj => h.written _ (by omega)

end Sys2Proof.Machine
end

