-- ==== Sys2Proof/Laws/Environment.lean ====
section
/-! SUPPORT. The block does not look at its environment's lists; what a command line and the end of a run do. -/

namespace Sys2Proof.Machine

variable {s t : State} {rest : List Move}

/-- A state in another environment: other moves to come and other words read. -/
def withEnv (s : State) (ms : List Move) (ws : List Word) : State := { s with agenda := ms, reads := ws }

/-- The environment is no part of the invariant. -/
theorem Consistent.withEnv (h : Consistent s) (ms : List Move) (ws : List Word) : Consistent (withEnv s ms ws) :=
  ⟨h.1, h.2, h.3, h.4, h.5, h.6, h.7, h.8, h.9, h.10, h.11, h.12⟩

theorem withEnv_self (s : State) : withEnv s s.agenda s.reads = s := rfl

@[simp] theorem withEnv_agenda (s : State) (ms : List Move) (ws : List Word) : (withEnv s ms ws).agenda = ms := rfl
@[simp] theorem withEnv_reads (s : State) (ms : List Move) (ws : List Word) : (withEnv s ms ws).reads = ws := rfl
@[simp] theorem withEnv_busy (s : State) (ms : List Move) (ws : List Word) : (withEnv s ms ws).busy = s.busy := rfl
@[simp] theorem withEnv_withEnv (s : State) (ms ms' : List Move) (ws ws' : List Word) :
    withEnv (withEnv s ms ws) ms' ws' = withEnv s ms' ws' := rfl
theorem setAgenda_eq_withEnv (s : State) (ms : List Move) : setAgenda s ms = withEnv s ms s.reads := rfl
theorem logRead_eq_withEnv (s : State) (w : Word) : logRead s w = withEnv s s.agenda (s.reads ++ [w]) := rfl

/-- A result in another environment. -/
def resultWithEnv (o : Result) (ms : List Move) (ws : List Word) : Result := andThen o (fun t => .next (withEnv t ms ws))

theorem resultWithEnv_next (t : State) (ms : List Move) (ws : List Word) :
    resultWithEnv (.next t) ms ws = .next (withEnv t ms ws) := rfl

/-! ### The block's operations in another environment -/

@[simp] theorem cipherOperands_withEnv (s : State) (ms : List Move) (ws : List Word) :
    cipherOperands (withEnv s ms ws) = cipherOperands s := rfl

theorem firstStep_withEnv (i : Instr) (s : State) (ms : List Move) (ws : List Word) :
    firstStep i (withEnv s ms ws) = resultWithEnv (firstStep i s) ms ws := by
  have write : ∀ (a : Nat) (bs : List Byte), memWrite (withEnv s ms ws) a bs = resultWithEnv (memWrite s a bs) ms ws := by
    intro a bs
    show (if a + bs.length ≤ bufBytes s then _ else _) = resultWithEnv (if a + bs.length ≤ bufBytes s then _ else _) ms ws
    split <;> rfl
  cases i with
  | nop => rfl
  | enc => rfl
  | dec => rfl
  | pclr => rfl
  | pushb b =>
    simp only [firstStep, pushbEffect]
    show (if s.inlen < s.maxlen then andThen (memWrite (withEnv s ms ws) s.inlen.toNat [b]) _ else _) = _
    rw [write]
    split
    · cases memWrite s s.inlen.toNat [b] <;> rfl
    · rfl
  | pfin =>
    have hlen : (withEnv s ms ws).inlen = s.inlen := rfl
    simp only [firstStep, pfinEffect, write, hlen]
    cases memWrite s s.inlen.toNat (List.replicate (npad s.inlen.toNat) padByte) <;> rfl
  | ldblk idx =>
    simp only [firstStep, ldblkEffect]
    show (match memRead s (blockAddr idx) 8 with | .error f => _ | .ok bs => _) = _
    cases memRead s (blockAddr idx) 8 <;> rfl
  | stblk idx =>
    simp only [firstStep, stblkEffect, write]
    show (match blockOperand s with | .error f => _ | .ok v => _) = _
    cases blockOperand s <;> rfl

theorem laterStep_withEnv (i : Instr) (s : State) (ms : List Move) (ws : List Word) :
    laterStep i (withEnv s ms ws) = resultWithEnv (laterStep i s) ms ws := by
  have enc : encRoundStep (withEnv s ms ws) = resultWithEnv (encRoundStep s) ms ws := by
    unfold encRoundStep
    rw [cipherOperands_withEnv]
    cases cipherOperands s <;> rfl
  have dec : decRoundStep (withEnv s ms ws) = resultWithEnv (decRoundStep s) ms ws := by
    unfold decRoundStep
    rw [cipherOperands_withEnv]
    cases cipherOperands s <;> rfl
  cases i with
  | enc =>
    show (if s.rnd.toNat < rounds then encRoundStep (withEnv s ms ws) else _) = _
    rw [enc, laterStep]
    split <;> rfl
  | dec =>
    show (if s.rnd.toNat < rounds then decRoundStep (withEnv s ms ws) else _) = _
    rw [dec, laterStep]
    split <;> rfl
  | nop => rfl
  | pclr => rfl
  | pushb b => rfl
  | pfin => rfl
  | ldblk idx => rfl
  | stblk idx => rfl

/-- The ENGINE does not look at the environment. -/
theorem engineStep_withEnv (s : State) (ms : List Move) (ws : List Word) :
    engineStep (withEnv s ms ws) = resultWithEnv (engineStep s) ms ws := by
  have first : ∀ i, firstStep i (startCommand (withEnv s ms ws)) = resultWithEnv (firstStep i (startCommand s)) ms ws :=
    fun i => firstStep_withEnv i (startCommand s) ms ws
  have hb : (withEnv s ms ws).busy = s.busy := rfl
  have ho : (withEnv s ms ws).opl = s.opl := rfl
  have hg : (withEnv s ms ws).begun = s.begun := rfl
  unfold engineStep
  rw [hb, ho, hg]
  split
  · cases decode s.opl with
    | illegal why => rfl
    | command i =>
      simp only [first, laterStep_withEnv]
      split <;> rfl
  · rfl

/-- A whole command does not look at the environment. -/
theorem exec_withEnv (i : Instr) (s : State) (ms : List Move) (ws : List Word) :
    exec i (withEnv s ms ws) = resultWithEnv (exec i s) ms ws := by
  have whole : ∀ (pre : State → Option Fault) (effect : State → Result),
      (pre (withEnv s ms ws) = pre s) →
      (∀ u : State, effect (withEnv u ms ws) = resultWithEnv (effect u) ms ws) →
      perform i (pre (withEnv s ms ws)) effect (withEnv s ms ws) = resultWithEnv (perform i (pre s) effect s) ms ws := by
    intro pre effect hp he
    have start : startCommand (accept (withEnv s ms ws) (encode i)) = withEnv (startCommand (accept s (encode i))) ms ws := rfl
    unfold perform
    rw [hp, start, he]
    show (if s.busy then _ else _) = _
    split
    · rfl
    · cases pre s with
      | some f => rfl
      | none => simp only; cases effect (startCommand (accept s (encode i))) <;> rfl
  cases i with
  | nop => exact whole (fun _ => none) nopEffect rfl fun _ => rfl
  | enc =>
    refine whole cipherPre encEffect rfl fun u => ?_
    unfold encEffect
    rw [cipherOperands_withEnv]
    cases cipherOperands u <;> rfl
  | dec =>
    refine whole cipherPre decEffect rfl fun u => ?_
    unfold decEffect
    rw [cipherOperands_withEnv]
    cases cipherOperands u <;> rfl
  | pclr => exact whole (fun _ => none) pclrEffect rfl fun _ => rfl
  | pushb b => exact whole (pushbPre b) (pushbEffect b) rfl fun u => firstStep_withEnv (.pushb b) u ms ws
  | pfin => exact whole pfinPre pfinEffect rfl fun u => firstStep_withEnv .pfin u ms ws
  | ldblk idx => exact whole (rangePre idx) (ldblkEffect idx) rfl fun u => firstStep_withEnv (.ldblk idx) u ms ws
  | stblk idx => exact whole (stblkPre idx) (stblkEffect idx) rfl fun u => firstStep_withEnv (.stblk idx) u ms ws

/-! ### WAIT and command lines -/

/-- WAIT of an idle block is one STATUS read. -/
theorem step_wait_idle (h : s.agenda = .wait :: rest) (hb : s.busy = false) :
    step s = .next (withEnv s rest (s.reads ++ [statusWord s])) := by
  rw [step_move h]
  exact waitStep_idle (by exact hb)

/-- WAIT of a busy block is one STATUS read and one ENGINE step, and then waits on. -/
theorem step_wait_busy (h : s.agenda = .wait :: rest) (hb : s.busy = true) :
    step s = resultWithEnv (engineStep s) (.wait :: rest) (s.reads ++ [statusWord s]) := by
  have hl : logRead (setAgenda s rest) (statusWord (setAgenda s rest)) = withEnv s rest (s.reads ++ [statusWord s]) := rfl
  rw [step_move h]
  show waitStep (setAgenda s rest) = _
  rw [waitStep_busy (by exact hb), hl, engineStep_withEnv]
  cases engineStep s <;> rfl

/-- A whole command of a command line: the command's effect, the WAIT being still to come. -/
theorem step_cmdLine {i : Instr} (h : s.agenda = cmdLine i ++ rest) (hb : s.busy = false)
    (hd : decode (encode i) = .command i) :
    step s = resultWithEnv (exec i s) (.wait :: rest) s.reads := by
  rw [step_move (m := .command (encode i)) (rest := .wait :: rest) h]
  show wholeCommand (encode i) (setAgenda s (.wait :: rest)) = _
  rw [wholeCommand_idle (by exact hb) hd, setAgenda_eq_withEnv, exec_withEnv]

/-- A command leaves the environment's lists as they are. -/
theorem exec_env {i : Instr} (h : exec i s = .next t) : t.agenda = s.agenda ∧ t.reads = s.reads := by
  have e := exec_withEnv i s s.agenda s.reads
  rw [withEnv_self, h, resultWithEnv_next] at e
  injection e with e
  rw [e]
  exact ⟨rfl, rfl⟩

/-- A command leaves an idle block. -/
theorem exec_idle {i : Instr} (h : exec i s = .next t) : t.busy = false := by
  cases i <;> (unfold exec at h; obtain ⟨-, -, u, -, rfl⟩ := perform_next h; rfl)

/-- A command line of an idle block, in two steps: the command, then one STATUS read. -/
theorem steps_cmdLine {i : Instr} (h : s.agenda = cmdLine i ++ rest) (hd : decode (encode i) = .command i)
    (he : exec i s = .next t) :
    steps 2 s = .next (withEnv t rest (s.reads ++ [statusWord t])) := by
  have hb := (exec_next_pre he).1
  have hidle := exec_idle he
  rw [steps, step_cmdLine h hb hd, he, resultWithEnv_next]
  simp only [andThen_next]
  rw [steps_one]
  exact step_wait_idle (s := withEnv t (.wait :: rest) s.reads) rfl hidle

/-! ### The end of a run -/

@[simp] theorem observe_k (s : State) (i : Fin 4) : (observe s).k[i] = s.k[i].value := by fin_cases i <;> rfl
@[simp] theorem observe_v (s : State) (i : Fin 2) : (observe s).v[i] = s.v[i].value := by fin_cases i <;> rfl

theorem Reg.value_held (r : Reg) (h : r.held = true) : r.value = some r.word := if_pos h
theorem Reg.value_blank (r : Reg) (h : r.held = false) : r.value = none := by simp [Reg.value, h]

/-- `BUF[0 .. PADLEN-1]` in the result of a run. -/
theorem observe_bytes {a : Nat} (h : a < s.padlen.toNat) : (observe s).bytes[a]? = some (Memory.lookup s.buf a) := by
  simp [observe, h]

theorem runOver_iff : runOver s = true ↔ s.agenda = [] ∧ s.busy = false := by simp [runOver]

/-- A run that is over stays where it is. -/
theorem step_of_runOver (h : runOver s = true) : step s = .next s := by
  obtain ⟨ha, hb⟩ := runOver_iff.1 h
  rw [step_empty ha, engineStep_idle hb]

theorem steps_of_runOver (h : runOver s = true) (n : Nat) : steps n s = .next s := by
  induction n with
  | zero => rfl
  | succ n ih => rw [steps, step_of_runOver h]; exact ih

end Sys2Proof.Machine
end

