-- ==== Sys2Proof/Laws/PerInstr.lean ====
section
/-! SUPPORT. Families of facts about the commands as syntax, one lemma per constructor. -/

namespace Sys2Proof.Laws.MustBeZero

/-- The fields of a command's word that must be 0 are 0: `Z1` and `Z0` of every command, `ARG` of a command without an
operand (30_encoding.md R91 to R94). -/
def Statement (i : Instr) : Prop :=
  fieldZ1 (encode i) = 0 ∧ fieldZ0 (encode i) = 0 ∧
    match i with
    | .nop => fieldARG (encode i) = 0
    | .enc => fieldARG (encode i) = 0
    | .dec => fieldARG (encode i) = 0
    | .pclr => fieldARG (encode i) = 0
    | .pushb imm8 => fieldARG (encode i) = imm8
    | .pfin => fieldARG (encode i) = 0
    | .ldblk idx => i.WellFormed → (fieldARG (encode i)).toNat = idx
    | .stblk idx => i.WellFormed → (fieldARG (encode i)).toNat = idx

theorem nop : Statement .nop := by simp [Statement, encode]
theorem enc : Statement .enc := by simp [Statement, encode]
theorem dec : Statement .dec := by simp [Statement, encode]
theorem pclr : Statement .pclr := by simp [Statement, encode]
theorem pushb (imm8 : Byte) : Statement (.pushb imm8) := by simp [Statement, encode]
theorem pfin : Statement .pfin := by simp [Statement, encode]

theorem ldblk (idx : Nat) : Statement (.ldblk idx) := by
  simp only [Statement, encode, fieldZ1_wordOf, fieldZ0_wordOf, fieldARG_wordOf, Instr.WellFormed, Instr.wellFormed,
    decide_eq_true_eq, BitVec.toNat_ofNat, true_and]
  omega

theorem stblk (idx : Nat) : Statement (.stblk idx) := by
  simp only [Statement, encode, fieldZ1_wordOf, fieldZ0_wordOf, fieldARG_wordOf, Instr.WellFormed, Instr.wellFormed,
    decide_eq_true_eq, BitVec.toNat_ofNat, true_and]
  omega

end Sys2Proof.Laws.MustBeZero
end

