-- ==== Sys2Proof/Tests/Slice0.lean ====
section
/-! SUPPORT. Tests against the spec's own examples (95_test_vectors.md, by their ids), and states that meet the hypotheses
of the statements. -/

open Sys2Proof Sys2Proof.Machine

namespace Sys2Proof.Tests

/-! ### Small states -/

/-- One field of the next state. -/
def after {α : Type} (o : Result) (f : State → α) : Option α :=
  match o with
  | .next s => some (f s)
  | .fault _ => none
  | .refused _ => none

/-- The fault a step stops with. -/
def stop (o : Result) : Option Fault :=
  match o with
  | .next _ => none
  | .fault f => some f
  | .refused _ => none

/-- The key `K1` of 95_test_vectors.md. -/
def key1 : Key := ⟨0x12345678, 0x9ABCDEF0, 0xFEDCBA98, 0x76543210⟩

def withKey (s : State) (k : Key) : State := setK (setK (setK (setK s 0 k.k0) 1 k.k1) 2 k.k2) 3 k.k3

def withBlock (s : State) (v : Block) : State := setBlock s v.v0 v.v1

/-- "Texto" pushed (T21), before PFIN. -/
def texto : State := setInlen (setBuf .reset [(0, 0x54), (1, 0x65), (2, 0x78), (3, 0x74), (4, 0x6F)]) 5

/-- "Texto" padded (T21). -/
def textoDone : State :=
  publishPadding (setInlen (setBuf .reset
    [(0, 0x54), (1, 0x65), (2, 0x78), (3, 0x74), (4, 0x6F), (5, 0), (6, 0), (7, 0)]) 5) 8

/-- Key and block all zero (T1). -/
def zeros : State := withBlock (withKey .reset ⟨0, 0, 0, 0⟩) ⟨0, 0⟩

/-- ENC started on `zeros`, no round done. -/
def encStarted : State := startCommand (accept zeros 0x00000001)

/-- DEC started on `zeros`, no round done. -/
def decStarted : State := setMix (startCommand (accept zeros 0x00000002)) decSum0 0

/-- The largest parameters, at the bound, with nothing pushed. -/
def widest : State := .resetOf ⟨2040⟩

/-! ### Well-formedness and encoding -/

theorem test_ldblk_256_ill_formed : ¬ (Instr.ldblk 256).WellFormed := by decide
theorem test_stblk_256_ill_formed : ¬ (Instr.stblk 256).WellFormed := by decide
theorem test_ldblk_255_well_formed : (Instr.ldblk 255).WellFormed := by decide

-- T41, each command's word written out
theorem test_decode_nop : decode 0b00000000000000000000000000000000 = .command .nop := by decide
theorem test_decode_enc : decode 0b00000000000000000000000000000001 = .command .enc := by decide
theorem test_decode_dec : decode 0b00000000000000000000000000000010 = .command .dec := by decide
theorem test_decode_pclr : decode 0b00000000000000000000000000000011 = .command .pclr := by decide
theorem test_decode_pushb : decode 0b00000000000000000110111100000100 = .command (.pushb 0x6F) := by decide
theorem test_decode_pfin : decode 0b00000000000000000000000000000101 = .command .pfin := by decide
theorem test_decode_ldblk : decode 0b00000000000000001111111100000110 = .command (.ldblk 255) := by decide
theorem test_decode_stblk : decode 0b00000000000000000001000000000111 = .command (.stblk 16) := by decide

-- T41, every row of the right-hand column
theorem test_decode_reserved :
    decode 0x00000008 = .illegal (.opReserved 8) ∧ decode 0x0000000F = .illegal (.opReserved 15) ∧
    decode 0x00000010 = .illegal (.z0NotZero 1) ∧ decode 0x000000F4 = .illegal (.z0NotZero 15) ∧
    decode 0x00000100 = .illegal (.argNotZero 0 1) ∧ decode 0x00000101 = .illegal (.argNotZero 1 1) ∧
    decode 0x00000102 = .illegal (.argNotZero 2 1) ∧ decode 0x0000FF03 = .illegal (.argNotZero 3 255) ∧
    decode 0x00000105 = .illegal (.argNotZero 5 1) ∧ decode 0x00010004 = .illegal (.z1NotZero 1) ∧
    decode 0x80000001 = .illegal (.z1NotZero 0x8000) ∧ decode 0xFFFFFFFF = .illegal (.z1NotZero 0xFFFF) := by decide

-- T40
theorem test_encode :
    encode .nop = 0x00000000 ∧ encode .enc = 0x00000001 ∧ encode .dec = 0x00000002 ∧ encode .pclr = 0x00000003 ∧
    encode (.pushb 0x54) = 0x00005404 ∧ encode (.pushb 0xFF) = 0x0000FF04 ∧ encode .pfin = 0x00000005 ∧
    encode (.ldblk 4) = 0x00000406 ∧ encode (.stblk 255) = 0x0000FF07 := by decide

theorem test_decodeTableWord : decodeTableWord 32 0x00005404 = some (.pushb 0x54) ∧
    decodeTableWord 32 0x00000008 = none ∧ decodeTableWord 64 0x00000001 = none := by decide

/-! ### The pure functions -/

-- T6
theorem test_primitives :
    add32 0xFFFFFFFF 0x00000001 = 0x00000000 ∧ add32 0x9E3779B9 0x9E3779B9 = 0x3C6EF372 ∧
    sub32 0x00000000 0x00000001 = 0xFFFFFFFF ∧ sub32 0x3C6EF372 0x9E3779B9 = 0x9E3779B9 ∧
    shl4 0xF0000001 = 0x00000010 ∧ shl4 0xFFFFFFFF = 0xFFFFFFF0 ∧
    shr5 0x80000000 = 0x04000000 ∧ shr5 0x0000001F = 0x00000000 ∧
    xor32 0xAAAAAAAA 0x55555555 = 0xFFFFFFFF ∧ xor32 0x255789B8 0xCF69ACED = 0xEA3E2555 := by decide +kernel

-- T6, rows 4, 6, 12 and 13 of the table of F
theorem test_mixing_term :
    mixF 0xFFFFFFFF 0xFFFFFFFF 0xFFFFFFFF 0xFFFFFFFF = 0x07FFFFEF ∧ mixF 0xF0000001 0 0 0 = 0xF7800011 ∧
    mixF 0x31323334 0x9E3779B9 0x12345678 0x9ABCDEF0 = 0x767855DC ∧
    mixF 0x12345678 0xC6EF3720 0xFEDCBA98 0x76543210 = 0x8DE47B43 := by decide +kernel

-- T2, rows 1, 2 and 17 of the table
theorem test_enc_rounds :
    encRounds key1 1 ⟨0, ⟨0x484F4C41, 0x31323334⟩⟩ = ⟨0x9E3779B9, ⟨0xBEC7A21D, 0xFD15DBD2⟩⟩ ∧
    encRounds key1 2 ⟨0, ⟨0x484F4C41, 0x31323334⟩⟩ = ⟨0x3C6EF372, ⟨0x377AF32F, 0x7A87DE52⟩⟩ ∧
    encRounds key1 17 ⟨0, ⟨0x484F4C41, 0x31323334⟩⟩ = ⟨0x81AF1549, ⟨0xBCBD2F1A, 0x6D90D9D4⟩⟩ := by decide +kernel

-- T2, the first round of DEC
theorem test_dec_round :
    decRounds key1 1 ⟨0xC6EF3720, ⟨0xBE91739F, 0xC5B30D30⟩⟩ = ⟨0x28B7BD67, ⟨0x46595C5E, 0xA7772995⟩⟩ := by
  decide +kernel

-- T3, T5 (last line), T11
theorem test_encrypt :
    encrypt ⟨0x414C4F48, 0x34333231⟩ key1 = ⟨0xDA21C31F, 0x5E98B1FD⟩ ∧
    encrypt ⟨0x01234567, 0x89ABCDEF⟩ ⟨0x00112233, 0x44556677, 0x8899AABB, 0xCCDDEEFF⟩ = ⟨0x126C6B92, 0xC0653A3E⟩ ∧
    encrypt ⟨0x484F4C41, 0x31323334⟩ ⟨0x12345679, 0x9ABCDEF0, 0xFEDCBA98, 0x76543210⟩ =
      ⟨0x3251B235, 0xC3FB47E9⟩ := by decide +kernel

-- T9 (lines 8 and 11)
theorem test_decrypt :
    decrypt ⟨0x484F4C41, 0x31323334⟩ key1 = ⟨0xE382584E, 0xFD97CB23⟩ ∧
    decrypt ⟨0x01234567, 0x89ABCDEF⟩ ⟨0x00112233, 0x44556677, 0x8899AABB, 0xCCDDEEFF⟩ =
      ⟨0xBF467633, 0x9D07A595⟩ := by decide +kernel

-- T25 (b), T23 (a), T24 (n = 9, n = 0)
theorem test_pad :
    pad [0x41, 0x42, 0x43, 0x44, 0x45, 0x46, 0x47, 0x48, 0x49, 0x4A] 5 = ([0x41, 0x42, 0x43, 0x44, 0x45, 0, 0, 0], 8) ∧
    pad [0x48, 0x4F, 0x4C, 0x41, 0x31, 0x32, 0x33, 0x34] 128 =
      ([0x48, 0x4F, 0x4C, 0x41, 0x31, 0x32, 0x33, 0x34], 8) ∧
    (pad (List.replicate 9 0x41) 128).2 = 16 ∧ (pad [0x41] 0).2 = 8 := by decide

-- T30, T31, T32
theorem test_pack :
    pack #v[1, 2, 3, 4, 5, 6, 7, 8] = ⟨0x04030201, 0x08070605⟩ ∧
    pack #v[0x80, 0, 0, 0, 0, 0, 0, 1] = ⟨0x00000080, 0x01000000⟩ ∧
    unpack ⟨0x12345678, 0x9ABCDEF0⟩ = #v[0x78, 0x56, 0x34, 0x12, 0xF0, 0xDE, 0xBC, 0x9A] := by decide

/-! ### One command each -/

-- T42
theorem test_nop : after (exec .nop .reset) statusWord = some 0x2 := by decide

-- T2
theorem test_enc : after (exec .enc (withBlock (withKey .reset key1) ⟨0x484F4C41, 0x31323334⟩)) blockWords =
    some ⟨0xBE91739F, 0xC5B30D30⟩ := by decide +kernel

-- T44, sixth line
theorem test_enc_key3_unwritten :
    stop (exec .enc (withBlock (setK (setK (setK .reset 0 0) 1 0) 2 0) ⟨0, 0⟩)) = some (.cvUninit (.k 3)) := by decide

-- T9, first line
theorem test_dec : after (exec .dec zeros) blockWords = some ⟨0x1423FF6D, 0x9216EF3A⟩ := by decide +kernel

-- T44, fourth line
theorem test_dec_block_unwritten : stop (exec .dec (withKey .reset key1)) = some (.cvUninit (.v 0)) := by decide

-- T28
theorem test_pclr : after (exec .pclr textoDone) (fun s => (s.inlen, s.padlen, s.padded, statusWord s)) =
    some (0, 0, false, 0x2) := by decide

-- R152's worked example
theorem test_pushb : after (exec (.pushb 0x54) .reset) (fun s => (s.inlen, s.buf)) = some (1, [(0, 0x54)]) := by decide

-- T29
theorem test_pushb_dropped :
    after (exec (.pushb 0x42) (setInlen (setBuf (setMaxlen .reset 1) [(0, 0x41)]) 1)) (fun s => (s.inlen, s.buf)) =
      some (1, [(0, 0x41)]) := by decide

-- T21
theorem test_pfin : after (exec .pfin texto) (fun s => (s.buf, s.padlen, statusWord s)) =
    some ([(0, 0x54), (1, 0x65), (2, 0x78), (3, 0x74), (4, 0x6F), (5, 0), (6, 0), (7, 0)], 8, 0x6) := by decide

-- T20
theorem test_pfin_empty : after (exec .pfin .reset) (fun s => (s.buf, s.inlen, s.padlen)) =
    some ([(0, 0), (1, 0), (2, 0), (3, 0), (4, 0), (5, 0), (6, 0), (7, 0)], 0, 8) := by decide

-- T21
theorem test_ldblk : after (exec (.ldblk 0) textoDone) blockWords = some ⟨0x74786554, 0x0000006F⟩ := by decide

-- T44, ninth line
theorem test_ldblk_out_of_range : stop (exec (.ldblk 1) textoDone) = some (.cvRange 1 8) := by decide

-- T21
theorem test_stblk : after (exec (.stblk 0) (withBlock textoDone ⟨0x43F5F9FE, 0x707EF69F⟩)) State.buf =
    some [(0, 0xFE), (1, 0xF9), (2, 0xF5), (3, 0x43), (4, 0x9F), (5, 0xF6), (6, 0x7E), (7, 0x70)] := by decide

-- T44, eighth line
theorem test_stblk_range_before_uninit : stop (exec (.stblk 0) .reset) = some (.cvRange 0 0) := by decide

/-! ### The ENGINE, the HOST, reset -/

-- T1, row 1
theorem test_enc_round_step : after (engineStep encStarted) (fun s => (s.rnd, s.sum, blockWords s)) =
    some (1, 0x9E3779B9, ⟨0x9E3779B9, 0xDBE8D32F⟩) := by decide +kernel

-- T52
theorem test_reset_while_busy :
    after (step (setAgenda (setBlock encStarted 0x7E81C6B6 0x3D44EB2F) [.rst])) (fun s => (statusWord s, s.v[0].held)) =
      some (0x0, false) := by decide

-- T27
theorem test_maxlen_clamp : after (busStep (.write 0x08 .word 1000) .reset) State.maxlen = some 128 ∧
    after (busStep (.write 0x08 .word 5) .reset) State.maxlen = some 5 := by decide

-- T43
theorem test_harmless_accesses :
    after (busStep (.write 0x14 .word 0xDEADBEEF) .reset) id = some .reset ∧
    after (busStep (.write 0x04 .word 0xFFFFFFFF) .reset) id = some .reset ∧
    after (busStep (.read 0x3C .word) .reset) State.reads = some [0] := by decide

-- T44
theorem test_violations :
    stop (busStep (.read 0x20 .word) .reset) = some (.cvUninit (.k 0)) ∧
    stop (busStep (.write 0x00 .word 0x00000006) .reset) = some (.cvRange 0 0) ∧
    stop (busStep (.write 0x00 .word 0x00004104) textoDone) = some (.cvSeq (.command (.pushb 0x41))) ∧
    stop (busStep (.write 0x08 .word 16) texto) = some (.cvSeq (.maxlenWrite 16)) ∧
    stop (busStep (.write 0x00 .word 0x00010004) .reset) = some (.cvIllcmd 0x00010004) ∧
    stop (busStep (.read 0x02 .word) .reset) = some (.cvBusacc 0x02 .word) ∧
    stop (busStep (.read 0x40 .word) .reset) = some (.cvBusacc 0x40 .word) ∧
    stop (busStep (.write 0x30 .byte 0x41) .reset) = some (.cvBusacc 0x30 .byte) ∧
    stop (busStep (.write 0x00 .word 0x00000008) encStarted) = some (.cvBusy 0x00 .write) ∧
    stop (busStep (.read 0x41 .word) encStarted) = some (.cvBusacc 0x41 .word) := by decide

-- T42: STATUS while busy
theorem test_status_busy : after (busStep (.read 0x04 .word) encStarted) State.reads = some [0x1] := by decide

-- T50
theorem test_reset_reads : statusWord .reset = 0x0 ∧ State.reset.maxlen = 128 := by decide

-- R200, R253: NOP right after reset, the WAIT of its command line reads 0x2, and the run is over
theorem test_result_nop :
    (runResult 2 (setAgenda .reset (cmdLine .nop))).map RunResult.reads = some [0x2] ∧
    (runResult 2 (setAgenda .reset (cmdLine .nop))).map (fun r => r.k[0]) = some none ∧
    runResult 1 (setAgenda .reset (cmdLine .nop)) = none := by decide

-- T21 (Texto padded), as its end shows it
theorem test_result_bytes : (runResult 0 textoDone).map RunResult.bytes =
    some [some 0x54, some 0x65, some 0x78, some 0x74, some 0x6F, some 0x00, some 0x00, some 0x00] := by decide

theorem test_first_instruction : after (step (State.reset.withFetchWord 32 0x00005404)) State.inlen = some 1 := by decide

/-! ### States that meet the hypotheses of the statements

Each theorem `witness_<Name>` is about the statement `Obligations.<Name>` and meets the hypotheses of each of its clauses
that has any, at a boundary value where the clause has a range. -/

/-- "Texto" padded, with a key and a block (T21). -/
def textoReady : State := withBlock (withKey textoDone key1) ⟨0x43F5F9FE, 0x707EF69F⟩

/-- One byte pushed under the bound 1 (T29). -/
def full : State := setInlen (setBuf (setMaxlen .reset 1) [(0, 0x41)]) 1

theorem consistent_textoReady : Consistent textoReady :=
  .of_idle (by decide) (by decide) (by decide) (by decide) (by decide) (by decide) (by decide) (by decide) (by decide)

theorem consistent_reset : Consistent .reset :=
  .of_idle (by decide) (by decide) (by decide) (by decide) (by decide) (by decide) (by decide) (by decide) (by decide)

theorem consistent_encStarted : Consistent encStarted where
  bufCanonical := by decide
  bufInside := by decide
  inlenBound := by decide
  maxlenBound := by decide
  padlenOpen := by decide
  padlenDone := by decide
  written := by decide
  oneOfBusyDone := by decide
  rndBound := by decide
  running := fun _ => ⟨by decide, fun _ _ => by decide⟩
  encSum := by decide
  decSum := by decide

theorem witness_DecodeEncodeInverse :
    ((0x00010000 : Word).toNat / 2 ^ 16 ≠ 0 ∧ (0x000000F0 : Word).toNat / 2 ^ 4 % 16 ≠ 0) ∧
    (∀ op, op < 8 → (BitVec.ofNat 32 op).toNat / 2 ^ 16 = 0 ∧ (BitVec.ofNat 32 op).toNat / 2 ^ 4 % 16 = 0 ∧
      (BitVec.ofNat 32 op).toNat / 2 ^ 8 % 256 = 0 ∧ (BitVec.ofNat 32 op).toNat % 16 = op) ∧
    ((0x0000FF05 : Word).toNat % 16 ∈ [0, 1, 2, 3, 5] ∧ (0x0000FF05 : Word).toNat / 2 ^ 8 % 256 ≠ 0) ∧
    8 ≤ (0x00000008 : Word).toNat % 16 ∧ (Instr.ldblk 255).WellFormed ∧ (Instr.stblk 0).WellFormed ∧
    decode 0x0000FF07 = .command (.stblk 255) := by decide

theorem witness_ReservedWordsExactly :
    State.reset.busy = false ∧ decode 0x00000008 = .illegal (.opReserved 8) := by decide

theorem witness_OpcodeMapSelects :
    (⟨"PUSHB", 0xFFFF00FF, 0x00000004⟩ : OpcodeRow) ∈ opcodeMap ∧ 8 ≤ (0x0000000F : Word).toNat % 16 := by decide

theorem witness_StepRunsDecodedCommand :
    ((setAgenda .reset [.command 0]).agenda = .command 0 :: [] ∧ (setAgenda .reset [.command 0]).busy = false ∧
      decode 0 = .command .nop) ∧
    decode (BitVec.ofNat 32 0x0000FF04) = .command (.pushb 0xFF) ∧
    (setAgenda .reset [rd 0x04, .wait]).agenda = .bus (.read 0x04 .word) :: [.wait] ∧
    (setAgenda encStarted [.engine]).agenda = .engine :: [] ∧ (setAgenda encStarted [.rst]).agenda = .rst :: [] ∧
    ((setAgenda encStarted [.command 0]).agenda = .command 0 :: [] ∧ (setAgenda encStarted [.command 0]).busy = true) ∧
    ((setAgenda .reset [.command 8]).agenda = .command 8 :: [] ∧ decode 8 = .illegal (.opReserved 8)) ∧
    (setAgenda encStarted [.wait]).agenda = .wait :: [] ∧ State.reset.agenda = [] ∧ State.reset.busy = false := by decide

theorem witness_NopChangesNothing : textoDone.busy = false := by decide

theorem witness_CommandIssue :
    State.reset.busy = false ∧ decode 0x00000101 = .illegal (.argNotZero 1 1) ∧
    (decode 0x00000001 = .command .enc ∧ precondition .enc zeros = none) ∧
    (decode 0x00000106 = .command (.ldblk 1) ∧ precondition (.ldblk 1) textoDone = some (.cvRange 1 8)) ∧
    encStarted.busy = true := by decide

theorem witness_StatusReadReturnsFlags :
    encStarted.busy = true ∧ 0x3C % 4 = 0 ∧ 0x3C ≤ 0x3C ∧ 0x3C ≠ 0x04 := by decide

theorem witness_DataRegisterAccess :
    zeros.busy = false ∧ zeros.k[3].held = true ∧ zeros.v[1].held = true ∧ State.reset.busy = false ∧
    State.reset.k[0].held = false ∧ State.reset.v[0].held = false := by decide

theorem witness_LengthRegisterAccess :
    (State.reset.busy = false ∧ State.reset.inlen = 0 ∧ State.reset.padded = false) ∧
    (full.busy = false ∧ full.inlen ≠ 0) ∧ (textoDone.busy = false ∧ textoDone.padded = true) := by decide

theorem witness_SteppedCommandEqualsWhole :
    (zeros.busy = false ∧ decode 0x00000001 = .command .enc ∧ issue 0x00000001 zeros = .next (accept zeros 0x00000001)) ∧
    (State.reset.busy = false ∧ issue 0x00000001 .reset = .fault (.cvUninit (.k 0))) ∧
    (decode 0x00000000 = .command .nop ∧ issue 0x00000000 .reset = .next (accept .reset 0x00000000)) ∧
    ∃ u, engineRun 33 (accept zeros 0x00000001) = .next u := by
  refine ⟨⟨rfl, rfl, rfl⟩, ⟨rfl, rfl⟩, ⟨rfl, rfl⟩, ?_⟩
  have h : (after (engineRun 33 (accept zeros 0x00000001)) id).isSome = true := by decide +kernel
  cases hr : engineRun 33 (accept zeros 0x00000001) with
  | next u => exact ⟨u, rfl⟩
  | fault f => rw [hr] at h; cases h
  | refused f => rw [hr] at h; cases h

theorem witness_EveryCommandCompletes :
    (Consistent textoReady ∧ textoReady.busy = false ∧ precondition (.stblk 0) textoReady = none ∧
      precondition .enc textoReady = none ∧ precondition .pclr textoReady = none) ∧
    (precondition (.pushb 0) .reset = none ∧ precondition .pfin .reset = none) ∧
    (Consistent encStarted ∧ encStarted.busy = true) :=
  ⟨⟨consistent_textoReady, by decide, by decide, by decide, by decide⟩, by decide, consistent_encStarted, by decide⟩

theorem witness_WaitEnds : Consistent (setAgenda encStarted [.wait]) ∧ (setAgenda encStarted [.wait]).agenda = .wait :: [] :=
  ⟨consistent_encStarted.setAgenda _, rfl⟩

theorem witness_CommandLineWholeOrStepped :
    (Consistent textoReady ∧ textoReady.busy = false ∧ Instr.enc.WellFormed ∧ precondition .enc textoReady = none) ∧
    (Consistent .reset ∧ State.reset.busy = false ∧ (Instr.ldblk 255).WellFormed ∧
      precondition (.ldblk 255) .reset = some (.cvRange 255 0)) :=
  ⟨⟨consistent_textoReady, by decide, by decide, by decide⟩, consistent_reset, by decide, by decide, by decide⟩

theorem witness_ResultOfRun :
    (steps 0 textoReady = .next textoReady ∧ textoReady.agenda = [] ∧ textoReady.busy = false ∧
      textoReady.k[3].held = true ∧ textoReady.v[1].held = true ∧ 7 < textoReady.padlen.toNat ∧ Consistent textoReady) ∧
    (steps 0 State.reset = .next .reset ∧ State.reset.agenda = [] ∧ State.reset.busy = false ∧
      State.reset.k[0].held = false ∧ State.reset.v[0].held = false) ∧
    (steps 0 encStarted = .next encStarted ∧ encStarted.busy = true) ∧
    steps 1 (setAgenda .reset [.command 8]) = .fault (.cvIllcmd 8) ∧
    (∃ r, runResult 0 textoReady = some r) ∧
    (Consistent (setMix .reset 5 0) ∧ Same .reset (setMix .reset 5 0)) := by
  refine ⟨⟨rfl, rfl, rfl, rfl, rfl, by decide, consistent_textoReady⟩, ⟨rfl, rfl, rfl, rfl, rfl⟩, ⟨rfl, rfl⟩, rfl, ⟨_, rfl⟩,
    .of_idle (by decide) (by decide) (by decide) (by decide) (by decide) (by decide) (by decide) (by decide) (by decide), ?_⟩
  exact ⟨rfl, fun _ => ⟨rfl, fun _ => rfl⟩, fun _ => ⟨rfl, fun _ => rfl⟩, rfl, rfl, rfl, rfl, rfl, rfl, fun _ => rfl,
    fun _ => rfl, (fun h => by cases h), fun _ _ => rfl, rfl, rfl⟩

theorem witness_ReservedAndReadOnlyOffsets :
    State.reset.busy = false ∧ 0x3C ∈ [0x14, 0x18, 0x1C, 0x38, 0x3C] ∧ 0x04 ∈ [0x04, 0x0C, 0x10] ∧
    (encStarted.busy = true ∧ 0x3C % 4 = 0 ∧ 0x3C ≤ 0x3C ∧ 0x3C ≠ 0x04) ∧
    ¬ (AccessWidth.word = .word ∧ 0x40 % 4 = 0 ∧ 0x40 ≤ 0x3C) := by decide

theorem witness_HostAccessIdempotent :
    busStep (.read 0x2C .word) zeros = .next (logRead zeros 0) ∧
    busStep (.write 0x34 .word 7) .reset = .next (setV .reset 1 7) ∧
    busStep (.write 0x08 .word 129) .reset = .next (setMaxlen .reset 129) ∧
    busStep (.write 0x00 .word 3) .reset = .next (accept .reset 3) := ⟨rfl, rfl, rfl, rfl⟩

theorem witness_InvariantKept : Consistent encStarted ∧ step encStarted = engineStep encStarted ∧
    (after (engineStep encStarted) id).isSome = true :=
  ⟨consistent_encStarted, rfl, by decide +kernel⟩

theorem witness_StatusValues : Consistent encStarted := consistent_encStarted

theorem witness_CommandWritesOnlyItsRegisters :
    (after (exec .enc textoReady) id).isSome = true ∧ (after (exec (.stblk 0) textoReady) id).isSome = true ∧
    (after (exec (.pushb 0) full) id).isSome = true := by decide +kernel

theorem witness_OnlyHostWritesKey :
    step (setAgenda .reset [wr 0x2C 5]) = .next (setK .reset 3 5) ∧ (setK .reset 3 5).k ≠ State.reset.k :=
  ⟨rfl, by decide⟩

theorem witness_HiddenStateUnobservable :
    Consistent encStarted ∧ Consistent (setAgenda encStarted []) ∧ Same encStarted (setAgenda encStarted []) :=
  ⟨consistent_encStarted, consistent_encStarted.setAgenda _,
    ⟨rfl, fun _ => ⟨rfl, fun _ => rfl⟩, fun _ => ⟨rfl, fun _ => rfl⟩, rfl, rfl, rfl, rfl, rfl, rfl, fun _ => rfl,
      fun _ => rfl, fun _ _ _ => ⟨rfl, rfl⟩, fun _ _ => rfl, rfl, rfl⟩⟩

theorem witness_CommandWritesOnlyItsBytes :
    (after (exec (.ldblk 0) textoDone) id).isSome = true ∧ (after (exec (.pushb 1) texto) id).isSome = true ∧
    ((after (exec (.pushb 1) full) id).isSome = true ∧ full.maxlen.toNat ≤ full.inlen.toNat) ∧
    (after (exec .pfin texto) State.padlen = some 8 ∧ 4 < texto.inlen.toNat) ∧
    ((after (exec (.stblk 0) textoReady) id).isSome = true ∧ blockAddr 0 + 8 ≤ 8) := by decide

theorem witness_LoadReadsOnlyItsBlock :
    (after (exec (.ldblk 0) textoDone) id).isSome = true ∧ (after (exec (.ldblk 0) textoReady) id).isSome = true ∧
    ∀ j, j < 8 → Memory.lookup textoDone.buf (8 * 0 + j) = Memory.lookup textoReady.buf (8 * 0 + j) := by decide

theorem witness_EncResult : (zeros.busy = false ∧ KeyHeld zeros ∧ BlockHeld zeros) ∧
    (State.reset.busy = false ∧ ¬ (KeyHeld .reset ∧ BlockHeld .reset)) := by decide

theorem witness_DecResult : (textoReady.busy = false ∧ KeyHeld textoReady ∧ BlockHeld textoReady) ∧
    ((withKey .reset key1).busy = false ∧ ¬ (KeyHeld (withKey .reset key1) ∧ BlockHeld (withKey .reset key1))) := by
  decide

theorem witness_EncRoundByRound :
    ((accept zeros 1).busy = true ∧ decode (accept zeros 1).opl = .command .enc ∧ (accept zeros 1).begun = false ∧
      KeyHeld (accept zeros 1) ∧ BlockHeld (accept zeros 1)) ∧
    ((setMix encStarted 0x28B7BD67 31).busy = true ∧ (setMix encStarted 0x28B7BD67 31).begun = true ∧
      (setMix encStarted 0x28B7BD67 31).rnd.toNat < 32 ∧ KeyHeld (setMix encStarted 0x28B7BD67 31)) ∧
    ((setMix encStarted 0xC6EF3720 32).begun = true ∧ (setMix encStarted 0xC6EF3720 32).rnd.toNat = 32) := by decide

theorem witness_DecRoundByRound :
    ((accept zeros 2).busy = true ∧ decode (accept zeros 2).opl = .command .dec ∧ (accept zeros 2).begun = false ∧
      KeyHeld (accept zeros 2) ∧ BlockHeld (accept zeros 2)) ∧
    (decStarted.busy = true ∧ decode decStarted.opl = .command .dec ∧ decStarted.begun = true ∧
      decStarted.rnd.toNat < 32 ∧ KeyHeld decStarted ∧ BlockHeld decStarted) ∧
    ((setMix decStarted 0 32).begun = true ∧ (setMix decStarted 0 32).rnd.toNat = 32) := by decide

theorem witness_DecryptUndoesEncrypt : (after (exec .enc zeros) id).isSome = true := by decide +kernel

theorem witness_CipherDependsOnOperandsOnly :
    (after (exec .enc textoReady) id).isSome = true ∧ (clearPadding textoReady).busy = false ∧
    (clearPadding textoReady).k = textoReady.k ∧ (clearPadding textoReady).v = textoReady.v := by decide +kernel

theorem witness_PclrResult : textoDone.busy = false := by decide

theorem witness_PushbResult :
    ((setInlen .reset 127).busy = false ∧ (setInlen .reset 127).padded = false ∧
      (setInlen .reset 127).maxlen.toNat ≤ (setInlen .reset 127).cfg.maxLenCap.val ∧
      (setInlen .reset 127).inlen.toNat < (setInlen .reset 127).maxlen.toNat) ∧
    (full.busy = false ∧ full.padded = false ∧ full.maxlen.toNat ≤ full.inlen.toNat) ∧ textoDone.padded = true := by
  decide

theorem witness_PfinResult :
    (State.reset.busy = false ∧ State.reset.padded = false ∧ State.reset.inlen.toNat ≤ State.reset.cfg.maxLenCap.val ∧
      State.reset.inlen.toNat = 0) ∧
    (texto.inlen.toNat ≠ 0 ∧ texto.inlen.toNat % 8 ≠ 0) ∧
    ((setInlen widest 2040).padded = false ∧ (setInlen widest 2040).inlen.toNat ≤ (setInlen widest 2040).cfg.maxLenCap.val ∧
      (setInlen widest 2040).inlen.toNat ≠ 0 ∧ (setInlen widest 2040).inlen.toNat % 8 = 0) ∧
    (textoDone.busy = false ∧ textoDone.padded = true) := by decide

theorem witness_PadmsgComputesPad :
    textoDone.busy = false ∧ (setAgenda textoDone (padMsg 128 [0x58])).agenda = padMsg 128 [0x58] ++ [] := by decide

theorem witness_PadGuarantees :
    pad [0x41] 1 = ([0x41, 0, 0, 0, 0, 0, 0, 0], 8) ∧ 1 = min [(0x41 : Byte)].length 1 ∧
    pad [] 0 = ([0, 0, 0, 0, 0, 0, 0, 0], 8) ∧ 0 = min ([] : List Byte).length 0 := by decide

theorem witness_PadSpecialCases :
    (List.replicate 8 (0x41 : Byte)).length % 8 = 0 ∧ 0 < (List.replicate 8 (0x41 : Byte)).length ∧
    (List.replicate 8 (0x41 : Byte)).length ≤ 8 := by decide

theorem witness_LdblkResult :
    (textoDone.busy = false ∧ textoDone.padded = true ∧ 0 < textoDone.padlen.toNat / 8 ∧ 8 * 0 + 8 ≤ bufBytes textoDone ∧
      ∀ (j : Nat) (h : j < 8), Memory.lookup textoDone.buf (8 * 0 + j) =
        some (#v[0x54, 0x65, 0x78, 0x74, 0x6F, 0, 0, 0] : Vector Byte 8)[j]) ∧
    (textoDone.padlen.toNat / 8 ≤ 1 ∧ State.reset.busy = false ∧ State.reset.padded = false) := by decide

theorem witness_StblkResult :
    (textoReady.busy = false ∧ textoReady.padded = true ∧ 0 < textoReady.padlen.toNat / 8 ∧
      8 * 0 + 8 ≤ bufBytes textoReady ∧ BlockHeld textoReady) ∧
    textoReady.padlen.toNat / 8 ≤ 1 ∧ (textoDone.padded = true ∧ ¬ BlockHeld textoDone) := by decide

theorem witness_ConverterRoundTrip : Consistent textoReady ∧ textoReady.busy = false ∧ textoReady.padded = true ∧
    0 < textoReady.padlen.toNat / 8 ∧ BlockHeld textoReady :=
  ⟨consistent_textoReady, by decide, by decide, by decide, by decide⟩

theorem witness_PassesTransformEveryBlock :
    Consistent (setAgenda textoReady (encBlk 0)) ∧ textoReady.busy = false ∧ textoReady.padded = true ∧ KeyHeld textoReady ∧
    [0].Perm (List.range (textoReady.padlen.toNat / 8)) ∧
    (setAgenda textoReady (encBlk 0)).agenda = [0].flatMap encBlk ++ [] ∧
    (setAgenda textoReady (decBlk 0)).agenda = [0].flatMap decBlk ++ [] ∧
    (setAgenda textoReady (encBuf 8 ++ decBuf 8)).agenda =
      encBuf textoReady.padlen.toNat ++ decBuf textoReady.padlen.toNat ++ [] :=
  ⟨consistent_textoReady.setAgenda _, by decide, by decide, by decide, by decide, by decide, by decide, by decide⟩

theorem witness_BusyExactly : (encStarted.busy = true ∧ 0x3C % 4 = 0 ∧ 0x3C ≤ 0x3C ∧ 0x3C ≠ 0x04) ∧
    textoDone.busy = false := by decide

theorem witness_SequenceExactly :
    full.busy = false ∧ full.padded = false ∧ full.inlen = full.maxlen ∧ textoDone.padded = true := by decide

theorem witness_RangeExactly : textoReady.busy = false ∧ Consistent textoReady ∧ textoReady.padded = true :=
  ⟨by decide, consistent_textoReady, by decide⟩

theorem witness_UninitExactly :
    (textoDone.busy = false ∧ textoDone.padded = true ∧ 0 < textoDone.padlen.toNat / 8) ∧
    (after (exec (.ldblk 0) textoDone) id).isSome = true ∧ zeros.k[3].held = true ∧ zeros.v[1].held = true ∧
    (after (busStep (.write 0x2C .word 5) .reset) id).isSome = true := by decide

theorem witness_ViolationOrder :
    (encStarted.busy = true ∧ ¬ (AccessWidth.word = .word ∧ 0x41 % 4 = 0 ∧ 0x41 ≤ 0x3C)) ∧
    (decode 0x00000008 = .illegal (.opReserved 8) ∧ State.reset.busy = false) ∧
    (State.reset.padded = false ∧ ¬ BlockHeld .reset) ∧ violationCode (.cvRange 0 0) = some 5 := by decide

theorem witness_OnlyContractViolations : Consistent (setAgenda .reset [.command 1]) ∧
    step (setAgenda .reset [.command 1]) = .fault (.cvUninit (.k 0)) :=
  ⟨consistent_reset.setAgenda _, rfl⟩

theorem witness_ResetState : (setAgenda encStarted [.rst]).agenda = .rst :: [] ∧
    step (setAgenda encStarted [.rst]) = .next (resetBlock (setAgenda encStarted [])) := ⟨rfl, rfl⟩

theorem witness_ResetForgetsEverything : (setAgenda encStarted [.rst]).agenda = .rst :: [] ∧
    (setAgenda textoDone [.rst]).agenda = .rst :: [] ∧ encStarted.cfg = textoDone.cfg ∧
    encStarted.reads = textoDone.reads := by decide

end Sys2Proof.Tests
end

section
/-! PROOFS. The arithmetic primitives over unsigned integers (00_scope.md R8): one rule for each primitive, in terms
of `BitVec.toNat` or of single bits, so that later proofs need not unfold these irreducible definitions. -/

namespace Sys2Proof.Machine

@[simp] theorem toNat_add32 (a b : Word) : (add32 a b).toNat = (a.toNat + b.toNat) % 2 ^ 32 := by
  rw [add32, BitVec.toNat_add]

/-- The difference is taken over the integers, where R8 states it: the remainder of a negative difference is the
wrapped word, which truncated subtraction on `Nat` would lose. -/
theorem toNat_sub32_cast (a b : Word) :
    ((sub32 a b).toNat : Int) = ((a.toNat : Int) - (b.toNat : Int)) % 2 ^ 32 := by
  have ha := a.isLt
  have hb := b.isLt
  rw [sub32, BitVec.toNat_sub]
  omega

@[simp] theorem toNat_shl4 (x : Word) : (shl4 x).toNat = x.toNat * 16 % 2 ^ 32 := by
  rw [shl4, BitVec.toNat_shiftLeft, Nat.shiftLeft_eq]

@[simp] theorem toNat_shr5 (x : Word) : (shr5 x).toNat = x.toNat / 32 := by
  rw [shr5, BitVec.toNat_ushiftRight, Nat.shiftRight_eq_div_pow]

@[simp] theorem getLsbD_xor32 (a b : Word) (i : Nat) :
    (xor32 a b).getLsbD i = (a.getLsbD i != b.getLsbD i) := by
  rw [xor32, BitVec.getLsbD_xor]

theorem mixF_eq (x s ka kb : Word) :
    mixF x s ka kb = xor32 (xor32 (add32 (shl4 x) ka) (add32 x s)) (add32 (shr5 x) kb) := by
  rw [mixF]

end Sys2Proof.Machine
end

section
namespace Sys2Proof.Proofs

open Sys2Proof.Machine

/-- Settles O24, from the rule of each primitive. -/
theorem arithmeticPrimitives : Obligations.ArithmeticPrimitives :=
  ⟨fun a b => ⟨toNat_add32 a b, toNat_sub32_cast a b, getLsbD_xor32 a b⟩,
    fun x => ⟨toNat_shl4 x, toNat_shr5 x⟩, mixF_eq⟩

end Sys2Proof.Proofs
end

section
/-! PROOFS. What a step of the ENGINE and a whole command can do, said once, and what they never touch. -/

namespace Sys2Proof.Machine

variable {s t : State} {i : Instr}

/-! ### The ENGINE -/

theorem encRoundStep_next (h : encRoundStep s = .next t) : KeyHeld s ∧ BlockHeld s ∧
    t = putMix s (encRound (keyWords s) { sum := s.sum, block := blockWords s }) (s.rnd + 1) := by
  rcases cipherOperands_cases s with ⟨hk, hv, -⟩ | ⟨r, -, e⟩
  · rw [encRoundStep_held hk hv] at h
    cases h
    exact ⟨hk, hv, rfl⟩
  · simp [encRoundStep, e] at h

theorem decRoundStep_next (h : decRoundStep s = .next t) : KeyHeld s ∧ BlockHeld s ∧
    t = putMix s (decRound (keyWords s) { sum := s.sum, block := blockWords s }) (s.rnd + 1) := by
  rcases cipherOperands_cases s with ⟨hk, hv, -⟩ | ⟨r, -, e⟩
  · rw [decRoundStep_held hk hv] at h
    cases h
    exact ⟨hk, hv, rfl⟩
  · simp [decRoundStep, e] at h

/-- Everything a step of a started command can do: it completes, or takes a round of ENC or DEC. -/
theorem laterStep_cases (i : Instr) (s : State) : laterStep i s = .next (complete s) ∨
    (i = .enc ∧ s.rnd.toNat < rounds ∧ laterStep i s = encRoundStep s) ∨
    (i = .dec ∧ s.rnd.toNat < rounds ∧ laterStep i s = decRoundStep s) := by
  by_cases hr : s.rnd.toNat < rounds
  · by_cases he : i = .enc
    · subst he; exact .inr (.inl ⟨rfl, hr, laterStep_enc_round hr⟩)
    · by_cases hd : i = .dec
      · subst hd; exact .inr (.inr ⟨rfl, hr, laterStep_dec_round hr⟩)
      · exact .inl (laterStep_effect s he hd)
  · cases i with
    | enc => exact .inl (laterStep_enc_finish hr)
    | dec => exact .inl (laterStep_dec_finish hr)
    | _ => exact .inl rfl

/-- Everything a step of the ENGINE that answers a next state can do. -/
theorem engineStep_next (h : engineStep s = .next t) : (s.busy = false ∧ t = s) ∨
    ∃ i, s.busy = true ∧ decode s.opl = .command i ∧
      ((s.begun = false ∧ firstStep i (startCommand s) = .next t) ∨ (s.begun = true ∧ laterStep i s = .next t)) := by
  cases hb : s.busy with
  | false =>
    rw [engineStep_idle hb] at h
    cases h
    exact .inl ⟨rfl, rfl⟩
  | true =>
    right
    cases hd : decode s.opl with
    | illegal why => simp [engineStep, hb, hd] at h
    | command i =>
      refine ⟨i, rfl, rfl, ?_⟩
      cases hg : s.begun with
      | false => rw [engineStep_first hb hd hg] at h; exact .inl ⟨rfl, h⟩
      | true => rw [engineStep_later hb hd hg] at h; exact .inr ⟨rfl, h⟩

/-! ### What an effect never touches -/

/-- What no effect and no round of a command touches: the parameters, the key, the bound, the life of the command and
the environment's lists. -/
structure EffectFrame (s t : State) : Prop where
  cfg : t.cfg = s.cfg
  k : t.k = s.k
  maxlen : t.maxlen = s.maxlen
  busy : t.busy = s.busy
  done : t.done = s.done
  opl : t.opl = s.opl
  begun : t.begun = s.begun
  agenda : t.agenda = s.agenda
  reads : t.reads = s.reads

theorem EffectFrame.refl (s : State) : EffectFrame s s := ⟨rfl, rfl, rfl, rfl, rfl, rfl, rfl, rfl, rfl⟩

theorem effectFrame_putMix (s : State) (m : Mix) (r : BitVec 6) : EffectFrame s (putMix s m r) :=
  ⟨rfl, rfl, rfl, rfl, rfl, rfl, rfl, rfl, rfl⟩

theorem firstStep_frame (h : firstStep i s = .next t) : EffectFrame s t := by
  cases i with
  | nop => cases h; exact .refl s
  | enc => cases h; exact ⟨rfl, rfl, rfl, rfl, rfl, rfl, rfl, rfl, rfl⟩
  | dec => cases h; exact ⟨rfl, rfl, rfl, rfl, rfl, rfl, rfl, rfl, rfl⟩
  | pclr => cases h; exact ⟨rfl, rfl, rfl, rfl, rfl, rfl, rfl, rfl, rfl⟩
  | pushb b =>
    simp only [firstStep] at h
    rcases pushbEffect_cases b s with ⟨-, -, e⟩ | ⟨-, -, e⟩ | ⟨-, e⟩ <;> rw [e] at h <;> cases h
    · exact ⟨rfl, rfl, rfl, rfl, rfl, rfl, rfl, rfl, rfl⟩
    · exact .refl s
  | pfin =>
    simp only [firstStep] at h
    rcases pfinEffect_cases s with ⟨-, e⟩ | ⟨-, e⟩ <;> rw [e] at h <;> cases h
    exact ⟨rfl, rfl, rfl, rfl, rfl, rfl, rfl, rfl, rfl⟩
  | ldblk idx =>
    obtain ⟨bs, -, rfl⟩ := ldblkEffect_next h
    exact ⟨rfl, rfl, rfl, rfl, rfl, rfl, rfl, rfl, rfl⟩
  | stblk idx =>
    obtain ⟨-, -, rfl⟩ := stblkEffect_next h
    exact ⟨rfl, rfl, rfl, rfl, rfl, rfl, rfl, rfl, rfl⟩

/-- A whole command ends in the completion of a state that its effect leaves (43_control.md R207). -/
theorem exec_frame (h : exec i s = .next t) :
    ∃ u, EffectFrame (startCommand (accept s (encode i))) u ∧ t = complete u := by
  by_cases he : i = .enc
  · subst he
    obtain ⟨-, -, e⟩ := execEnc_next h
    exact ⟨_, effectFrame_putMix _ _ _, e⟩
  · by_cases hd : i = .dec
    · subst hd
      obtain ⟨-, -, e⟩ := execDec_next h
      exact ⟨_, effectFrame_putMix _ _ _, e⟩
    · rw [exec_eq_perform s he hd] at h
      obtain ⟨-, -, u, hu, e⟩ := perform_next h
      exact ⟨u, firstStep_frame hu, e⟩

theorem exec_k (h : exec i s = .next t) : t.k = s.k := by
  obtain ⟨u, hu, rfl⟩ := exec_frame h
  exact hu.k

theorem engineStep_k (h : engineStep s = .next t) : t.k = s.k := by
  rcases engineStep_next h with ⟨-, rfl⟩ | ⟨i, -, -, ⟨-, h⟩ | ⟨-, h⟩⟩
  · rfl
  · exact (firstStep_frame h).k
  · rcases laterStep_cases i s with e | ⟨-, -, e⟩ | ⟨-, -, e⟩ <;> rw [e] at h
    · cases h; rfl
    · obtain ⟨-, -, rfl⟩ := encRoundStep_next h; rfl
    · obtain ⟨-, -, rfl⟩ := decRoundStep_next h; rfl

/-- What a whole command that answers a next state is: the decoded command, in an idle state. -/
theorem wholeCommand_next {w : Word} (h : wholeCommand w s = .next t) :
    s.busy = false ∧ ∃ i, decode w = .command i ∧ exec i s = .next t := by
  unfold wholeCommand at h
  split at h
  · cases h
  · next hb =>
    split at h
    · cases h
    · next i hd => exact ⟨by simpa using hb, i, hd, h⟩

/-- What WAIT that answers a next state does: a STATUS read, and while busy an ENGINE step (43_control.md R206). -/
theorem waitStep_next (h : waitStep s = .next t) :
    t = logRead s (statusWord s) ∨
    ∃ u, engineStep (logRead s (statusWord s)) = .next u ∧ t = setAgenda u (.wait :: u.agenda) := by
  cases hb : s.busy with
  | false =>
    rw [waitStep_idle hb] at h
    cases h
    exact .inl rfl
  | true =>
    rw [waitStep_busy hb] at h
    obtain ⟨u, hu, e⟩ := andThen_eq_next h
    cases e
    exact .inr ⟨u, hu, rfl⟩

end Sys2Proof.Machine
end

section
namespace Sys2Proof.Proofs

open Sys2Proof.Machine

/-- Settles O19: what every command leaves alone is the frame of its effect; the rest is read off the next state of
each command. -/
theorem commandWritesOnlyItsRegisters : Obligations.CommandWritesOnlyItsRegisters := by
  intro i s t h
  have frame : t.cfg = s.cfg ∧ t.k = s.k ∧ t.maxlen = s.maxlen ∧ t.agenda = s.agenda ∧ t.reads = s.reads ∧
      t.busy = false ∧ t.done = true := by
    obtain ⟨u, hu, rfl⟩ := exec_frame h
    exact ⟨hu.cfg, hu.k, hu.maxlen, hu.agenda, hu.reads, rfl, rfl⟩
  obtain ⟨hcfg, hk, hmax, hag, hrd, hb, hd⟩ := frame
  refine ⟨hcfg, hk, hmax, hag, hrd, hb, hd, ?_⟩
  cases i with
  | nop => rw [execNop_next h]; simp
  | enc => obtain ⟨-, -, e⟩ := execEnc_next h; rw [e]; simp
  | dec => obtain ⟨-, -, e⟩ := execDec_next h; rw [e]; simp
  | pclr => rw [execPclr_next h]; simp
  | pushb b => obtain ⟨-, ⟨-, -, e⟩ | ⟨-, e⟩⟩ := execPushb_next h <;> rw [e] <;> simp
  | pfin => obtain ⟨-, -, e⟩ := execPfin_next h; rw [e]; simp
  | ldblk idx => obtain ⟨-, bs, -, e⟩ := execLdblk_next h; rw [e]; simp
  | stblk idx => obtain ⟨-, -, -, e⟩ := execStblk_next h; rw [e]; simp

/-- Settles O20, move by move: the ENGINE and the commands keep the key, and a write that changes it lies at a key
register. -/
theorem onlyHostWritesKey : Obligations.OnlyHostWritesKey := by
  intro s t m rest hm hstep hne
  rw [step_move hm] at hstep
  cases m with
  | rst => exact .inl rfl
  | engine => exact absurd (engineStep_k hstep) hne
  | command w =>
    obtain ⟨-, i, -, hx⟩ := wholeCommand_next hstep
    exact absurd (exec_k hx) hne
  | wait =>
    rcases waitStep_next hstep with rfl | ⟨u, hu, rfl⟩
    · exact absurd rfl hne
    · exact absurd (engineStep_k hu) hne
  | bus a =>
    cases a with
    | read off width =>
      obtain ⟨-, -, w, -, rfl⟩ := busStep_read_next hstep
      exact absurd rfl hne
    | write off width w =>
      obtain ⟨hv, -, hw⟩ := busStep_write_next hstep
      obtain ⟨rfl, -, -⟩ := (validAccess_iff off width).1 hv
      rcases hw with ⟨-, -, rfl⟩ | ⟨-, -, -, rfl⟩ | ⟨r, hr, rfl⟩ | ⟨-, rfl⟩
      · exact absurd rfl hne
      · exact absurd rfl hne
      · cases r with
        | k i => exact .inr ⟨i, w, by rw [windowReg_eq_k hr]⟩
        | v i => exact absurd rfl hne
      · exact absurd rfl hne

end Sys2Proof.Proofs
end

section
/-! PROOFS. The state after reset, the values of STATUS, and the accesses that answer without looking at the block. -/

namespace Sys2Proof.Machine

variable {s : State} {off : Nat} {width : AccessWidth}

/-- A reset leaves the block as it is right after reset, in the environment it had (log entry 20). -/
theorem resetBlock_eq_withEnv (s : State) : resetBlock s = withEnv (State.resetOf s.cfg) s.agenda s.reads := rfl

/-- `MAX_LEN_CAP` fits a word. -/
theorem toNat_maxLenCap (cfg : Config) : (BitVec.ofNat 32 cfg.maxLenCap.val).toNat = cfg.maxLenCap.val := by
  have := cfg.maxLenCap.isLt
  rw [BitVec.toNat_ofNat]
  omega

theorem consistent_resetOf (cfg : Config) : Consistent (State.resetOf cfg) :=
  .of_idle rfl rfl (by simp [State.resetOf]) (by simp [State.resetOf]) (toNat_maxLenCap cfg).le (fun _ => rfl)
    (fun h => by cases h) (by simp [State.resetOf]) (by simp [State.resetOf])

theorem busStep_read_ok {w : Word} (hv : validAccess off width = true) (h : s.busy = false ∨ windowReg off = .status)
    (hr : readWindow s (windowReg off) = .ok w) : busStep (.read off width) s = .next (logRead s w) := by
  rw [busStep_read_allowed hv h, hr]

theorem busStep_read_error {f : Fault} (hv : validAccess off width = true)
    (h : s.busy = false ∨ windowReg off = .status) (hr : readWindow s (windowReg off) = .error f) :
    busStep (.read off width) s = .fault f := by
  rw [busStep_read_allowed hv h, hr]

/-- The reserved offsets of the window (10_state.md R36). -/
theorem windowReg_reserved : ∀ off ∈ [0x14, 0x18, 0x1C, 0x38, 0x3C],
    validAccess off .word = true ∧ windowReg off = .reserved := by decide

/-- A write at a read-only register is ignored (10_state.md R37). -/
theorem writeWindow_readOnly (s : State) (w : Word) :
    ∀ off ∈ [0x04, 0x0C, 0x10], writeWindow s (windowReg off) w = .next s := by
  simp [windowReg, writeWindow]

theorem windowReg_ne_status (h : off ≠ 0x04) : windowReg off ≠ .status := fun e => h (windowReg_eq_status e)

end Sys2Proof.Machine
end

section
namespace Sys2Proof.Proofs

open Sys2Proof.Machine

/-- Settles O14, clause by clause from the rules of the bus. -/
theorem reservedAndReadOnlyOffsets : Obligations.ReservedAndReadOnlyOffsets := by
  refine ⟨fun s off hb hoff => ?_, fun s off w hb hoff => ?_, fun s hb => busStep_read_ok rfl (.inl hb) rfl,
    fun s off w hb h4 hle => ?_, fun s off width w hbad => ?_⟩
  · obtain ⟨hv, hr⟩ := windowReg_reserved off hoff
    exact ⟨busStep_read_ok hv (.inl hb) (by rw [hr]; rfl), fun w => by rw [busStep_write_idle hv hb, hr]; rfl⟩
  · have hv : ∀ off ∈ [0x04, 0x0C, 0x10], validAccess off .word = true := by decide
    rw [busStep_write_idle (hv off hoff) hb, writeWindow_readOnly s w off hoff]
  · have hv := (validAccess_iff off .word).2 ⟨rfl, h4, hle⟩
    exact ⟨fun hne => busStep_read_busy hv hb (windowReg_ne_status hne), busStep_write_busy hv hb⟩
  · have hv : validAccess off width = false := Bool.eq_false_iff.2 fun h => hbad ((validAccess_iff off width).1 h)
    exact ⟨busStep_read_invalid hv, busStep_write_invalid hv⟩

/-- Settles O17. -/
theorem invariantAtReset : Obligations.InvariantAtReset := consistent_resetOf

/-- Settles O18: `STATUS` as a number, and the invariant rules out `BUSY` and `DONE` together. -/
theorem statusValues : Obligations.StatusValues := by
  intro s h
  rw [statusWord_toNat]
  cases hb : s.busy with
  | false => cases s.done <;> cases s.padded <;> decide
  | true =>
    rw [h.oneOfBusyDone hb]
    cases s.padded <;> decide

/-- Settles O52: a reset move leaves `resetBlock`, and the model's state at reset is its own reset. -/
theorem resetState : Obligations.ResetState := by
  have leaves : ∀ s : State, (resetBlock s).maxlen.toNat = (resetBlock s).cfg.maxLenCap.val ∧
      (∀ i : Fin 4, (resetBlock s).k[i].held = false) ∧ (∀ i : Fin 2, (resetBlock s).v[i].held = false) :=
    fun s => ⟨toNat_maxLenCap s.cfg, fun i => by fin_cases i <;> rfl, fun i => by fin_cases i <;> rfl⟩
  intro t ht
  have hreset : ∃ s, t = resetBlock s := by
    rcases ht with rfl | ⟨s, rest, ha, hstep⟩
    · exact ⟨.reset, rfl⟩
    · rw [step_move ha] at hstep
      cases hstep
      exact ⟨_, rfl⟩
  obtain ⟨s, rfl⟩ := hreset
  obtain ⟨hmax, hk, hv⟩ := leaves s
  exact ⟨rfl, rfl, rfl, hmax, rfl, rfl, hk, hv, fun a => rfl⟩

end Sys2Proof.Proofs
end

section
/-! PROOFS. The invariant is kept by every step: first its part about `BUF` and the lengths, which the commands change,
then the flags and the ENGINE's own state. -/

namespace Sys2Proof.Machine

variable {s t : State} {i : Instr}

/-! ### The padding state -/

/-- The part of the invariant about `BUF` and the lengths (10_state.md R39, R40), which says nothing of the flags
`BUSY`, `DONE` and of the ENGINE. -/
structure PaddingSound (s : State) : Prop where
  bufCanonical : Memory.wf s.buf = true
  bufInside : ∀ c ∈ s.buf, c.1 < bufBytes s
  inlenBound : s.inlen.toNat ≤ s.maxlen.toNat
  maxlenBound : s.maxlen.toNat ≤ s.cfg.maxLenCap.val
  padlenOpen : s.padded = false → s.padlen = 0
  padlenDone : s.padded = true → s.padlen.toNat = padlenOf s.inlen.toNat
  written : ∀ a, a < max s.inlen.toNat s.padlen.toNat → (Memory.lookup s.buf a).isSome = true

theorem Consistent.paddingSound (h : Consistent s) : PaddingSound s :=
  ⟨h.bufCanonical, h.bufInside, h.inlenBound, h.maxlenBound, h.padlenOpen, h.padlenDone, h.written⟩

/-- What a running command needs, for the command in `OPL` (43_control.md R201, R207). -/
theorem inFlight_iff (hd : decode s.opl = .command i) : inFlight s ↔
    (s.begun = false → precondition i s = none) ∧ (s.begun = true → i = .enc ∨ i = .dec → cipherPre s = none) := by
  rw [inFlight, hd]

theorem PaddingSound.consistent_of_idle (h : PaddingSound s) (hb : s.busy = false) (hr : s.rnd.toNat ≤ rounds) :
    Consistent s :=
  .of_idle hb h.bufCanonical h.bufInside h.inlenBound h.maxlenBound h.padlenOpen h.padlenDone h.written hr

/-- The rest of the invariant, for a command that is running. -/
theorem PaddingSound.consistent_of_running (h : PaddingSound s) (hdone : s.done = false) (hr : s.rnd.toNat ≤ rounds)
    (hd : decode s.opl = .command i) (hpre : s.begun = false → precondition i s = none)
    (hops : s.begun = true → i = .enc ∨ i = .dec → cipherPre s = none)
    (henc : s.begun = true → i = .enc → s.sum.toNat = s.rnd.toNat * 0x9E3779B9 % 2 ^ 32)
    (hdec : s.begun = true → i = .dec → s.sum.toNat = (32 - s.rnd.toNat) * 0x9E3779B9 % 2 ^ 32) : Consistent s where
  bufCanonical := h.bufCanonical
  bufInside := h.bufInside
  inlenBound := h.inlenBound
  maxlenBound := h.maxlenBound
  padlenOpen := h.padlenOpen
  padlenDone := h.padlenDone
  written := h.written
  oneOfBusyDone := fun _ => hdone
  rndBound := hr
  running := fun _ => (inFlight_iff hd).2 ⟨hpre, hops⟩
  encSum := fun _ hg hd' => henc hg (Decoded.command.inj (hd.symm.trans hd'))
  decSum := fun _ hg hd' => hdec hg (Decoded.command.inj (hd.symm.trans hd'))

/-- What the padding part of the invariant looks at. -/
theorem PaddingSound.congr (h : PaddingSound s) (hcfg : t.cfg = s.cfg) (hmax : t.maxlen = s.maxlen)
    (hin : t.inlen = s.inlen) (hlen : t.padlen = s.padlen) (hp : t.padded = s.padded) (hbuf : t.buf = s.buf) :
    PaddingSound t := by
  cases s; cases t
  cases hcfg; cases hmax; cases hin; cases hlen; cases hp; cases hbuf
  exact ⟨h.1, h.2, h.3, h.4, h.5, h.6, h.7⟩

theorem Memory.insertAll_inside {m : Memory} {a n : Nat} {bs : List Byte} (h : ∀ c ∈ m, c.1 < n)
    (hin : a + bs.length ≤ n) : ∀ c ∈ Memory.insertAll m a bs, c.1 < n := by
  intro c hc
  rcases Memory.mem_insertAll hc with hc | ⟨-, hlt⟩
  · exact h c hc
  · omega

theorem Memory.isSome_lookup_insertAll {m : Memory} {a x : Nat} {bs : List Byte}
    (h : x < a ∨ a + bs.length ≤ x → (Memory.lookup m x).isSome = true) :
    (Memory.lookup (Memory.insertAll m a bs) x).isSome = true := by
  rw [Memory.lookup_insertAll]
  split
  · rw [List.getElem?_eq_getElem (by omega)]
    rfl
  · exact h (by omega)

theorem paddingSound_clearPadding (h : PaddingSound s) : PaddingSound (clearPadding s) where
  bufCanonical := h.bufCanonical
  bufInside := h.bufInside
  inlenBound := by simp
  maxlenBound := h.maxlenBound
  padlenOpen := by simp
  padlenDone := by simp
  written := by simp

/-- Bytes written inside `BUF` leave the padding state as it is. -/
theorem paddingSound_setBuf (h : PaddingSound s) {a : Nat} {bs : List Byte} (hin : a + bs.length ≤ bufBytes s) :
    PaddingSound (setBuf s (Memory.insertAll s.buf a bs)) where
  bufCanonical := Memory.wf_insertAll _ _ _ h.bufCanonical
  bufInside := Memory.insertAll_inside h.bufInside hin
  inlenBound := h.inlenBound
  maxlenBound := h.maxlenBound
  padlenOpen := h.padlenOpen
  padlenDone := h.padlenDone
  written := fun x hx => Memory.isSome_lookup_insertAll fun _ => h.written x hx

theorem paddingSound_maxlen_lt (h : PaddingSound s) : s.maxlen.toNat < 2041 := by
  have := h.maxlenBound
  have := maxLenCap_lt s
  omega

theorem paddingSound_pushbEffect {b : Byte} (h : PaddingSound s) (hp : s.padded = false)
    (e : pushbEffect b s = .next t) : PaddingSound t := by
  rcases pushbEffect_cases b s with ⟨hlt, hin, e'⟩ | ⟨-, -, e'⟩ | ⟨-, e'⟩ <;> rw [e'] at e <;> cases e
  · have hmax := paddingSound_maxlen_lt h
    have hlt : s.inlen.toNat < s.maxlen.toNat := hlt
    have hnext : (s.inlen + 1).toNat = s.inlen.toNat + 1 := by bv_omega
    have hopen := h.padlenOpen hp
    obtain ⟨hwf, hins, -, hcap, -, -, -⟩ := paddingSound_setBuf (bs := [b]) h hin
    exact {
      bufCanonical := hwf
      bufInside := hins
      inlenBound := by rw [setInlen_inlen, hnext]; exact hlt
      maxlenBound := hcap
      padlenOpen := fun _ => hopen
      padlenDone := fun hp' => by rw [show s.padded = true from hp'] at hp; cases hp
      written := fun x hx => Memory.isSome_lookup_insertAll fun hout => h.written x (by
        simp only [setInlen_inlen, setInlen_padlen, setBuf_padlen, hnext, hopen] at hx ⊢
        simp at hx hout ⊢
        omega) }
  · exact h

theorem paddingSound_pfinEffect (h : PaddingSound s) (e : pfinEffect s = .next t) : PaddingSound t := by
  rcases pfinEffect_cases s with ⟨hin, e'⟩ | ⟨-, e'⟩ <;> rw [e'] at e <;> cases e
  have hmax := paddingSound_maxlen_lt h
  have hlen := h.inlenBound
  have hn := npad_le s.inlen.toNat
  have hpad : (BitVec.ofNat 32 (s.inlen.toNat + npad s.inlen.toNat)).toNat = s.inlen.toNat + npad s.inlen.toNat := by
    rw [BitVec.toNat_ofNat]
    omega
  obtain ⟨hwf, hins, -, -, -, -, -⟩ :=
    paddingSound_setBuf (bs := List.replicate (npad s.inlen.toNat) padByte) h (by simpa using hin)
  exact {
    bufCanonical := hwf
    bufInside := hins
    inlenBound := hlen
    maxlenBound := h.maxlenBound
    padlenOpen := by simp
    padlenDone := fun _ => hpad.trans (padlenOf_eq_add_npad _).symm
    written := fun x hx => Memory.isSome_lookup_insertAll fun hout => h.written x (by
      simp only [publishPadding_inlen, publishPadding_padlen, setBuf_inlen, hpad] at hx
      simp only [List.length_replicate] at hout
      omega) }

/-- Every command whose precondition holds keeps the padding part of the invariant. -/
theorem paddingSound_firstStep (h : PaddingSound s) (hp : precondition i s = none) (e : firstStep i s = .next t) :
    PaddingSound t := by
  cases i with
  | nop => cases e; exact h
  | enc => cases e; exact h.congr rfl rfl rfl rfl rfl rfl
  | dec => cases e; exact h.congr rfl rfl rfl rfl rfl rfl
  | pclr => cases e; exact paddingSound_clearPadding h
  | pushb b => exact paddingSound_pushbEffect h (by simpa [precondition, pushbPre] using hp) e
  | pfin => exact paddingSound_pfinEffect h e
  | ldblk idx =>
    obtain ⟨bs, -, rfl⟩ := ldblkEffect_next e
    exact h.congr rfl rfl rfl rfl rfl rfl
  | stblk idx =>
    obtain ⟨-, hin, rfl⟩ := stblkEffect_next e
    exact paddingSound_setBuf h (by simpa using hin)

/-! ### The round counter and `SUM` -/

theorem firstStep_rnd (e : firstStep i s = .next t) : t.rnd = s.rnd ∨ t.rnd = 0 := by
  cases i with
  | nop => cases e; exact .inl rfl
  | enc => cases e; exact .inr rfl
  | dec => cases e; exact .inr rfl
  | pclr => cases e; exact .inl rfl
  | pushb b =>
    simp only [firstStep] at e
    rcases pushbEffect_cases b s with ⟨-, -, e'⟩ | ⟨-, -, e'⟩ | ⟨-, e'⟩ <;> rw [e'] at e <;> cases e <;> exact .inl rfl
  | pfin =>
    simp only [firstStep] at e
    rcases pfinEffect_cases s with ⟨-, e'⟩ | ⟨-, e'⟩ <;> rw [e'] at e <;> cases e
    exact .inl rfl
  | ldblk idx => obtain ⟨bs, -, rfl⟩ := ldblkEffect_next e; exact .inl rfl
  | stblk idx => obtain ⟨-, -, rfl⟩ := stblkEffect_next e; exact .inl rfl

theorem encRound_sum (k : Key) (m : Mix) : (encRound k m).sum = add32 m.sum delta := by rw [encRound]

theorem decRound_sum (k : Key) (m : Mix) : (decRound k m).sum = sub32 m.sum delta := by rw [decRound]

theorem toNat_delta : delta.toNat = 0x9E3779B9 := by rw [delta]; rfl

theorem toNat_decSum0 : decSum0.toNat = 32 * 0x9E3779B9 % 2 ^ 32 := by rw [decSum0]; rfl

theorem toNat_rnd_succ {r : BitVec 6} (h : r.toNat < rounds) : (r + 1).toNat = r.toNat + 1 := by
  have h : r.toNat < 32 := h
  bv_omega

/-- One round more: `SUM` goes from `r * DELTA` to `(r + 1) * DELTA` (40_cipher.md R121). -/
theorem toNat_add32_delta {x : Word} {r : Nat} (h : x.toNat = r * 0x9E3779B9 % 2 ^ 32) :
    (add32 x delta).toNat = (r + 1) * 0x9E3779B9 % 2 ^ 32 := by
  rw [toNat_add32, toNat_delta, h]
  omega

/-- One round more: `SUM` goes from `(32 - r) * DELTA` to `(32 - (r + 1)) * DELTA` (40_cipher.md R123). -/
theorem toNat_sub32_delta {x : Word} {r : Nat} (hr : r < 32) (h : x.toNat = (32 - r) * 0x9E3779B9 % 2 ^ 32) :
    (sub32 x delta).toNat = (32 - (r + 1)) * 0x9E3779B9 % 2 ^ 32 := by
  have e := toNat_sub32_cast x delta
  rw [toNat_delta, h] at e
  omega

/-! ### The ENGINE -/

/-- The first step of a command keeps the invariant: its precondition held until now, and ENC and DEC start with the
sum of no rounds (40_cipher.md R121, R123). -/
theorem consistent_firstStep (hc : Consistent s) (hb : s.busy = true) (hd : decode s.opl = .command i)
    (hg : s.begun = false) (e : firstStep i (startCommand s) = .next t) : Consistent t := by
  have hf := firstStep_frame e
  have hpre : precondition i (startCommand s) = none :=
    (precondition_congr i rfl rfl rfl rfl).trans (((inFlight_iff hd).1 (hc.running hb)).1 hg)
  have hstart : PaddingSound (startCommand s) := hc.paddingSound.congr rfl rfl rfl rfl rfl rfl
  have hpad : PaddingSound t := paddingSound_firstStep hstart hpre e
  refine hpad.consistent_of_running (hf.done.trans (hc.oneOfBusyDone hb)) ?_ ((congrArg decode hf.opl).trans hd)
    (fun h => ?_) (fun _ hi => ?_) (fun _ hi => ?_) (fun _ hi => ?_)
  · rcases firstStep_rnd e with h | h <;> rw [h]
    · exact hc.rndBound
    · decide
  · rw [hf.begun] at h
    cases h
  · rcases hi with rfl | rfl <;> cases e <;> exact hpre
  · subst hi
    cases e
    simp
  · subst hi
    cases e
    exact toNat_decSum0

/-- A round keeps the invariant when its sum is that of one round more. -/
theorem consistent_round {m : Mix} (hc : Consistent s) (hb : s.busy = true) (hd : decode s.opl = .command i)
    (hg : s.begun = true) (hk : KeyHeld s) (hr : s.rnd.toNat < rounds)
    (henc : i = .enc → m.sum.toNat = (s.rnd.toNat + 1) * 0x9E3779B9 % 2 ^ 32)
    (hdec : i = .dec → m.sum.toNat = (32 - (s.rnd.toNat + 1)) * 0x9E3779B9 % 2 ^ 32) :
    Consistent (putMix s m (s.rnd + 1)) := by
  have hrnd := toNat_rnd_succ hr
  refine PaddingSound.consistent_of_running (hc.paddingSound.congr rfl rfl rfl rfl rfl rfl) (hc.oneOfBusyDone hb) ?_ hd
    (fun h => ?_) (fun _ _ => ?_) (fun _ hi => ?_) (fun _ hi => ?_)
  · rw [putMix_rnd, hrnd]
    exact hr
  · rw [putMix_begun, hg] at h
    cases h
  · exact (cipherPre_eq_none_iff _).2 ⟨hk, blockHeld_putMix s m _⟩
  · rw [putMix_sum, putMix_rnd, hrnd]
    exact henc hi
  · rw [putMix_sum, putMix_rnd, hrnd]
    exact hdec hi

theorem consistent_complete (h : PaddingSound s) (hr : s.rnd.toNat ≤ rounds) : Consistent (complete s) :=
  (h.congr (t := complete s) rfl rfl rfl rfl rfl rfl).consistent_of_idle rfl hr

theorem consistent_laterStep (hc : Consistent s) (hb : s.busy = true) (hd : decode s.opl = .command i)
    (hg : s.begun = true) (e : laterStep i s = .next t) : Consistent t := by
  rcases laterStep_cases i s with e' | ⟨rfl, hr, e'⟩ | ⟨rfl, hr, e'⟩ <;> rw [e'] at e
  · cases e
    exact consistent_complete hc.paddingSound hc.rndBound
  · obtain ⟨hk, -, rfl⟩ := encRoundStep_next e
    refine consistent_round hc hb hd hg hk hr (fun _ => ?_) (fun h => by cases h)
    rw [encRound_sum]
    exact toNat_add32_delta (hc.encSum hb hg hd)
  · obtain ⟨hk, -, rfl⟩ := decRoundStep_next e
    refine consistent_round hc hb hd hg hk hr (fun h => by cases h) (fun _ => ?_)
    rw [decRound_sum]
    exact toNat_sub32_delta hr (hc.decSum hb hg hd)

theorem consistent_engineStep (hc : Consistent s) (e : engineStep s = .next t) : Consistent t := by
  rcases engineStep_next e with ⟨-, rfl⟩ | ⟨i, hb, hd, ⟨hg, e⟩ | ⟨hg, e⟩⟩
  · exact hc
  · exact consistent_firstStep hc hb hd hg e
  · exact consistent_laterStep hc hb hd hg e

/-! ### Whole commands and host transactions -/

theorem consistent_exec (hc : Consistent s) (e : exec i s = .next t) : Consistent t := by
  have hstart : PaddingSound (startCommand (accept s (encode i))) := hc.paddingSound.congr rfl rfl rfl rfl rfl rfl
  by_cases he : i = .enc
  · subst he
    obtain ⟨-, -, rfl⟩ := execEnc_next e
    exact consistent_complete (hstart.congr rfl rfl rfl rfl rfl rfl) (by simp [rounds])
  · by_cases hd : i = .dec
    · subst hd
      obtain ⟨-, -, rfl⟩ := execDec_next e
      exact consistent_complete (hstart.congr rfl rfl rfl rfl rfl rfl) (by simp [rounds])
    · rw [exec_eq_perform s he hd] at e
      obtain ⟨-, hpre, u, hu, rfl⟩ := perform_next e
      refine consistent_complete
        (paddingSound_firstStep hstart ((precondition_congr i rfl rfl rfl rfl).trans hpre) hu) ?_
      rcases firstStep_rnd hu with h | h <;> rw [h]
      · exact hc.rndBound
      · decide

/-- A command accepted with its precondition is one that the ENGINE can go on with (43_control.md R201). -/
theorem consistent_accept {w : Word} (hc : Consistent s) (hd : decode w = .command i)
    (hp : precondition i s = none) : Consistent (accept s w) := by
  exact PaddingSound.consistent_of_running (hc.paddingSound.congr rfl rfl rfl rfl rfl rfl) rfl hc.rndBound hd
    (fun _ => (precondition_congr i rfl rfl rfl rfl).trans hp) (fun h => by cases h) (fun h => by cases h)
    (fun h => by cases h)

/-- A `MAXLEN` write before the first byte of a message keeps the lengths in bounds (10_state.md R33, R40 a). -/
theorem consistent_setMaxlen {w : Word} (hc : Consistent s) (hb : s.busy = false) (hin : s.inlen = 0) :
    Consistent (setMaxlen s w) :=
  .of_idle hb hc.bufCanonical hc.bufInside (by simp [hin])
    (by rw [setMaxlen_maxlen, setMaxlen_cfg, BitVec.toNat_ofNat]
        exact (Nat.mod_le _ _).trans (Nat.min_le_right _ _))
    hc.padlenOpen hc.padlenDone hc.written hc.rndBound

theorem consistent_setData {r : RegName} {w : Word} (hc : Consistent s) (hb : s.busy = false) :
    Consistent (setData s r w) := by
  cases r with
  | k i => exact (hc.paddingSound.congr (t := setK s i w) rfl rfl rfl rfl rfl rfl).consistent_of_idle hb hc.rndBound
  | v i => exact (hc.paddingSound.congr (t := setV s i w) rfl rfl rfl rfl rfl rfl).consistent_of_idle hb hc.rndBound

theorem consistent_busStep {a : Transaction} (hc : Consistent s) (e : busStep a s = .next t) : Consistent t := by
  cases a with
  | read off width =>
    obtain ⟨-, -, w, -, rfl⟩ := busStep_read_next e
    exact hc.logRead w
  | write off width w =>
    obtain ⟨-, hb, h⟩ := busStep_write_next e
    rcases h with ⟨-, ⟨i, hd, hp⟩, rfl⟩ | ⟨-, hin, -, rfl⟩ | ⟨r, -, rfl⟩ | ⟨-, rfl⟩
    · exact consistent_accept hc hd hp
    · exact consistent_setMaxlen hc hb hin
    · exact consistent_setData hc hb
    · exact hc

theorem consistent_runMove {m : Move} (hc : Consistent s) (e : runMove m s = .next t) : Consistent t := by
  cases m with
  | bus a => exact consistent_busStep hc e
  | command w =>
    obtain ⟨-, i, -, e⟩ := wholeCommand_next e
    exact consistent_exec hc e
  | engine => exact consistent_engineStep hc e
  | wait =>
    rcases waitStep_next e with rfl | ⟨u, hu, rfl⟩
    · exact hc.logRead _
    · exact (consistent_engineStep (hc.logRead _) hu).setAgenda _
  | rst =>
    cases e
    rw [resetBlock_eq_withEnv]
    exact (consistent_resetOf _).withEnv _ _

end Sys2Proof.Machine
end

section
namespace Sys2Proof.Proofs

open Sys2Proof.Machine

/-- Settles O16: with moves to come by the kind of the next move, with none by the step of the ENGINE. -/
theorem invariantKept : Obligations.InvariantKept := by
  intro s t hc e
  cases ha : s.agenda with
  | nil => rw [step_empty ha] at e; exact consistent_engineStep hc e
  | cons m rest => rw [step_move ha] at e; exact consistent_runMove (hc.setAgenda rest) e

end Sys2Proof.Proofs
end

section
/-! PROOFS. Steps from two states that differ only in what no rule reads end alike. The proofs carry `SameData`, which
leaves out the ENGINE's own state (`OPL`, the started mark, `RND`, `SUM`): inside a step these may differ until the
first step of ENC or DEC sets them. -/

namespace Sys2Proof.Machine

variable {s t s' t' : State} {i : Instr} {R R' : State → State → Prop} {o o' : Result}

/-! ### Ending alike -/

theorem EndAlike.fault (f : Fault) : EndAlike R (.fault f) (.fault f) := rfl

/-- Every way in which two steps can end alike. -/
theorem EndAlike.inv (h : EndAlike R o o') : (∃ u u', o = .next u ∧ o' = .next u' ∧ R u u') ∨
    (∃ f, o = .fault f ∧ o' = .fault f) ∨ (∃ f, o = .refused f ∧ o' = .refused f) := by
  cases o <;> cases o'
  case next.next u u' => exact .inl ⟨u, u', rfl, rfl, h⟩
  case fault.fault f g => obtain rfl : f = g := h; exact .inr (.inl ⟨f, rfl, rfl⟩)
  case refused.refused f g => obtain rfl : f = g := h; exact .inr (.inr ⟨f, rfl, rfl⟩)
  all_goals exact h.elim

/-- A weaker relation of the next states, which may use where they come from. -/
theorem EndAlike.imp (h : EndAlike R o o') (hR : ∀ u u', o = .next u → o' = .next u' → R u u' → R' u u') :
    EndAlike R' o o' := by
  rcases h.inv with ⟨u, u', rfl, rfl, hu⟩ | ⟨f, rfl, rfl⟩ | ⟨f, rfl, rfl⟩
  · exact hR u u' rfl rfl hu
  · exact .fault f
  · exact h

theorem EndAlike.seq {f f' : State → Result} (h : EndAlike R o o')
    (hR : ∀ u u', R u u' → EndAlike R' (f u) (f' u')) : EndAlike R' (andThen o f) (andThen o' f') := by
  rcases h.inv with ⟨u, u', rfl, rfl, hu⟩ | ⟨r, rfl, rfl⟩ | ⟨r, rfl, rfl⟩
  · exact hR u u' hu
  · exact .fault r
  · exact h

/-! ### What the operands and the window read -/

theorem Reg.Same.refl (r : Reg) : r.Same r := ⟨rfl, fun _ => rfl⟩

theorem Reg.Same.read_eq {r r' : Reg} (h : r.Same r') (n : RegName) : r.read n = r'.read n := by
  obtain ⟨hheld, hword⟩ := h
  cases hr : r.held with
  | false => rw [Reg.read_blank n hr, Reg.read_blank n (hheld.symm.trans hr)]
  | true => rw [Reg.read_held n hr, Reg.read_held n (hheld.symm.trans hr), hword hr]

/-- `Same` without the ENGINE's own state. -/
structure SameData (s t : State) : Prop where
  cfg : s.cfg = t.cfg
  k : ∀ i : Fin 4, (s.k[i]).Same t.k[i]
  v : ∀ i : Fin 2, (s.v[i]).Same t.v[i]
  maxlen : s.maxlen = t.maxlen
  inlen : s.inlen = t.inlen
  padlen : s.padlen = t.padlen
  busy : s.busy = t.busy
  done : s.done = t.done
  padded : s.padded = t.padded
  buf : ∀ a, a < max s.inlen.toNat s.padlen.toNat → Memory.lookup s.buf a = Memory.lookup t.buf a
  agenda : s.agenda = t.agenda
  reads : s.reads = t.reads

theorem Same.data (h : Same s t) : SameData s t :=
  ⟨h.cfg, h.k, h.v, h.maxlen, h.inlen, h.padlen, h.busy, h.done, h.padded, h.buf, h.agenda, h.reads⟩

/-- States alike in their data are the same to every rule when what a running command uses of the ENGINE is equal. -/
theorem SameData.same (h : SameData s t) (hopl : s.busy = true → s.opl = t.opl)
    (hbegun : s.busy = true → s.begun = t.begun)
    (hmix : s.busy = true → s.begun = true → (decode s.opl = .command .enc ∨ decode s.opl = .command .dec) →
      s.sum = t.sum ∧ s.rnd = t.rnd) : Same s t :=
  ⟨h.cfg, h.k, h.v, h.maxlen, h.inlen, h.padlen, h.busy, h.done, h.padded, hopl, hbegun, hmix, h.buf, h.agenda, h.reads⟩

theorem SameData.same_of_idle (h : SameData s t) (hb : s.busy = false) : Same s t := by
  apply h.same <;> simp [hb]

theorem Same.refl (s : State) : Same s s :=
  ⟨rfl, fun _ => .refl _, fun _ => .refl _, rfl, rfl, rfl, rfl, rfl, rfl, fun _ => rfl, fun _ => rfl,
    fun _ _ _ => ⟨rfl, rfl⟩, fun _ _ => rfl, rfl, rfl⟩

theorem SameData.keyOperand_eq (h : SameData s t) : keyOperand s = keyOperand t := by
  have e0 : s.k[0].read (.k 0) = t.k[0].read (.k 0) := (h.k 0).read_eq _
  have e1 : s.k[1].read (.k 1) = t.k[1].read (.k 1) := (h.k 1).read_eq _
  have e2 : s.k[2].read (.k 2) = t.k[2].read (.k 2) := (h.k 2).read_eq _
  have e3 : s.k[3].read (.k 3) = t.k[3].read (.k 3) := (h.k 3).read_eq _
  simp only [keyOperand, e0, e1, e2, e3]

theorem SameData.blockOperand_eq (h : SameData s t) : blockOperand s = blockOperand t := by
  have e0 : s.v[0].read (.v 0) = t.v[0].read (.v 0) := (h.v 0).read_eq _
  have e1 : s.v[1].read (.v 1) = t.v[1].read (.v 1) := (h.v 1).read_eq _
  simp only [blockOperand, e0, e1]

theorem SameData.cipherOperands_eq (h : SameData s t) : cipherOperands s = cipherOperands t := by
  simp only [cipherOperands, h.keyOperand_eq, h.blockOperand_eq]

theorem SameData.precondition_eq (h : SameData s t) (i : Instr) : precondition i s = precondition i t := by
  cases i <;> simp only [precondition, cipherPre, pushbPre, pfinPre, rangePre, stblkPre, h.cipherOperands_eq,
    h.blockOperand_eq, h.padded, h.padlen]

theorem SameData.statusWord_eq (h : SameData s t) : statusWord s = statusWord t := by
  simp only [statusWord, h.busy, h.done, h.padded]

theorem SameData.readWindow_eq (h : SameData s t) (r : WindowReg) : readWindow s r = readWindow t r := by
  cases r with
  | cmd => rfl
  | status => simp only [readWindow, h.statusWord_eq]
  | maxlen => simp only [readWindow, h.maxlen]
  | inlen => simp only [readWindow, h.inlen]
  | padlen => simp only [readWindow, h.padlen]
  | data r =>
    cases r with
    | k i => exact (h.k i).read_eq _
    | v i => exact (h.v i).read_eq _
  | reserved => rfl

/-! ### The updates of the state -/

theorem sameData_start (h : SameData s t) (w : Word) :
    SameData (startCommand (accept s w)) (startCommand (accept t w)) :=
  ⟨h.cfg, h.k, h.v, h.maxlen, h.inlen, h.padlen, rfl, rfl, h.padded, h.buf, h.agenda, h.reads⟩

theorem sameData_complete (h : SameData s t) : SameData (complete s) (complete t) :=
  ⟨h.cfg, h.k, h.v, h.maxlen, h.inlen, h.padlen, rfl, rfl, h.padded, h.buf, h.agenda, h.reads⟩

theorem sameData_setMix (h : SameData s t) (x x' : Word) (r r' : BitVec 6) :
    SameData (setMix s x r) (setMix t x' r') :=
  ⟨h.cfg, h.k, h.v, h.maxlen, h.inlen, h.padlen, h.busy, h.done, h.padded, h.buf, h.agenda, h.reads⟩

theorem sameData_setBlock (h : SameData s t) (v0 v1 : Word) : SameData (setBlock s v0 v1) (setBlock t v0 v1) :=
  ⟨h.cfg, h.k, fun _ => .refl _, h.maxlen, h.inlen, h.padlen, h.busy, h.done, h.padded, h.buf, h.agenda, h.reads⟩

theorem sameData_putMix (h : SameData s t) (m : Mix) (r : BitVec 6) : SameData (putMix s m r) (putMix t m r) :=
  sameData_setBlock (sameData_setMix h _ _ _ _) _ _

theorem sameData_setMaxlen (h : SameData s t) (w : Word) : SameData (setMaxlen s w) (setMaxlen t w) :=
  ⟨h.cfg, h.k, h.v, by simp only [setMaxlen_maxlen, h.cfg], h.inlen, h.padlen, h.busy, h.done, h.padded, h.buf,
    h.agenda, h.reads⟩

theorem sameData_clearPadding (h : SameData s t) : SameData (clearPadding s) (clearPadding t) :=
  ⟨h.cfg, h.k, h.v, h.maxlen, rfl, rfl, h.busy, h.done, rfl, by simp, h.agenda, h.reads⟩

theorem Reg.Same.set_written {n : Nat} {x y : Vector Reg n} (h : ∀ j : Fin n, (x[j]).Same y[j]) (i : Fin n) (w : Word) :
    ∀ j : Fin n, ((x.set i (.written w))[j]).Same (y.set i (.written w))[j] := by
  intro j
  by_cases hij : i = j
  · subst hij
    simp [Reg.Same.refl]
  · have hne : i.val ≠ j.val := fun e => hij (Fin.ext e)
    simpa [Vector.getElem_set_ne _ _ hne] using h j

theorem sameData_setData (h : SameData s t) (r : RegName) (w : Word) : SameData (setData s r w) (setData t r w) := by
  cases r with
  | k i =>
    exact ⟨h.cfg, Reg.Same.set_written h.k i w, h.v, h.maxlen, h.inlen, h.padlen, h.busy, h.done, h.padded, h.buf,
      h.agenda, h.reads⟩
  | v i =>
    exact ⟨h.cfg, h.k, Reg.Same.set_written h.v i w, h.maxlen, h.inlen, h.padlen, h.busy, h.done, h.padded, h.buf,
      h.agenda, h.reads⟩

theorem same_setAgenda (h : Same s t) (ms : List Move) : Same (setAgenda s ms) (setAgenda t ms) :=
  ⟨h.cfg, h.k, h.v, h.maxlen, h.inlen, h.padlen, h.busy, h.done, h.padded, h.opl, h.begun, h.mix, h.buf, rfl, h.reads⟩

theorem same_logRead (h : Same s t) (w : Word) : Same (logRead s w) (logRead t w) :=
  ⟨h.cfg, h.k, h.v, h.maxlen, h.inlen, h.padlen, h.busy, h.done, h.padded, h.opl, h.begun, h.mix, h.buf, h.agenda,
    by simp only [logRead_reads, h.reads]⟩

/-! ### The effects of the commands -/

/-- Both MemWrites happen or both leave `BUF`. -/
theorem memWrite_endAlike (hcfg : s.cfg = t.cfg) (a : Nat) (bs : List Byte)
    (hR : R (setBuf s (Memory.insertAll s.buf a bs)) (setBuf t (Memory.insertAll t.buf a bs))) :
    EndAlike R (memWrite s a bs) (memWrite t a bs) := by
  have hbytes : bufBytes s = bufBytes t := by simp only [bufBytes, hcfg]
  rcases memWrite_cases s a bs with ⟨hs, es⟩ | ⟨hs, es⟩ <;> rcases memWrite_cases t a bs with ⟨ht, et⟩ | ⟨ht, et⟩ <;>
    rw [es, et]
  · exact hR
  · omega
  · omega
  · exact .fault _

/-- Going on from two MemWrites of the same bytes. -/
theorem memWrite_seq_endAlike {f f' : State → Result} (hcfg : s.cfg = t.cfg) (a : Nat) (bs : List Byte)
    (hR : EndAlike R (f (setBuf s (Memory.insertAll s.buf a bs))) (f' (setBuf t (Memory.insertAll t.buf a bs)))) :
    EndAlike R (andThen (memWrite s a bs) f) (andThen (memWrite t a bs) f') :=
  (memWrite_endAlike (R := fun u u' => EndAlike R (f u) (f' u')) hcfg a bs hR).seq fun _ _ h => h

/-- The same bytes written to both: a byte among them reads alike, and every other byte as before. -/
theorem Memory.lookup_insertAll_congr {m m' : Memory} {a x : Nat} {bs : List Byte}
    (h : x < a ∨ a + bs.length ≤ x → Memory.lookup m x = Memory.lookup m' x) :
    Memory.lookup (Memory.insertAll m a bs) x = Memory.lookup (Memory.insertAll m' a bs) x := by
  rw [Memory.lookup_insertAll, Memory.lookup_insertAll]
  split
  · rfl
  · exact h (by omega)

theorem sameData_pushbEffect (h : SameData s t) (b : Byte) :
    EndAlike SameData (pushbEffect b s) (pushbEffect b t) := by
  unfold pushbEffect
  rw [← h.inlen, ← h.maxlen]
  split
  · have hlen : (s.inlen + 1).toNat ≤ s.inlen.toNat + 1 := by bv_omega
    refine memWrite_seq_endAlike h.cfg _ _ ?_
    refine ⟨h.cfg, h.k, h.v, h.maxlen, by simp [h.inlen], h.padlen, h.busy, h.done, h.padded, fun x hx => ?_,
      h.agenda, h.reads⟩
    refine Memory.lookup_insertAll_congr fun hout => h.buf x ?_
    simp only [setInlen_inlen, setInlen_padlen, setBuf_inlen, setBuf_padlen] at hx
    simp only [List.length_singleton] at hout
    omega
  · exact h

theorem sameData_pfinEffect (h : SameData s t) : EndAlike SameData (pfinEffect s) (pfinEffect t) := by
  unfold pfinEffect
  rw [← h.inlen]
  have hlen : (BitVec.ofNat 32 (s.inlen.toNat + npad s.inlen.toNat)).toNat ≤ s.inlen.toNat + npad s.inlen.toNat := by
    rw [BitVec.toNat_ofNat]
    exact Nat.mod_le _ _
  refine memWrite_seq_endAlike h.cfg _ _ ?_
  refine ⟨h.cfg, h.k, h.v, h.maxlen, h.inlen, rfl, h.busy, h.done, rfl, fun x hx => ?_, h.agenda, h.reads⟩
  refine Memory.lookup_insertAll_congr fun hout => h.buf x ?_
  simp only [publishPadding_inlen, publishPadding_padlen, setBuf_inlen] at hx
  simp only [List.length_replicate] at hout
  omega

/-- A block in range lies below `PADLEN`, where the bytes are alike. -/
theorem sameData_ldblkEffect (h : SameData s t) {idx : Nat} (hr : rangePre idx s = none) :
    EndAlike SameData (ldblkEffect idx s) (ldblkEffect idx t) := by
  obtain ⟨-, hidx⟩ := (rangePre_eq_none_iff idx s).1 hr
  have hmem : memRead s (blockAddr idx) 8 = memRead t (blockAddr idx) 8 :=
    memRead_congr h.cfg fun j hj => h.buf _ (by unfold blockAddr; omega)
  unfold ldblkEffect
  rw [hmem]
  cases memRead t (blockAddr idx) 8 with
  | error f => exact .fault f
  | ok bs => exact sameData_setBlock h _ _

theorem sameData_stblkEffect (h : SameData s t) (idx : Nat) :
    EndAlike SameData (stblkEffect idx s) (stblkEffect idx t) := by
  unfold stblkEffect
  rw [h.blockOperand_eq]
  cases blockOperand t with
  | error f => exact .fault f
  | ok v =>
    exact memWrite_endAlike h.cfg _ _ ⟨h.cfg, h.k, h.v, h.maxlen, h.inlen, h.padlen, h.busy, h.done, h.padded,
      fun x hx => Memory.lookup_insertAll_congr fun _ => h.buf x hx, h.agenda, h.reads⟩

theorem sameData_firstStep (h : SameData s t) (hp : precondition i s = none) :
    EndAlike SameData (firstStep i s) (firstStep i t) := by
  cases i with
  | nop => exact h
  | enc => exact sameData_setMix h _ _ _ _
  | dec => exact sameData_setMix h _ _ _ _
  | pclr => exact sameData_clearPadding h
  | pushb b => exact sameData_pushbEffect h b
  | pfin => exact sameData_pfinEffect h
  | ldblk idx => exact sameData_ldblkEffect h hp
  | stblk idx => exact sameData_stblkEffect h idx

theorem sameData_encEffect (h : SameData s t) : EndAlike SameData (encEffect s) (encEffect t) := by
  unfold encEffect
  rw [h.cipherOperands_eq]
  cases cipherOperands t with
  | error f => exact .fault f
  | ok kv => exact sameData_putMix h _ _

theorem sameData_decEffect (h : SameData s t) : EndAlike SameData (decEffect s) (decEffect t) := by
  unfold decEffect
  rw [h.cipherOperands_eq]
  cases cipherOperands t with
  | error f => exact .fault f
  | ok kv => exact sameData_putMix h _ _

/-! ### Whole commands -/

/-- After completion nothing of the ENGINE is in use, so states alike in their data are the same. -/
theorem same_perform {effect : State → Result} (h : Same s t)
    (he : precondition i s = none → EndAlike SameData (effect (startCommand (accept s (encode i))))
      (effect (startCommand (accept t (encode i))))) :
    EndAlike Same (perform i (precondition i s) effect s) (perform i (precondition i t) effect t) := by
  rw [← h.data.precondition_eq i]
  cases hb : s.busy with
  | true => rw [perform_busy hb, perform_busy (h.busy.symm.trans hb)]; exact .fault _
  | false =>
    have hb' := h.busy.symm.trans hb
    cases hp : precondition i s with
    | some f => rw [perform_violation hb rfl, perform_violation hb' rfl]; exact .fault _
    | none =>
      simp only [perform, hb, hb']
      exact (he hp).seq fun u u' hu => (sameData_complete hu).same_of_idle rfl

theorem same_exec (h : Same s t) (i : Instr) : EndAlike Same (exec i s) (exec i t) := by
  have hstart := sameData_start h.data (encode i)
  by_cases he : i = .enc
  · subst he
    exact same_perform (i := .enc) h fun _ => sameData_encEffect hstart
  · by_cases hd : i = .dec
    · subst hd
      exact same_perform (i := .dec) h fun _ => sameData_decEffect hstart
    · rw [exec_eq_perform s he hd, exec_eq_perform t he hd]
      exact same_perform h fun hp => sameData_firstStep hstart ((precondition_congr i rfl rfl rfl rfl).trans hp)

theorem same_wholeCommand (h : Same s t) (w : Word) : EndAlike Same (wholeCommand w s) (wholeCommand w t) := by
  unfold wholeCommand
  rw [← h.busy]
  split
  · exact .fault _
  · split
    · exact .fault _
    · exact same_exec h _

/-! ### The ENGINE -/

/-- The first step of ENC or DEC sets `SUM` and `RND` to constants, so that no earlier value of them is left. -/
theorem firstStep_mix (hi : i = .enc ∨ i = .dec) (e : firstStep i s = .next s') (e' : firstStep i t = .next t') :
    s'.sum = t'.sum ∧ s'.rnd = t'.rnd := by
  rcases hi with rfl | rfl <;> cases e <;> cases e' <;> exact ⟨rfl, rfl⟩

theorem same_firstStep (h : Same s t) (hb : s.busy = true) (hd : decode s.opl = .command i)
    (hp : precondition i s = none) :
    EndAlike Same (firstStep i (startCommand s)) (firstStep i (startCommand t)) := by
  have hstart : SameData (startCommand s) (startCommand t) :=
    ⟨h.cfg, h.k, h.v, h.maxlen, h.inlen, h.padlen, h.busy, h.done, h.padded, h.buf, h.agenda, h.reads⟩
  refine (sameData_firstStep hstart ((precondition_congr i rfl rfl rfl rfl).trans hp)).imp fun u u' e e' hu => ?_
  have hf := firstStep_frame e
  have hf' := firstStep_frame e'
  refine hu.same (fun _ => ?_) (fun _ => hf.begun.trans hf'.begun.symm) fun _ _ hmix => firstStep_mix ?_ e e'
  · exact hf.opl.trans ((h.opl hb).trans hf'.opl.symm)
  · rw [hf.opl, startCommand_opl, hd] at hmix
    exact hmix.imp Decoded.command.inj Decoded.command.inj

theorem same_complete (h : Same s t) : Same (complete s) (complete t) :=
  (sameData_complete h.data).same_of_idle rfl

theorem same_putMix (h : Same s t) (m : Mix) (r : BitVec 6) : Same (putMix s m r) (putMix t m r) :=
  (sameData_putMix h.data m r).same h.opl h.begun fun _ _ _ => ⟨rfl, rfl⟩

theorem same_encRoundStep (h : Same s t) (hsum : s.sum = t.sum) (hrnd : s.rnd = t.rnd) :
    EndAlike Same (encRoundStep s) (encRoundStep t) := by
  unfold encRoundStep
  rw [h.data.cipherOperands_eq, hsum, hrnd]
  cases cipherOperands t with
  | error f => exact .fault f
  | ok kv => exact same_putMix h _ _

theorem same_decRoundStep (h : Same s t) (hsum : s.sum = t.sum) (hrnd : s.rnd = t.rnd) :
    EndAlike Same (decRoundStep s) (decRoundStep t) := by
  unfold decRoundStep
  rw [h.data.cipherOperands_eq, hsum, hrnd]
  cases cipherOperands t with
  | error f => exact .fault f
  | ok kv => exact same_putMix h _ _

theorem same_laterStep (h : Same s t) (hmix : i = .enc ∨ i = .dec → s.sum = t.sum ∧ s.rnd = t.rnd) :
    EndAlike Same (laterStep i s) (laterStep i t) := by
  by_cases he : i = .enc
  · subst he
    obtain ⟨hsum, hrnd⟩ := hmix (.inl rfl)
    simp only [laterStep, ← hrnd]
    split
    · exact same_encRoundStep h hsum hrnd
    · exact same_complete h
  · by_cases hd : i = .dec
    · subst hd
      obtain ⟨hsum, hrnd⟩ := hmix (.inr rfl)
      simp only [laterStep, ← hrnd]
      split
      · exact same_decRoundStep h hsum hrnd
      · exact same_complete h
    · rw [laterStep_effect s he hd, laterStep_effect t he hd]
      exact same_complete h

theorem same_engineStep (hc : Consistent s) (h : Same s t) : EndAlike Same (engineStep s) (engineStep t) := by
  cases hb : s.busy with
  | false =>
    rw [engineStep_idle hb, engineStep_idle (h.busy.symm.trans hb)]
    exact h
  | true =>
    have hb' := h.busy.symm.trans hb
    cases hd : decode s.opl with
    | illegal why => exact absurd (hc.running hb) (by rw [inFlight, hd]; exact id)
    | command i =>
      have hd' : decode t.opl = .command i := by rw [← h.opl hb]; exact hd
      obtain ⟨hpre, -⟩ := (inFlight_iff hd).1 (hc.running hb)
      cases hg : s.begun with
      | false =>
        rw [engineStep_first hb hd hg, engineStep_first hb' hd' ((h.begun hb).symm.trans hg)]
        exact same_firstStep h hb hd (hpre hg)
      | true =>
        rw [engineStep_later hb hd hg, engineStep_later hb' hd' ((h.begun hb).symm.trans hg)]
        refine same_laterStep h fun hi => h.mix hb hg ?_
        rw [hd]
        exact hi.imp (congrArg _) (congrArg _)

/-! ### Host transactions and the other moves -/

theorem same_accept (h : Same s t) (w : Word) : Same (accept s w) (accept t w) :=
  ⟨h.cfg, h.k, h.v, h.maxlen, h.inlen, h.padlen, rfl, rfl, h.padded, fun _ => rfl, fun _ => rfl,
    (fun _ hg => by cases hg), h.buf, h.agenda, h.reads⟩

theorem same_issue (h : Same s t) (w : Word) : EndAlike Same (issue w s) (issue w t) := by
  unfold issue
  cases decode w with
  | illegal why => exact .fault _
  | command i =>
    simp only [← h.data.precondition_eq i]
    cases precondition i s with
    | some f => exact .fault f
    | none => exact same_accept h w

theorem same_writeWindow (h : Same s t) (hb : s.busy = false) (r : WindowReg) (w : Word) :
    EndAlike Same (writeWindow s r w) (writeWindow t r w) := by
  cases r with
  | cmd => exact same_issue h w
  | maxlen =>
    simp only [writeWindow, writeMaxlen, ← h.inlen, ← h.padded]
    split
    · exact (sameData_setMaxlen h.data w).same_of_idle hb
    · exact .fault _
  | data r =>
    refine (sameData_setData h.data r w).same_of_idle ?_
    cases r <;> exact hb
  | status => exact h
  | inlen => exact h
  | padlen => exact h
  | reserved => exact h

theorem same_busStep (h : Same s t) (a : Transaction) : EndAlike Same (busStep a s) (busStep a t) := by
  cases a with
  | read off width =>
    simp only [busStep, ← h.busy, ← h.data.readWindow_eq]
    split
    · split
      · exact .fault _
      · cases readWindow s (windowReg off) with
        | error f => exact .fault f
        | ok w => exact same_logRead h w
    · exact .fault _
  | write off width w =>
    simp only [busStep, ← h.busy]
    split
    · split
      · exact .fault _
      · next hb => exact same_writeWindow h (by simpa using hb) _ w
    · exact .fault _

theorem same_waitStep (hc : Consistent s) (h : Same s t) : EndAlike Same (waitStep s) (waitStep t) := by
  have hlog : Same (logRead s (statusWord s)) (logRead t (statusWord t)) := by
    rw [← h.data.statusWord_eq]
    exact same_logRead h _
  cases hb : s.busy with
  | false =>
    rw [waitStep_idle hb, waitStep_idle (h.busy.symm.trans hb)]
    exact hlog
  | true =>
    rw [waitStep_busy hb, waitStep_busy (h.busy.symm.trans hb)]
    refine (same_engineStep (hc.logRead _) hlog).seq fun u u' hu => ?_
    rw [← hu.agenda]
    exact same_setAgenda hu _

/-- What a reset leaves depends on the parameters and the environment only. -/
theorem same_resetBlock (h : Same s t) : Same (resetBlock s) (resetBlock t) := by
  rw [resetBlock_eq_withEnv, resetBlock_eq_withEnv, h.cfg, h.agenda, h.reads]
  exact .refl _

theorem same_runMove (hc : Consistent s) (h : Same s t) (m : Move) : EndAlike Same (runMove m s) (runMove m t) := by
  cases m with
  | bus a => exact same_busStep h a
  | command w => exact same_wholeCommand h w
  | engine => exact same_engineStep hc h
  | wait => exact same_waitStep hc h
  | rst => exact same_resetBlock h

end Sys2Proof.Machine
end

section
namespace Sys2Proof.Proofs

open Sys2Proof.Machine

/-- Settles O21: both states have the same move to come, or none. The invariant of one of them is enough, since `Same`
carries over what a step needs of it. -/
theorem hiddenStateUnobservable : Obligations.HiddenStateUnobservable := by
  intro s t hc _ h
  cases ha : s.agenda with
  | nil =>
    rw [step_empty ha, step_empty (h.agenda.symm.trans ha)]
    exact same_engineStep hc h
  | cons m rest =>
    rw [step_move ha, step_move (h.agenda.symm.trans ha)]
    exact same_runMove (hc.setAgenda rest) (same_setAgenda h rest) m

end Sys2Proof.Proofs
end

section
/-! PROOFS. HOST accesses repeated (20_memory.md R68): a read of the same register returns the same word again, and a
write of the same word leaves the register as it is. -/

namespace Sys2Proof.Machine

variable {s t : State} {off : Nat} {w : Word}

theorem readWindow_logRead (s : State) (r : WindowReg) (w : Word) : readWindow (logRead s w) r = readWindow s r := by
  cases r <;> rfl

theorem logRead_logRead (s : State) (w w' : Word) :
    logRead (logRead s w) w' = { s with reads := s.reads ++ [w, w'] } := by
  simp [logRead]

@[simp] theorem setData_busy (s : State) (r : RegName) (w : Word) : (setData s r w).busy = s.busy := by
  cases r <;> rfl

theorem setData_setData (s : State) (r : RegName) (w w' : Word) : setData (setData s r w) r w' = setData s r w' := by
  cases r <;> simp [setData, setK, setV]

/-- A write to `K[i]` reaches no other register of the key (43_control.md R204). -/
theorem setK_getElem_ne {i j : Fin 4} (h : i ≠ j) : (setK s i w).k[j] = s.k[j] :=
  Vector.getElem_set_ne i.isLt j.isLt (Fin.val_ne_of_ne h)

/-- A write to `V[i]` does not reach the other word of the block (43_control.md R204). -/
theorem setV_getElem_ne {i j : Fin 2} (h : i ≠ j) : (setV s i w).v[j] = s.v[j] :=
  Vector.getElem_set_ne i.isLt j.isLt (Fin.val_ne_of_ne h)

/-- What a HOST write at offset `off` may change: `MAXLEN`, or the one data register that lies there
(10_state.md R36, 20_memory.md R68). -/
structure WriteFrame (off : Nat) (s t : State) : Prop where
  frame : t = { s with k := t.k, v := t.v, maxlen := t.maxlen }
  maxlen : off ≠ 0x08 → t.maxlen = s.maxlen
  k : ∀ i : Fin 4, off ≠ 0x20 + 4 * i.val → t.k[i] = s.k[i]
  v : ∀ i : Fin 2, off ≠ 0x30 + 4 * i.val → t.v[i] = s.v[i]

theorem WriteFrame.refl (off : Nat) (s : State) : WriteFrame off s s :=
  ⟨rfl, fun _ => rfl, fun _ _ => rfl, fun _ _ => rfl⟩

theorem writeFrame_setMaxlen (s : State) (w : Word) : WriteFrame 0x08 s (setMaxlen s w) :=
  ⟨rfl, fun h => absurd rfl h, fun _ _ => rfl, fun _ _ => rfl⟩

theorem writeFrame_setData {r : RegName} (h : windowReg off = .data r) (s : State) (w : Word) :
    WriteFrame off s (setData s r w) := by
  cases r with
  | k i =>
    obtain rfl := windowReg_eq_k h
    exact ⟨rfl, fun _ => rfl, fun j hj => setK_getElem_ne fun e => hj (by rw [e]), fun _ _ => rfl⟩
  | v i =>
    obtain rfl := windowReg_eq_v h
    exact ⟨rfl, fun _ => rfl, fun _ _ => rfl, fun j hj => setV_getElem_ne fun e => hj (by rw [e])⟩

/-- Outside the offsets of the key the whole key is kept. -/
theorem WriteFrame.k_eq (h : WriteFrame off s t) (hoff : off < 0x20 ∨ 0x2C < off) : t.k = s.k := by
  ext i hi : 1
  exact h.k ⟨i, hi⟩ (by omega)

/-- Outside the offsets of the block the whole block is kept. -/
theorem WriteFrame.v_eq (h : WriteFrame off s t) (hoff : off < 0x30 ∨ 0x34 < off) : t.v = s.v := by
  ext i hi : 1
  exact h.v ⟨i, hi⟩ (by omega)

/-- A write other than to `CMD` that answers a next state keeps all but the register at its offset, and writing the
same word again changes nothing more. -/
theorem busStep_write_repeat (h : busStep (.write off .word w) s = .next t) (hoff : off ≠ 0x00) :
    WriteFrame off s t ∧ busStep (.write off .word w) t = .next t := by
  obtain ⟨hv, hb, ⟨hr, -, -⟩ | ⟨hr, hin, hp, rfl⟩ | ⟨r, hr, rfl⟩ | ⟨hr, rfl⟩⟩ := busStep_write_next h
  · exact absurd (windowReg_eq_cmd hr) hoff
  · obtain rfl := windowReg_eq_maxlen hr
    refine ⟨writeFrame_setMaxlen s w, ?_⟩
    rw [busStep_write_idle hv (by exact hb), hr]
    exact if_pos ⟨hin, hp⟩
  · refine ⟨writeFrame_setData hr s w, ?_⟩
    rw [busStep_write_idle hv (by rwa [setData_busy]), hr, writeWindow, setData_setData]
  · exact ⟨.refl off _, h⟩

/-- A write to `CMD` that answers a next state only latches the command word (43_control.md R201). -/
theorem busStep_write_cmd (h : busStep (.write 0x00 .word w) s = .next t) : t = accept s w := by
  obtain ⟨-, -, ⟨-, -, e⟩ | ⟨hr, -⟩ | ⟨r, hr, -⟩ | ⟨hr, -⟩⟩ := busStep_write_next h
  · exact e
  all_goals simp [windowReg] at hr

end Sys2Proof.Machine
end

section
/-! PROOFS. What the commands do to the bytes of `BUF`, and which bytes a load looks at (20_memory.md R62, R76). -/

namespace Sys2Proof.Machine

variable {s t : State}

/-- The commands that store nothing in `BUF` leave it as it is (20_memory.md R62). -/
theorem exec_buf_eq {i : Instr} (hi : i = .nop ∨ i = .enc ∨ i = .dec ∨ i = .pclr ∨ ∃ idx, i = .ldblk idx)
    (h : exec i s = .next t) : t.buf = s.buf := by
  rcases hi with rfl | rfl | rfl | rfl | ⟨idx, rfl⟩
  · rw [execNop_next h]; rfl
  · obtain ⟨-, -, rfl⟩ := execEnc_next h; rfl
  · obtain ⟨-, -, rfl⟩ := execDec_next h; rfl
  · rw [execPclr_next h]; rfl
  · obtain ⟨-, bs, -, rfl⟩ := execLdblk_next h; rfl

/-- PUSHB stores at `INLEN` only (41_padding.md R152). -/
theorem execPushb_lookup {b : Byte} {a : Nat} (h : exec (.pushb b) s = .next t) (ha : a ≠ s.inlen.toNat) :
    Memory.lookup t.buf a = Memory.lookup s.buf a := by
  obtain ⟨-, ⟨-, -, rfl⟩ | ⟨-, rfl⟩⟩ := execPushb_next h
  · exact Memory.lookup_insertAll_outside (by simp only [List.length_singleton]; omega)
  · rfl

/-- PUSHB at the bound drops its byte (41_padding.md R156). -/
theorem execPushb_buf_eq {b : Byte} (h : exec (.pushb b) s = .next t) (hfull : s.maxlen.toNat ≤ s.inlen.toNat) :
    t.buf = s.buf := by
  obtain ⟨-, ⟨hlt, -, -⟩ | ⟨-, rfl⟩⟩ := execPushb_next h
  · exact absurd (BitVec.lt_def.1 hlt) (by omega)
  · rfl

/-- The `PADLEN` that PFIN publishes fits a word: the zero bytes end inside `BUF` (41_padding.md R153). -/
theorem execPfin_padlen (h : exec .pfin s = .next t) : t.padlen.toNat = s.inlen.toNat + npad s.inlen.toNat := by
  obtain ⟨-, hin, rfl⟩ := execPfin_next h
  have hcap := maxLenCap_lt s
  unfold bufBytes at hin
  simp only [complete_padlen, publishPadding_padlen, BitVec.toNat_ofNat]
  omega

/-- PFIN stores from `INLEN` up to the new `PADLEN` only (41_padding.md R153). -/
theorem execPfin_lookup {a : Nat} (h : exec .pfin s = .next t) (ha : a < s.inlen.toNat ∨ t.padlen.toNat ≤ a) :
    Memory.lookup t.buf a = Memory.lookup s.buf a := by
  rw [execPfin_padlen h] at ha
  obtain ⟨-, -, rfl⟩ := execPfin_next h
  exact Memory.lookup_insertAll_outside (by rwa [List.length_replicate])

/-- STBLK stores its block's eight bytes only (42_converter.md R183). -/
theorem execStblk_lookup {idx a : Nat} (h : exec (.stblk idx) s = .next t)
    (ha : a < blockAddr idx ∨ blockAddr idx + 8 ≤ a) : Memory.lookup t.buf a = Memory.lookup s.buf a := by
  obtain ⟨-, -, -, rfl⟩ := execStblk_next h
  exact Memory.lookup_insertAll_outside (by rwa [Vector.length_toList])

/-- Reads of bytes on which two states agree return the same bytes, in blocks of any parameters. -/
theorem memRead_ok_congr {a n : Nat} {bs bs' : Vector Byte n} (h : memRead s a n = .ok bs)
    (h' : memRead t a n = .ok bs') (hbuf : ∀ j, j < n → Memory.lookup s.buf (a + j) = Memory.lookup t.buf (a + j)) :
    bs = bs' := by
  obtain ⟨-, hs⟩ := memRead_ok h
  obtain ⟨-, ht⟩ := memRead_ok h'
  ext j hj : 1
  exact Option.some.inj (by rw [← hs j hj, hbuf j hj, ht j hj])

/-- LDBLK loads the words that its eight bytes pack to (42_converter.md R182). -/
theorem execLdblk_v {idx : Nat} (h : exec (.ldblk idx) s = .next t) : ∃ bs : Vector Byte 8,
    memRead s (blockAddr idx) 8 = .ok bs ∧ t.v = #v[.written (pack bs).v0, .written (pack bs).v1] := by
  obtain ⟨-, bs, hbs, rfl⟩ := execLdblk_next h
  exact ⟨bs, hbs, rfl⟩

end Sys2Proof.Machine
end

section
namespace Sys2Proof.Proofs

open Sys2Proof.Machine

/-- Settles O15: what a read logs is no part of what it reads, a write keeps all but its register and sets that to the
same word again, and a `CMD` write leaves the block busy. -/
theorem hostAccessIdempotent : Obligations.HostAccessIdempotent := by
  refine ⟨fun s t off width h => ?_, fun s t off w h hoff => ?_, fun s t w w' h => ?_⟩
  · obtain ⟨hv, hb, w, hw, rfl⟩ := busStep_read_next h
    refine ⟨w, rfl, ?_⟩
    rw [busStep_read_ok hv (by exact hb) ((readWindow_logRead s _ w).trans hw), logRead_logRead]
  · obtain ⟨hf, hagain⟩ := busStep_write_repeat h hoff
    exact ⟨hf.frame, hf.maxlen, hf.k_eq, hf.v_eq, hf.k, hf.v, hagain⟩
  · rw [busStep_write_cmd h]
    exact ⟨rfl, busStep_write_busy rfl rfl⟩

/-- Settles O22, command by command. -/
theorem commandWritesOnlyItsBytes : Obligations.CommandWritesOnlyItsBytes :=
  ⟨fun _ _ _ a hi h => by rw [exec_buf_eq hi h], fun _ _ _ _ => execPushb_lookup, fun _ _ _ => execPushb_buf_eq,
    fun _ _ _ => execPfin_lookup, fun _ _ _ _ => execStblk_lookup⟩

/-- Settles O23: both loads read the same eight bytes, and nothing else goes into `V`. -/
theorem loadReadsOnlyItsBlock : Obligations.LoadReadsOnlyItsBlock := by
  intro idx s s' t t' h h' hbuf
  obtain ⟨bs, hbs, hv⟩ := execLdblk_v h
  obtain ⟨bs', hbs', hv'⟩ := execLdblk_v h'
  rw [hv, hv', memRead_ok_congr hbs hbs' hbuf]

end Sys2Proof.Proofs
end

section
/-! PROOFS. The command words (30_encoding.md R91 to R100): the word of a command is the number of its opcode and its
operand, and a word decodes to a command exactly when it is that command's word. Which words are reserved, how many are
not, and which row of the opcode map a word selects then follow by arithmetic on these two numbers. -/

namespace Sys2Proof

variable {w : Word} {i : Instr}

/-! ### Opcode and operand -/

/-- The `OP` field of a command's word (30_encoding.md R97). -/
def Instr.opcode : Instr → Nat
  | .nop => 0
  | .enc => 1
  | .dec => 2
  | .pclr => 3
  | .pushb _ => 4
  | .pfin => 5
  | .ldblk _ => 6
  | .stblk _ => 7

/-- The `ARG` field of a command's word; a command of format N has 0 there (30_encoding.md R92 to R94). -/
def Instr.operand : Instr → Nat
  | .nop => 0
  | .enc => 0
  | .dec => 0
  | .pclr => 0
  | .pushb imm8 => imm8.toNat
  | .pfin => 0
  | .ldblk idx => idx
  | .stblk idx => idx

theorem wellFormed_ldblk_iff {idx : Nat} : (Instr.ldblk idx).WellFormed ↔ idx < 256 := decide_eq_true_iff

theorem wellFormed_stblk_iff {idx : Nat} : (Instr.stblk idx).WellFormed ↔ idx < 256 := decide_eq_true_iff

/-- The word of a command is its opcode and, one byte up, its operand. -/
theorem toNat_encode (h : i.WellFormed) : (encode i).toNat = i.opcode + 256 * i.operand := by
  cases i with
  | pushb b => rw [encode, wordOf_toNat, Nat.add_comm]; rfl
  | ldblk idx =>
    rw [encode, wordOf_toNat, Nat.add_comm, BitVec.toNat_ofNat, Nat.mod_eq_of_lt (wellFormed_ldblk_iff.1 h)]; rfl
  | stblk idx =>
    rw [encode, wordOf_toNat, Nat.add_comm, BitVec.toNat_ofNat, Nat.mod_eq_of_lt (wellFormed_stblk_iff.1 h)]; rfl
  | _ => rfl

theorem opcode_lt (i : Instr) : i.opcode < 8 := by cases i <;> simp [Instr.opcode]

theorem operand_lt (h : i.WellFormed) : i.operand < 256 := by
  cases i with
  | pushb b => exact b.isLt
  | ldblk idx => exact wellFormed_ldblk_iff.1 h
  | stblk idx => exact wellFormed_stblk_iff.1 h
  | _ => exact Nat.zero_lt_succ 255

/-- Format N (30_encoding.md R92): these five opcodes take no operand. -/
theorem operand_eq_zero (h : i.opcode ∈ [0, 1, 2, 3, 5]) : i.operand = 0 := by
  cases i with
  | pushb b => simp [Instr.opcode] at h
  | ldblk idx => simp [Instr.opcode] at h
  | stblk idx => simp [Instr.opcode] at h
  | _ => rfl

/-- Every opcode below 8 with every byte as its operand is a command's, format N allowing the operand 0 only. -/
theorem exists_instr_of_opcode {op arg : Nat} (hop : op < 8) (harg : arg < 256)
    (hn : op ∈ [0, 1, 2, 3, 5] → arg = 0) : ∃ i : Instr, i.WellFormed ∧ i.opcode = op ∧ i.operand = arg := by
  interval_cases op
  · exact ⟨.nop, rfl, rfl, (hn (by decide)).symm⟩
  · exact ⟨.enc, rfl, rfl, (hn (by decide)).symm⟩
  · exact ⟨.dec, rfl, rfl, (hn (by decide)).symm⟩
  · exact ⟨.pclr, rfl, rfl, (hn (by decide)).symm⟩
  · exact ⟨.pushb (BitVec.ofNat 8 arg), rfl, rfl, (BitVec.toNat_ofNat arg 8).trans (Nat.mod_eq_of_lt harg)⟩
  · exact ⟨.pfin, rfl, rfl, (hn (by decide)).symm⟩
  · exact ⟨.ldblk arg, wellFormed_ldblk_iff.2 harg, rfl, rfl⟩
  · exact ⟨.stblk arg, wellFormed_stblk_iff.2 harg, rfl, rfl⟩

/-! ### The decoder and the encoder -/

theorem decodeN_eq_command {c : Instr} (h : decodeN w c = .command i) : fieldARG w = 0 ∧ c = i := by
  unfold decodeN at h
  split at h
  · next harg => cases h; exact ⟨harg, rfl⟩
  · cases h

theorem decode_encode (h : i.WellFormed) : decode (encode i) = .command i := by
  cases i with
  | ldblk idx => simp [encode, decode, Nat.mod_eq_of_lt (wellFormed_ldblk_iff.1 h)]
  | stblk idx => simp [encode, decode, Nat.mod_eq_of_lt (wellFormed_stblk_iff.1 h)]
  | _ => simp [encode, decode, decodeN]

/-- What a word that decodes to a command has in its fields: zeros in `Z1` and `Z0`, and the command's own `ARG` and
`OP`. -/
theorem decode_eq_command (h : decode w = .command i) :
    fieldZ1 w = 0 ∧ fieldZ0 w = 0 ∧ i.WellFormed ∧ encode i = wordOf (fieldARG w) (fieldOP w) := by
  unfold decode at h
  split at h
  · cases h
  split at h
  · cases h
  next h1 h0 =>
  refine ⟨not_not.1 h1, not_not.1 h0, ?_⟩
  have op : ∀ {n : Nat}, (fieldOP w).toNat = n → fieldOP w = BitVec.ofNat 4 n := fun e => by
    rw [← e, BitVec.ofNat_toNat, BitVec.setWidth_eq]
  have arg : BitVec.ofNat 8 (fieldARG w).toNat = fieldARG w := by rw [BitVec.ofNat_toNat, BitVec.setWidth_eq]
  have formatN : ∀ {n : Nat} {c : Instr}, (fieldOP w).toNat = n → decodeN w c = .command i → c.WellFormed →
      encode c = wordOf 0 (BitVec.ofNat 4 n) → i.WellFormed ∧ encode i = wordOf (fieldARG w) (fieldOP w) := by
    intro n c hop hc hwf he
    obtain ⟨harg, rfl⟩ := decodeN_eq_command hc
    exact ⟨hwf, by rw [he, harg, op hop]⟩
  split at h
  · next hop => exact formatN hop h rfl rfl
  · next hop => exact formatN hop h rfl rfl
  · next hop => exact formatN hop h rfl rfl
  · next hop => exact formatN hop h rfl rfl
  · next hop => cases h; exact ⟨rfl, by rw [op hop]; rfl⟩
  · next hop => exact formatN hop h rfl rfl
  · next hop => cases h; exact ⟨wellFormed_ldblk_iff.2 (fieldARG w).isLt, by rw [op hop, encode, arg]; rfl⟩
  · next hop => cases h; exact ⟨wellFormed_stblk_iff.2 (fieldARG w).isLt, by rw [op hop, encode, arg]; rfl⟩
  · cases h

/-- A word decodes to a command exactly when it is the word of that command (30_encoding.md R100). -/
theorem decode_eq_command_iff : decode w = .command i ↔ i.WellFormed ∧ encode i = w := by
  constructor
  · intro h
    obtain ⟨h1, h0, hwf, he⟩ := decode_eq_command h
    exact ⟨hwf, he.trans (wordOf_fields h1 h0)⟩
  · rintro ⟨hwf, rfl⟩
    exact decode_encode hwf

/-- A word whose number is made of a command's opcode and operand decodes to that command. -/
theorem decode_of_toNat (hwf : i.WellFormed) (h : w.toNat = i.opcode + 256 * i.operand) : decode w = .command i :=
  decode_eq_command_iff.2 ⟨hwf, BitVec.eq_of_toNat_eq ((toNat_encode hwf).trans h.symm)⟩

/-- The word of a command as the word column of the opcode map gives it (30_encoding.md R97). -/
theorem encode_eq (h : i.WellFormed) : encode i = BitVec.ofNat 32 i.opcode + 256 * BitVec.ofNat 32 i.operand := by
  apply BitVec.eq_of_toNat_eq
  have hop := opcode_lt i
  have harg := operand_lt h
  rw [toNat_encode h, BitVec.toNat_add, BitVec.toNat_mul, BitVec.toNat_ofNat, BitVec.toNat_ofNat]
  show i.opcode + 256 * i.operand = (i.opcode % 2 ^ 32 + 256 * (i.operand % 2 ^ 32) % 2 ^ 32) % 2 ^ 32
  omega

/-! ### The reserved words (30_encoding.md R98) -/

theorem exists_illegal_iff : (∃ why, decode w = .illegal why) ↔ ¬ ∃ i, decode w = .command i := by
  cases decode w <;> simp

/-- The words that are commands, by their fields. -/
theorem exists_command_iff : (∃ i, decode w = .command i) ↔ w.toNat / 2 ^ 16 = 0 ∧ w.toNat / 2 ^ 4 % 16 = 0 ∧
    w.toNat % 16 < 8 ∧ (w.toNat % 16 ∈ [0, 1, 2, 3, 5] → w.toNat / 2 ^ 8 % 256 = 0) := by
  constructor
  · rintro ⟨i, h⟩
    obtain ⟨hwf, rfl⟩ := decode_eq_command_iff.1 h
    have hop := opcode_lt i
    have harg := operand_lt hwf
    have hlow : (i.opcode + 256 * i.operand) % 16 = i.opcode := by omega
    rw [toNat_encode hwf, hlow]
    exact ⟨by omega, by omega, hop, fun hn => by rw [operand_eq_zero hn]; omega⟩
  · rintro ⟨h1, h0, hop, hn⟩
    obtain ⟨i, hwf, ho, ha⟩ := exists_instr_of_opcode hop (Nat.mod_lt _ (by decide)) hn
    exact ⟨i, decode_of_toNat hwf (by rw [ho, ha]; omega)⟩

/-- The opcodes 8 to 15 are reserved. -/
theorem exists_illegal_of_opcode (h : 8 ≤ w.toNat % 16) : ∃ why, decode w = .illegal why := by
  refine exists_illegal_iff.2 fun hc => ?_
  obtain ⟨-, -, hop, -⟩ := exists_command_iff.1 hc
  exact absurd hop (not_lt.2 h)

/-- A command of format N has no operand. -/
theorem operand_zero_of_formatN (h : ∃ i, decode w = .command i) (hn : w.toNat % 16 ∈ [0, 1, 2, 3, 5]) :
    w.toNat / 2 ^ 8 % 256 = 0 := by
  obtain ⟨-, -, -, hzero⟩ := exists_command_iff.1 h
  exact hzero hn

/-- The pairs of `OP` and `ARG` of the commands: five of format N, and three with an operand. -/
def commandFields : Finset (Nat × Nat) := {0, 1, 2, 3, 5} ×ˢ {0} ∪ {4, 6, 7} ×ˢ Finset.range 256

theorem card_commandFields : commandFields.card = 5 + 3 * 256 := by
  have hd : Disjoint (({0, 1, 2, 3, 5} : Finset Nat) ×ˢ ({0} : Finset Nat)) ({4, 6, 7} ×ˢ Finset.range 256) :=
    Finset.disjoint_product.2 (.inl (by decide))
  rw [commandFields, Finset.card_union_of_disjoint hd, Finset.card_product, Finset.card_product, Finset.card_range]
  rfl

theorem mem_commandFields {op arg : Nat} : (op, arg) ∈ commandFields ↔
    op < 8 ∧ arg < 256 ∧ (op ∈ [0, 1, 2, 3, 5] → arg = 0) := by
  simp only [commandFields, Finset.mem_union, Finset.mem_product, Finset.mem_insert, Finset.mem_singleton,
    Finset.mem_range, List.mem_cons, List.not_mem_nil, or_false]
  omega

/-- The word with the given `OP` and `ARG`. -/
def wordOfFields (p : Nat × Nat) : Word := BitVec.ofNat 32 (p.1 + 256 * p.2)

theorem toNat_wordOfFields {p : Nat × Nat} (h : p ∈ commandFields) : (wordOfFields p).toNat = p.1 + 256 * p.2 := by
  obtain ⟨hop, harg, -⟩ := mem_commandFields.1 h
  exact (BitVec.toNat_ofNat _ 32).trans (Nat.mod_eq_of_lt (by omega))

theorem wordOfFields_injOn : Set.InjOn wordOfFields commandFields := by
  intro p hp q hq e
  have e := congrArg BitVec.toNat e
  rw [toNat_wordOfFields hp, toNat_wordOfFields hq] at e
  obtain ⟨hop, -, -⟩ := mem_commandFields.1 hp
  obtain ⟨hoq, -, -⟩ := mem_commandFields.1 hq
  exact Prod.ext (by omega) (by omega)

theorem setOf_command_eq : {w : Word | ∃ i, decode w = .command i} = commandFields.image wordOfFields := by
  ext w
  simp only [Set.mem_ofPred_eq, exists_command_iff, Finset.coe_image, Set.mem_image, Finset.mem_coe]
  constructor
  · rintro ⟨h1, h0, hop, hn⟩
    have hp : (w.toNat % 16, w.toNat / 2 ^ 8 % 256) ∈ commandFields :=
      mem_commandFields.2 ⟨hop, Nat.mod_lt _ (by decide), hn⟩
    exact ⟨_, hp, BitVec.eq_of_toNat_eq (by rw [toNat_wordOfFields hp]; omega)⟩
  · rintro ⟨⟨op, arg⟩, hp, rfl⟩
    obtain ⟨hop, harg, hn⟩ := mem_commandFields.1 hp
    have hlow : (op + 256 * arg) % 16 = op := by omega
    rw [toNat_wordOfFields hp, hlow]
    exact ⟨by omega, by omega, hop, fun h => by rw [hn h]; omega⟩

/-! ### The opcode map (30_encoding.md R97) -/

/-- The mask of a command with an operand leaves out `ARG`. -/
theorem and_operandMask_eq_iff (w : Word) (op : BitVec 4) :
    w &&& 0xFFFF00FF = wordOf 0 op ↔ ∃ arg, w = wordOf arg op := by
  constructor
  · intro h
    have h1 : fieldZ1 (w &&& 0xFFFF00FF) = fieldZ1 w := BitVec.extractLsb'_and.trans BitVec.and_allOnes
    have h0 : fieldZ0 (w &&& 0xFFFF00FF) = fieldZ0 w := BitVec.extractLsb'_and.trans BitVec.and_allOnes
    have ho : fieldOP (w &&& 0xFFFF00FF) = fieldOP w := BitVec.extractLsb'_and.trans BitVec.and_allOnes
    rw [h, fieldZ1_wordOf] at h1
    rw [h, fieldZ0_wordOf] at h0
    rw [h, fieldOP_wordOf] at ho
    exact ⟨fieldARG w, by rw [ho, wordOf_fields h1.symm h0.symm]⟩
  · rintro ⟨arg, rfl⟩
    have hm : (0xFFFF00FF : Word) = BitVec.allOnes 16 ++ (0 : Byte) ++ BitVec.allOnes 4 ++ BitVec.allOnes 4 := rfl
    have hz : arg &&& (0 : Byte) = 0 := BitVec.and_zero
    rw [wordOf, hm, BitVec.and_append, BitVec.and_append, BitVec.and_append, hz, BitVec.and_allOnes, BitVec.and_allOnes,
      BitVec.and_allOnes, wordOf]

/-- The row of a command of format N is selected by its one word. -/
theorem selects_fullMask_iff {name : String} (h : i.WellFormed) :
    (OpcodeRow.mk name 0xFFFFFFFF (encode i)).selects w = true ↔ decode w = .command i := by
  have hw : w &&& 0xFFFFFFFF = w := BitVec.and_allOnes
  rw [OpcodeRow.selects, hw, beq_iff_eq, decode_eq_command_iff, eq_comm]
  exact (and_iff_right h).symm

/-- The row of a command with an operand is selected by the words of its opcode with any `ARG`. -/
theorem selects_operandMask_iff {name : String} {op : BitVec 4} :
    (OpcodeRow.mk name 0xFFFF00FF (wordOf 0 op)).selects w = true ↔ ∃ arg, w = wordOf arg op := by
  rw [OpcodeRow.selects, beq_iff_eq, and_operandMask_eq_iff]

theorem exists_pushb_iff : (∃ b, decode w = .command (.pushb b)) ↔ ∃ arg, w = wordOf arg 4 :=
  exists_congr fun _ => decode_eq_command_iff.trans ((and_iff_right rfl).trans eq_comm)

/-- A block index is a byte (30_encoding.md R96). -/
theorem exists_index_iff {op : BitVec 4} :
    (∃ idx, idx < 256 ∧ wordOf (BitVec.ofNat 8 idx) op = w) ↔ ∃ arg, w = wordOf arg op := by
  constructor
  · rintro ⟨idx, -, rfl⟩
    exact ⟨_, rfl⟩
  · rintro ⟨arg, rfl⟩
    exact ⟨arg.toNat, arg.isLt, by rw [BitVec.ofNat_toNat, BitVec.setWidth_eq]⟩

theorem exists_ldblk_iff : (∃ idx, decode w = .command (.ldblk idx)) ↔ ∃ arg, w = wordOf arg 6 := by
  simp only [decode_eq_command_iff, wellFormed_ldblk_iff, encode, exists_index_iff]

theorem exists_stblk_iff : (∃ idx, decode w = .command (.stblk idx)) ↔ ∃ arg, w = wordOf arg 7 := by
  simp only [decode_eq_command_iff, wellFormed_stblk_iff, encode, exists_index_iff]

/-- A property of some command, constructor by constructor. -/
theorem Instr.exists_iff {P : Instr → Prop} : (∃ i, P i) ↔
    P .nop ∨ P .enc ∨ P .dec ∨ P .pclr ∨ (∃ b, P (.pushb b)) ∨ P .pfin ∨ (∃ idx, P (.ldblk idx)) ∨
      ∃ idx, P (.stblk idx) := by
  constructor
  · rintro ⟨i, h⟩
    cases i <;> tauto
  · rintro (h | h | h | h | ⟨_, h⟩ | h | ⟨_, h⟩ | ⟨_, h⟩) <;> exact ⟨_, h⟩

/-- A row of the opcode map is selected exactly by the words of the commands with its mnemonic. -/
theorem selects_iff_mnemonic {r : OpcodeRow} (hr : r ∈ opcodeMap) :
    r.selects w = true ↔ ∃ i, decode w = .command i ∧ i.mnemonic = r.mnemonic := by
  simp only [opcodeMap, List.mem_cons, List.not_mem_nil, or_false] at hr
  rcases hr with rfl | rfl | rfl | rfl | rfl | rfl | rfl | rfl <;>
    simp only [Instr.mnemonic, Instr.exists_iff, String.reduceEq, and_true, and_false, exists_const, or_self, or_false,
      false_or]
  · exact selects_fullMask_iff (i := .nop) rfl
  · exact selects_fullMask_iff (i := .enc) rfl
  · exact selects_fullMask_iff (i := .dec) rfl
  · exact selects_fullMask_iff (i := .pclr) rfl
  · exact selects_operandMask_iff.trans exists_pushb_iff.symm
  · exact selects_fullMask_iff (i := .pfin) rfl
  · exact selects_operandMask_iff.trans exists_ldblk_iff.symm
  · exact selects_operandMask_iff.trans exists_stblk_iff.symm

theorem exists_row_of_mnemonic (i : Instr) : ∃ r ∈ opcodeMap, i.mnemonic = r.mnemonic := by
  cases i <;> simp [opcodeMap, Instr.mnemonic]

/-- A word is a command exactly when it selects a row of the opcode map (30_encoding.md R98). -/
theorem exists_selects_iff : (∃ r ∈ opcodeMap, r.selects w = true) ↔ ∃ i, decode w = .command i := by
  constructor
  · rintro ⟨r, hr, h⟩
    obtain ⟨i, hi, -⟩ := (selects_iff_mnemonic hr).1 h
    exact ⟨i, hi⟩
  · rintro ⟨i, hi⟩
    obtain ⟨r, hr, hm⟩ := exists_row_of_mnemonic i
    exact ⟨r, hr, (selects_iff_mnemonic hr).2 ⟨i, hi, hm⟩⟩

end Sys2Proof
end

section
/-! PROOFS. What one step does with a command word, whole or latched (43_control.md R201, 60_exceptions.md R219). -/

namespace Sys2Proof.Machine

variable {s : State} {w : Word} {why : Reserved}

theorem issue_illegal (hd : decode w = .illegal why) : issue w s = .fault (.cvIllcmd w) := by simp [issue, hd]

theorem wholeCommand_busy (hb : s.busy = true) : wholeCommand w s = .fault (.cvBusy 0x00 .write) := by
  simp [wholeCommand, hb]

theorem wholeCommand_illegal (hb : s.busy = false) (hd : decode w = .illegal why) :
    wholeCommand w s = .fault (.cvIllcmd w) := by simp [wholeCommand, hb, hd]

end Sys2Proof.Machine
end

section
namespace Sys2Proof.Proofs

open Sys2Proof.Machine

/-- Settles O1. A word whose fields fit a command is that command's word by arithmetic, and no other word is one. -/
theorem decodeEncodeInverse : Obligations.DecodeEncodeInverse := by
  refine ⟨fun w => ⟨fun h => exists_illegal_iff.2 fun hc => ?_, fun h1 h0 => ?_⟩, ?_, fun c hc => decode_encode hc,
    fun w c h => (decode_eq_command_iff.1 h).symm⟩
  · obtain ⟨h1, h0, -⟩ := exists_command_iff.1 hc
    exact h.elim (absurd h1) (absurd h0)
  · have legal : ∀ {c : Instr}, c.WellFormed → w.toNat % 16 = c.opcode → w.toNat / 2 ^ 8 % 256 = c.operand →
        decode w = .command c := fun hc hop harg => decode_of_toNat hc (by omega)
    have hlt : w.toNat / 2 ^ 8 % 256 < 256 := Nat.mod_lt _ (by decide)
    have hbyte : (BitVec.ofNat 8 (w.toNat / 2 ^ 8 % 256)).toNat = w.toNat / 2 ^ 8 % 256 :=
      (BitVec.toNat_ofNat _ 8).trans (Nat.mod_eq_of_lt hlt)
    exact ⟨legal (c := .nop) rfl, legal (c := .enc) rfl, legal (c := .dec) rfl, legal (c := .pclr) rfl,
      fun h => legal rfl h hbyte.symm, legal (c := .pfin) rfl,
      fun h => legal (wellFormed_ldblk_iff.2 hlt) h rfl, fun h => legal (wellFormed_stblk_iff.2 hlt) h rfl,
      fun hn harg => exists_illegal_iff.2 fun hc => harg (operand_zero_of_formatN hc hn), exists_illegal_of_opcode⟩
  · exact ⟨rfl, rfl, rfl, rfl, fun b => toNat_encode (i := .pushb b) rfl, rfl,
      fun idx h => toNat_encode (wellFormed_ldblk_iff.2 h), fun idx h => toNat_encode (wellFormed_stblk_iff.2 h)⟩

/-- Settles O3, row by row; the word column is the number of opcode and operand. -/
theorem opcodeMapSelects : Obligations.OpcodeMapSelects := by
  refine ⟨fun w r hr => selects_iff_mnemonic hr, rfl, ⟨rfl, rfl, rfl, rfl, rfl, fun b => ?_, fun idx h => ?_⟩,
    fun w h => exists_illegal_of_opcode h⟩
  · rw [encode_eq (i := .pushb b) rfl, Instr.operand, BitVec.ofNat_toNat]
    rfl
  · exact ⟨encode_eq (wellFormed_ldblk_iff.2 h), encode_eq (wellFormed_stblk_iff.2 h)⟩

/-- Settles O2: a word is reserved when it is no command, by its number and by the opcode map; the commands are counted
by their fields; and a reserved word is refused before anything else is looked at. -/
theorem reservedWordsExactly : Obligations.ReservedWordsExactly := by
  refine ⟨fun w => ?_, fun w => ?_, ?_, fun s w why hb hd => ⟨?_, wholeCommand_illegal hb hd⟩⟩
  · rw [exists_illegal_iff, exists_command_iff, ← not_lt]
    tauto
  · rw [exists_illegal_iff, ← exists_selects_iff]
    simp
  · rw [setOf_command_eq, Set.ncard_coe_finset, Finset.card_image_of_injOn wordOfFields_injOn, card_commandFields]
  · rw [busStep_write_idle rfl hb]
    exact issue_illegal hd

/-- Settles O5, move by move. -/
theorem stepRunsDecodedCommand : Obligations.StepRunsDecodedCommand := by
  refine ⟨fun s w rest i ha hb hd => ?_, fun s nbits w i hd => ?_, fun s t rest ha => step_move ha,
    fun s w rest ha hb => ?_, fun s w rest why ha hb hd => ?_, fun s rest ha => step_move ha,
    fun s rest ha => step_move ha, fun s rest ha => step_move ha, fun s ha => step_empty ha,
    fun s hb => engineStep_idle hb⟩
  · rw [step_move ha]
    exact wholeCommand_idle hb hd
  · rw [step_move (s := s.withFetchWord nbits w) rfl]
    exact wholeCommand_idle rfl hd
  · rw [step_move ha]
    exact wholeCommand_busy hb
  · rw [step_move ha]
    exact wholeCommand_illegal hb hd

end Sys2Proof.Proofs
end

section
/-! PROOFS. A command taken step by step (43_control.md R207, 40_cipher.md R121, R123): the ENGINE's steps from the
accepted word on end as the whole command does, and the block is busy until the last of them. -/

namespace Sys2Proof.Machine

variable {s t : State} {i : Instr} {w : Word}

/-! ### Effects -/

/-- The padding part of the invariant is all that an idle block needs. -/
theorem PaddingSound.consistent_idle (h : PaddingSound s) : Consistent (complete (setMix s 0 0)) :=
  consistent_complete (h.congr rfl rfl rfl rfl rfl rfl) (Nat.zero_le rounds)

/-- The effect of a command whose precondition holds needs nothing more: what it reads has been written, and what it
writes lies inside `BUF`. -/
theorem firstStep_completes (h : PaddingSound s) (hp : precondition i s = none) : ∃ t, firstStep i s = .next t := by
  have hlen := h.inlenBound
  have hmax := h.maxlenBound
  cases i with
  | nop => exact ⟨_, rfl⟩
  | enc => exact ⟨_, rfl⟩
  | dec => exact ⟨_, rfl⟩
  | pclr => exact ⟨_, rfl⟩
  | pushb b =>
    rcases pushbEffect_cases b s with ⟨-, -, e⟩ | ⟨hlt, hout, -⟩ | ⟨-, e⟩
    · exact ⟨_, e⟩
    · rw [BitVec.lt_def] at hlt
      unfold bufBytes at hout
      omega
    · exact ⟨_, e⟩
  | pfin =>
    rcases pfinEffect_cases s with ⟨-, e⟩ | ⟨hout, -⟩
    · exact ⟨_, e⟩
    · have := npad_le s.inlen.toNat
      unfold bufBytes at hout
      omega
  | ldblk idx =>
    obtain ⟨hpad, hidx⟩ := (rangePre_eq_none_iff idx s).1 hp
    obtain ⟨bs, hbs⟩ := h.consistent_idle.block_readable hpad hidx
    have hbs : memRead s (blockAddr idx) 8 = .ok bs := hbs
    exact ⟨_, by rw [firstStep, ldblkEffect, hbs]⟩
  | stblk idx =>
    obtain ⟨⟨hpad, hidx⟩, hv⟩ := (stblkPre_eq_none_iff idx s).1 hp
    obtain ⟨hblock, hbuf⟩ := h.consistent_idle.block_inside hpad hidx
    have hin : blockAddr idx + (unpack (blockWords s)).toList.length ≤ bufBytes s := by
      rw [Vector.length_toList]
      exact hblock.trans hbuf
    exact ⟨_, by rw [firstStep, stblkEffect, blockOperand_held hv]; exact memWrite_inside hin⟩

theorem execEnc_held (hb : s.busy = false) (hk : KeyHeld s) (hv : BlockHeld s) : exec .enc s =
    .next (complete (putMix (startCommand (accept s (encode .enc))) (encMix (blockWords s) (keyWords s)) 32)) :=
  perform_eq_next hb ((cipherPre_eq_none_iff s).2 ⟨hk, hv⟩) (encEffect_held hk hv)

theorem execDec_held (hb : s.busy = false) (hk : KeyHeld s) (hv : BlockHeld s) : exec .dec s =
    .next (complete (putMix (startCommand (accept s (encode .dec))) (decMix (blockWords s) (keyWords s)) 32)) :=
  perform_eq_next hb ((cipherPre_eq_none_iff s).2 ⟨hk, hv⟩) (decEffect_held hk hv)

/-! ### ENC and DEC, round by round -/

theorem engineStep_accept (hd : decode w = .command i) :
    engineStep (accept s w) = firstStep i (startCommand (accept s w)) :=
  engineStep_first (s := accept s w) rfl hd rfl

theorem engineStep_putMix (hd : decode w = .command i) (m : Mix) (r : BitVec 6) :
    engineStep (putMix (startCommand (accept s w)) m r) = laterStep i (putMix (startCommand (accept s w)) m r) :=
  engineStep_later (s := putMix (startCommand (accept s w)) m r) rfl hd rfl

/-- The ENGINE's steps of a command of rounds, and the whole command: what ENC and DEC have in common
(40_cipher.md R121, R123). -/
structure CipherSteps (i : Instr) (sum0 : Word) (round : Key → Mix → Mix) : Prop where
  startStep : ∀ s, firstStep i s = .next (setMix s sum0 0)
  roundStep : ∀ s, KeyHeld s → BlockHeld s → s.rnd.toNat < rounds → laterStep i s =
    .next (putMix s (round (keyWords s) { sum := s.sum, block := blockWords s }) (s.rnd + 1))
  finishStep : ∀ s, ¬ s.rnd.toNat < rounds → laterStep i s = .next (complete s)
  whole : ∀ s, s.busy = false → KeyHeld s → BlockHeld s → exec i s =
    .next (complete (putMix (startCommand (accept s (encode i)))
      ((round (keyWords s))^[rounds] { sum := sum0, block := blockWords s }) 32))

theorem cipherSteps_enc : CipherSteps .enc 0 encRound where
  startStep := fun _ => rfl
  roundStep := fun _ hk hv hr => (laterStep_enc_round hr).trans (encRoundStep_held hk hv)
  finishStep := fun _ => laterStep_enc_finish
  whole := fun s hb hk hv => by rw [execEnc_held hb hk hv, encMix]; rfl

theorem cipherSteps_dec : CipherSteps .dec decSum0 decRound where
  startStep := fun _ => rfl
  roundStep := fun _ hk hv hr => (laterStep_dec_round hr).trans (decRoundStep_held hk hv)
  finishStep := fun _ => laterStep_dec_finish
  whole := fun s hb hk hv => by rw [execDec_held hb hk hv, decMix]; rfl

theorem exists_cipherSteps (hi : i = .enc ∨ i = .dec) : ∃ sum0 round, CipherSteps i sum0 round := by
  rcases hi with rfl | rfl
  · exact ⟨_, _, cipherSteps_enc⟩
  · exact ⟨_, _, cipherSteps_dec⟩

/-- ENC and DEC need every operand to hold a value (40_cipher.md R120, R122). -/
theorem held_of_precondition (hi : i = .enc ∨ i = .dec) (hp : precondition i s = none) : KeyHeld s ∧ BlockHeld s := by
  rcases hi with rfl | rfl
  · exact (cipherPre_eq_none_iff s).1 hp
  · exact (cipherPre_eq_none_iff s).1 hp

/-- Before the first round the block is the one in `V`. -/
theorem setMix_eq_putMix (hv : BlockHeld s) (x : Word) (r : BitVec 6) :
    setMix s x r = putMix s { sum := x, block := blockWords s } r := by
  have h := written_blockWords hv
  simp only [putMix, setBlock, setMix, h]

section
variable {sum0 : Word} {round : Key → Mix → Mix}

/-- A round of an accepted command that has started. -/
theorem CipherSteps.engineStep_round (c : CipherSteps i sum0 round) (hd : decode w = .command i) (hk : KeyHeld s)
    (m : Mix) {r : BitVec 6} (hr : r.toNat < rounds) : engineStep (putMix (startCommand (accept s w)) m r) =
      .next (putMix (startCommand (accept s w)) (round (keyWords s) m) (r + 1)) :=
  (engineStep_putMix hd m r).trans
    (c.roundStep (putMix (startCommand (accept s w)) m r) hk (blockHeld_putMix _ _ _) hr)

/-- The completion step, once all rounds are done. -/
theorem CipherSteps.engineStep_finish (c : CipherSteps i sum0 round) (hd : decode w = .command i) (m : Mix) :
    engineStep (putMix (startCommand (accept s w)) m 32) =
      .next (complete (putMix (startCommand (accept s w)) m 32)) :=
  (engineStep_putMix hd m 32).trans (c.finishStep _ (Nat.lt_irrefl 32))

/-- After the start step and `r` rounds the ENGINE holds what `r` rounds make of the block. -/
theorem CipherSteps.engineRun_rounds (c : CipherSteps i sum0 round) (hd : decode w = .command i) (hk : KeyHeld s)
    (hv : BlockHeld s) {r : Nat} (hr : r ≤ rounds) : engineRun (r + 1) (accept s w) =
      .next (putMix (startCommand (accept s w)) ((round (keyWords s))^[r] { sum := sum0, block := blockWords s })
        (BitVec.ofNat 6 r)) := by
  induction r with
  | zero =>
    rw [engineRun_one, engineStep_accept hd, c.startStep, setMix_eq_putMix (by exact hv)]
    rfl
  | succ r ih =>
    have hlt : (BitVec.ofNat 6 r).toNat < rounds := by
      rw [BitVec.toNat_ofNat]
      exact (Nat.mod_le _ _).trans_lt hr
    rw [engineRun_add (r + 1) 1, ih (Nat.le_of_succ_le hr), andThen_next, engineRun_one,
      c.engineStep_round hd hk _ hlt, Function.iterate_succ_apply', BitVec.ofNat_add]
    rfl

theorem CipherSteps.engineRun_eq_exec (c : CipherSteps i sum0 round) (hd : decode (encode i) = .command i)
    (hb : s.busy = false) (hk : KeyHeld s) (hv : BlockHeld s) : engineRun 34 (accept s (encode i)) = exec i s := by
  rw [show 34 = rounds + 1 + 1 from rfl, engineRun_add (rounds + 1) 1, c.engineRun_rounds hd hk hv le_rfl,
    andThen_next, engineRun_one, c.whole s hb hk hv]
  exact c.engineStep_finish hd _

theorem CipherSteps.engineRun_busy (c : CipherSteps i sum0 round) (hd : decode w = .command i) (hk : KeyHeld s)
    (hv : BlockHeld s) {n : Nat} (hn : n < 34) (h : engineRun n (accept s w) = .next t) : t.busy = true := by
  cases n with
  | zero => cases h; rfl
  | succ r =>
    rw [c.engineRun_rounds hd hk hv (Nat.le_of_lt_succ (Nat.lt_of_succ_lt_succ hn))] at h
    cases h
    rfl

end

/-! ### Every command -/

theorem perform_idle {effect : State → Result} {pre : Option Fault} (hb : s.busy = false) (hp : pre = none) :
    perform i pre effect s =
      andThen (effect (startCommand (accept s (encode i)))) (fun u => .next (complete u)) := by
  simp [perform, hb, hp]

theorem engineSteps_eq (i : Instr) : engineSteps i = if i = .enc ∨ i = .dec then 34 else 2 := by
  cases i <;> rfl

theorem engineSteps_cipher (hi : i = .enc ∨ i = .dec) : engineSteps i = 34 := (engineSteps_eq i).trans (if_pos hi)

theorem engineSteps_effect (hi : ¬ (i = .enc ∨ i = .dec)) : engineSteps i = 2 := (engineSteps_eq i).trans (if_neg hi)

/-- A command without rounds takes its effect step and the completion step. -/
theorem engineRun_two (he : i ≠ .enc) (hd : i ≠ .dec) (hdec : decode w = .command i) :
    engineRun 2 (accept s w) = andThen (firstStep i (startCommand (accept s w))) fun u => .next (complete u) := by
  rw [engineRun_add 1 1, engineRun_one, engineStep_accept hdec]
  cases h : firstStep i (startCommand (accept s w)) with
  | next u =>
    have hf := firstStep_frame h
    rw [andThen_next, andThen_next, engineRun_one,
      engineStep_later hf.busy ((congrArg decode hf.opl).trans hdec) hf.begun, laterStep_effect u he hd]
  | fault f => rfl
  | refused f => rfl

/-- From an idle state of the invariant a command whose precondition holds completes (43_control.md R207). -/
theorem exec_completes (hc : Consistent s) (hb : s.busy = false) (hp : precondition i s = none) :
    ∃ t, exec i s = .next t := by
  by_cases hi : i = .enc ∨ i = .dec
  · obtain ⟨sum0, round, c⟩ := exists_cipherSteps hi
    obtain ⟨hk, hv⟩ := held_of_precondition hi hp
    exact ⟨_, c.whole s hb hk hv⟩
  · obtain ⟨he, hd⟩ := not_or.1 hi
    have hstart : PaddingSound (startCommand (accept s (encode i))) := hc.paddingSound.congr rfl rfl rfl rfl rfl rfl
    obtain ⟨u, hu⟩ := firstStep_completes hstart ((precondition_congr i rfl rfl rfl rfl).trans hp)
    exact ⟨_, (exec_eq_perform s he hd).trans (perform_eq_next hb hp hu)⟩

/-- Taken one ENGINE step at a time, an accepted command ends as the whole command does (43_control.md R207). -/
theorem engineRun_eq_exec (hb : s.busy = false) (hp : precondition i s = none) (hd : decode (encode i) = .command i) :
    engineRun (engineSteps i) (accept s (encode i)) = exec i s := by
  by_cases hi : i = .enc ∨ i = .dec
  · obtain ⟨sum0, round, c⟩ := exists_cipherSteps hi
    obtain ⟨hk, hv⟩ := held_of_precondition hi hp
    rw [engineSteps_cipher hi, c.engineRun_eq_exec hd hb hk hv]
  · obtain ⟨he, hdec⟩ := not_or.1 hi
    rw [engineSteps_effect hi, engineRun_two he hdec hd, exec_eq_perform s he hdec, perform_idle hb hp]

/-- An accepted command keeps the block busy until its last step (43_control.md R207). -/
theorem engineRun_busy (hp : precondition i s = none) (hd : decode w = .command i) {n : Nat} (hn : n < engineSteps i)
    (h : engineRun n (accept s w) = .next t) : t.busy = true := by
  by_cases hi : i = .enc ∨ i = .dec
  · obtain ⟨sum0, round, c⟩ := exists_cipherSteps hi
    obtain ⟨hk, hv⟩ := held_of_precondition hi hp
    exact c.engineRun_busy hd hk hv (by rwa [engineSteps_cipher hi] at hn) h
  · rw [engineSteps_effect hi] at hn
    interval_cases n
    · cases h
      rfl
    · rw [engineRun_one, engineStep_accept hd] at h
      exact (firstStep_frame h).busy

end Sys2Proof.Machine
end

section
/-! PROOFS. A command line (30_encoding.md R102), its command taken as a whole or step by step during the WAIT. -/

namespace Sys2Proof.Machine

variable {s t : State} {i : Instr} {w : Word} {rest : List Move}

/-- WAIT during which the ENGINE takes `n` steps, busy before each: each step is preceded by one STATUS read, which
returns `BUSY = 1` (43_control.md R206; log entry 7). -/
theorem steps_wait {n : Nat} (hrun : engineRun n s = .next t)
    (hbusy : ∀ m u, m < n → engineRun m s = .next u → u.busy = true) (ws : List Word) :
    ∃ ws', ws'.length = n ∧ (∀ w ∈ ws', w.getLsbD 0 = true) ∧
      steps n (withEnv s (.wait :: rest) ws) = .next (withEnv t (.wait :: rest) (ws ++ ws')) := by
  induction n generalizing s ws with
  | zero =>
    cases hrun
    exact ⟨[], rfl, by simp, by rw [List.append_nil]; rfl⟩
  | succ n ih =>
    obtain ⟨u, hu, hrun⟩ := andThen_eq_next hrun
    have hb : s.busy = true := hbusy 0 s n.succ_pos rfl
    have hstep : step (withEnv s (.wait :: rest) ws) = .next (withEnv u (.wait :: rest) (ws ++ [statusWord s])) := by
      rw [step_wait_busy rfl (by exact hb), engineStep_withEnv, hu]
      rfl
    have hlater : ∀ m v, m < n → engineRun m u = .next v → v.busy = true := fun m v hm hv =>
      hbusy (m + 1) v (Nat.succ_lt_succ hm) (by rw [engineRun, hu]; exact hv)
    obtain ⟨ws', hlen, hbits, hsteps⟩ := ih hrun hlater (ws ++ [statusWord s])
    refine ⟨statusWord s :: ws', by rw [List.length_cons, hlen], ?_, ?_⟩
    · rw [List.forall_mem_cons]
      exact ⟨(statusWord_bit0 s).trans hb, hbits⟩
    · rw [steps, hstep, andThen_next, hsteps, List.append_assoc]
      rfl

/-- A command line of an idle block taken step by step: the `CMD` write latches the command. -/
theorem step_cmdLineStepped (h : s.agenda = cmdLineStepped i ++ rest) (hb : s.busy = false) :
    step s = issue (encode i) (setAgenda s (.wait :: rest)) := by
  rw [step_move h]
  exact busStep_write_idle (s := setAgenda s (.wait :: rest)) (off := 0x00) (width := .word) rfl hb

theorem issue_command (hd : decode w = .command i) (hp : precondition i s = none) : issue w s = .next (accept s w) := by
  simp [issue, hd, hp]

theorem issue_violation {f : Fault} (hd : decode w = .command i) (hp : precondition i s = some f) :
    issue w s = .fault f := by
  simp [issue, hd, hp]

/-- A command line taken step by step ends as the whole command does; its WAIT reads STATUS once before each ENGINE
step, and once more when the command has completed. -/
theorem steps_cmdLineStepped (hb : s.busy = false) (hp : precondition i s = none)
    (hd : decode (encode i) = .command i) (he : exec i s = .next t) :
    ∃ ws, ws.length = engineSteps i ∧ (∀ w ∈ ws, w.getLsbD 0 = true) ∧
      steps (engineSteps i + 2) (setAgenda s (cmdLineStepped i ++ rest)) =
        .next (withEnv t rest (s.reads ++ ws ++ [statusWord t])) := by
  obtain ⟨ws, hlen, hbits, hsteps⟩ := steps_wait (rest := rest)
    ((engineRun_eq_exec hb hp hd).trans he) (fun m u hm hu => engineRun_busy hp hd hm hu) s.reads
  have hissue : step (setAgenda s (cmdLineStepped i ++ rest)) =
      .next (withEnv (accept s (encode i)) (.wait :: rest) s.reads) := by
    rw [step_cmdLineStepped (s := setAgenda s _) rfl hb]
    exact issue_command hd ((precondition_congr i rfl rfl rfl rfl).trans hp)
  have hend : t.busy = false := exec_idle he
  have hlast : step (withEnv t (.wait :: rest) (s.reads ++ ws)) =
      .next (withEnv t rest (s.reads ++ ws ++ [statusWord t])) :=
    step_wait_idle (s := withEnv t (.wait :: rest) (s.reads ++ ws)) rfl hend
  refine ⟨ws, hlen, hbits, ?_⟩
  rw [steps, hissue, andThen_next, steps_add, hsteps, andThen_next, steps_one, hlast]

end Sys2Proof.Machine
end

section
namespace Sys2Proof.Proofs

open Sys2Proof.Machine

/-- Settles O54: the `CMD` write raises the violation of the precondition in both ways, and otherwise the ENGINE's steps
during the WAIT add up to the whole command. -/
theorem commandLineWholeOrStepped : Obligations.CommandLineWholeOrStepped := by
  intro s i rest hc hb hwf
  have hd := decode_encode hwf
  have hidle : ∀ ms, (setAgenda s ms).busy = false := fun _ => hb
  have hpre : ∀ ms, precondition i (setAgenda s ms) = precondition i s := fun ms => precondition_congr i rfl rfl rfl rfl
  refine ⟨fun f hf => ⟨?_, ?_⟩, fun hp => ?_⟩
  · rw [step_cmdLine rfl (hidle _) hd, exec_violation (hidle _) ((hpre _).trans hf)]
    rfl
  · rw [step_cmdLineStepped rfl (hidle _)]
    exact issue_violation hd ((hpre _).trans hf)
  · obtain ⟨u, hu⟩ := exec_completes hc hb hp
    have whole : ∀ ms, exec i (setAgenda s ms) = .next (withEnv u ms s.reads) := fun ms => by
      rw [setAgenda_eq_withEnv, exec_withEnv, hu]
      rfl
    obtain ⟨ws, hlen, hbits, hsteps⟩ := steps_cmdLineStepped (rest := rest) hb hp hd hu
    rw [engineSteps_eq] at hlen
    have hcount : (if i = .enc ∨ i = .dec then 36 else 4) = engineSteps i + 2 := by
      rw [engineSteps_eq]
      split <;> rfl
    refine ⟨_, ws, whole rest, ?_, ?_, hlen, hbits⟩
    · have hline := steps_cmdLine (s := setAgenda s (cmdLine i ++ rest)) (rest := rest) rfl hd (whole _)
      exact hline
    · rw [hcount]
      exact hsteps

end Sys2Proof.Proofs
end

section
/-! PROOFS. The word arithmetic of the cipher: what undoes what (40_cipher.md R124), and what a round makes of each
variable. -/

namespace Sys2Proof.Machine

@[simp] theorem sub32_add32 (a b : Word) : sub32 (add32 a b) b = a := by
  rw [sub32, add32, BitVec.add_sub_cancel]

@[simp] theorem add32_sub32 (a b : Word) : add32 (sub32 a b) b = a := by
  rw [sub32, add32, BitVec.sub_add_cancel]

theorem delta_eq : delta = 0x9E3779B9 := by rw [delta]

theorem decSum0_eq : decSum0 = 0xC6EF3720 := by rw [decSum0]

theorem Mix.ext_words {m m' : Mix} (hs : m.sum = m'.sum) (h0 : m.block.v0 = m'.block.v0)
    (h1 : m.block.v1 = m'.block.v1) : m = m' := by
  obtain ⟨sum, v0, v1⟩ := m
  obtain ⟨sum', v0', v1'⟩ := m'
  simp_all

section
variable (k : Key) (m : Mix)

/-! ### A round, variable by variable (40_cipher.md R120, R122) -/

theorem encRound_v0 : (encRound k m).block.v0 =
    add32 m.block.v0 (mixF m.block.v1 (encRound k m).sum k.k0 k.k1) := by
  rw [encRound]

theorem encRound_v1 : (encRound k m).block.v1 =
    add32 m.block.v1 (mixF (encRound k m).block.v0 (encRound k m).sum k.k2 k.k3) := by
  rw [encRound]

theorem decRound_v1 : (decRound k m).block.v1 = sub32 m.block.v1 (mixF m.block.v0 m.sum k.k2 k.k3) := by
  rw [decRound]

theorem decRound_v0 : (decRound k m).block.v0 =
    sub32 m.block.v0 (mixF (decRound k m).block.v1 m.sum k.k0 k.k1) := by
  rw [decRound]

/-! ### A round undone (40_cipher.md R129, R130) -/

/-- The round of DEC takes back each line of the round of ENC, the last line first. -/
theorem decRound_encRound : decRound k (encRound k m) = m := by
  have h1 : (decRound k (encRound k m)).block.v1 = m.block.v1 := by rw [decRound_v1, encRound_v1, sub32_add32]
  have h0 : (decRound k (encRound k m)).block.v0 = m.block.v0 := by rw [decRound_v0, h1, encRound_v0, sub32_add32]
  exact Mix.ext_words (by rw [decRound_sum, encRound_sum, sub32_add32]) h0 h1

/-- The round of ENC takes back each line of the round of DEC, the last line first. -/
theorem encRound_decRound : encRound k (decRound k m) = m := by
  have hs : (encRound k (decRound k m)).sum = m.sum := by rw [encRound_sum, decRound_sum, add32_sub32]
  have h0 : (encRound k (decRound k m)).block.v0 = m.block.v0 := by rw [encRound_v0, hs, decRound_v0, add32_sub32]
  exact Mix.ext_words hs h0 (by rw [encRound_v1, h0, hs, decRound_v1, add32_sub32])

theorem decRounds_encRounds (r : Nat) : decRounds k r (encRounds k r m) = m :=
  Function.LeftInverse.iterate (decRound_encRound k) r m

theorem encRounds_decRounds (r : Nat) : encRounds k r (decRounds k r m) = m :=
  Function.LeftInverse.iterate (encRound_decRound k) r m

end

/-! ### `sum` (40_cipher.md R128) -/

/-- After `r` rounds of ENC the sum is `r * DELTA`, whatever the key and the block. -/
theorem toNat_sum_encRounds (k : Key) (v : Block) (r : Nat) :
    (encRounds k r { sum := 0, block := v }).sum.toNat = r * 0x9E3779B9 % 2 ^ 32 := by
  induction r with
  | zero => rfl
  | succ r ih =>
    rw [encRounds_succ, encRound_sum]
    exact toNat_add32_delta ih

/-- After `r` rounds of DEC the sum is `(32 - r) * DELTA`, whatever the key and the block. -/
theorem toNat_sum_decRounds (k : Key) (v : Block) {r : Nat} (hr : r ≤ 32) :
    (decRounds k r { sum := decSum0, block := v }).sum.toNat = (32 - r) * 0x9E3779B9 % 2 ^ 32 := by
  induction r with
  | zero => exact toNat_decSum0
  | succ r ih =>
    rw [decRounds_succ, decRound_sum]
    exact toNat_sub32_delta hr (ih (Nat.le_of_succ_le hr))

/-- ENC ends with the sum that DEC starts with. -/
theorem encMix_sum (v : Block) (k : Key) : (encMix v k).sum = decSum0 := by
  apply BitVec.eq_of_toNat_eq
  rw [encMix, toNat_sum_encRounds, toNat_decSum0, rounds]

/-- DEC ends with the sum that ENC starts with. -/
theorem decMix_sum (v : Block) (k : Key) : (decMix v k).sum = 0 := by
  apply BitVec.eq_of_toNat_eq
  rw [decMix, rounds, toNat_sum_decRounds k v le_rfl]
  rfl

/-! ### encrypt and decrypt -/

theorem encMix_eq (v : Block) (k : Key) : encMix v k = { sum := decSum0, block := encrypt v k } :=
  congrArg (Mix.mk · _) (encMix_sum v k)

theorem decMix_eq (v : Block) (k : Key) : decMix v k = { sum := 0, block := decrypt v k } :=
  congrArg (Mix.mk · _) (decMix_sum v k)

/-- R129: the rounds of DEC, from the sum with which ENC ends, take back those of ENC. -/
theorem decrypt_encrypt (v : Block) (k : Key) : decrypt (encrypt v k) k = v := by
  have h : decMix (encrypt v k) k = { sum := 0, block := v } := by
    rw [decMix, ← encMix_eq, encMix, decRounds_encRounds]
  rw [← decMix_block, h]

/-- R130: the rounds of ENC, from the sum with which DEC ends, take back those of DEC. -/
theorem encrypt_decrypt (v : Block) (k : Key) : encrypt (decrypt v k) k = v := by
  have h : encMix (decrypt v k) k = { sum := decSum0, block := v } := by
    rw [encMix, ← decMix_eq, decMix, encRounds_decRounds]
  rw [← encMix_block, h]

/-! ### The listings over unbounded integers (40_cipher.md R120, R122, R127) -/

/-- Reducing the three sums of the mixing term is reducing the whole term. -/
theorem toNat_mixF (x s ka kb : Word) :
    (mixF x s ka kb).toNat = Reference.term x.toNat s.toNat ka.toNat kb.toNat % 2 ^ 32 := by
  rw [mixF_eq, Reference.term, Nat.xor_mod_two_pow, Nat.xor_mod_two_pow, xor32, xor32, BitVec.toNat_xor,
    BitVec.toNat_xor, toNat_add32, toNat_add32, toNat_add32, toNat_shl4, toNat_shr5, Nat.mod_add_mod]
  rfl

theorem toNat_add32_mixF (a x s ka kb : Word) : (add32 a (mixF x s ka kb)).toNat =
    Reference.addMod a.toNat (Reference.term x.toNat s.toNat ka.toNat kb.toNat) := by
  rw [toNat_add32, toNat_mixF, Reference.addMod, Nat.add_mod_mod]

theorem toNat_sub32 (a b : Word) : (sub32 a b).toNat = Reference.subMod a.toNat b.toNat := by
  have h := toNat_sub32_cast a b
  rw [Reference.subMod]
  omega

theorem subMod_mod (a b : Nat) : Reference.subMod a (b % 2 ^ 32) = Reference.subMod a b := by
  rw [Reference.subMod, Reference.subMod]
  omega

theorem toNat_sub32_mixF (a x s ka kb : Word) : (sub32 a (mixF x s ka kb)).toNat =
    Reference.subMod a.toNat (Reference.term x.toNat s.toNat ka.toNat kb.toNat) := by
  rw [toNat_sub32, toNat_mixF, subMod_mod]

theorem toNat_delta_eq_reference : delta.toNat = Reference.delta := by rw [toNat_delta, Reference.delta]

/-- The words of the rounds as the variables of the listings. -/
def Mix.vars (m : Mix) : Reference.Vars :=
  { sum := m.sum.toNat, v0 := m.block.v0.toNat, v1 := m.block.v1.toNat }

/-- A round of encrypt is the body of the listing's loop. -/
theorem vars_encRound (k : Key) (m : Mix) : (encRound k m).vars =
    Reference.encBody k.k0.toNat k.k1.toNat k.k2.toNat k.k3.toNat m.vars := by
  have hs : (encRound k m).sum.toNat = Reference.addMod m.sum.toNat Reference.delta := by
    rw [encRound_sum, toNat_add32, toNat_delta_eq_reference, Reference.addMod]
  simp only [Mix.vars, Reference.encBody, encRound_v1, encRound_v0, toNat_add32_mixF, hs]

/-- A round of decrypt is the body of the listing's loop. -/
theorem vars_decRound (k : Key) (m : Mix) : (decRound k m).vars =
    Reference.decBody k.k0.toNat k.k1.toNat k.k2.toNat k.k3.toNat m.vars := by
  have hs : (decRound k m).sum.toNat = Reference.subMod m.sum.toNat Reference.delta := by
    rw [decRound_sum, toNat_sub32, toNat_delta_eq_reference]
  simp only [Mix.vars, Reference.decBody, decRound_v0, decRound_v1, toNat_sub32_mixF, hs]

theorem vars_encMix (v : Block) (k : Key) : (encMix v k).vars =
    Reference.encrypt k.k0.toNat k.k1.toNat k.k2.toNat k.k3.toNat v.v0.toNat v.v1.toNat := by
  rw [encMix]
  exact Function.Semiconj.iterate_right (vars_encRound k) rounds _

theorem vars_decMix (v : Block) (k : Key) : (decMix v k).vars =
    Reference.decrypt k.k0.toNat k.k1.toNat k.k2.toNat k.k3.toNat v.v0.toNat v.v1.toNat := by
  have h0 : decSum0.toNat = Reference.delta * 32 % 2 ^ 32 := by rw [toNat_decSum0, Reference.delta]
  rw [decMix, Reference.decrypt, ← h0]
  exact Function.Semiconj.iterate_right (vars_decRound k) rounds _

end Sys2Proof.Machine
end

section
/-! PROOFS. ENC and DEC as commands, whole (40_cipher.md R120, R122) and one ENGINE step at a time (R121, R123). -/

namespace Sys2Proof.Machine

variable {s t : State} {i : Instr}

/-- ENC and DEC read every register of `K` and `V` (60_exceptions.md R222). -/
theorem exec_cipher_uninit (hi : i = .enc ∨ i = .dec) (hb : s.busy = false) (h : ¬ (KeyHeld s ∧ BlockHeld s)) :
    ∃ r, exec i s = .fault (.cvUninit r) := by
  rcases cipherOperands_cases s with ⟨hk, hv, -⟩ | ⟨r, -, e⟩
  · exact absurd ⟨hk, hv⟩ h
  · have hp : cipherPre s = some (.cvUninit r) := by rw [cipherPre, e, violation]
    refine ⟨r, exec_violation hb ?_⟩
    rcases hi with rfl | rfl
    · exact hp
    · exact hp

theorem keyWords_congr (h : t.k = s.k) : keyWords t = keyWords s := by rw [keyWords, h, keyWords]

theorem blockWords_congr (h : t.v = s.v) : blockWords t = blockWords s := by rw [blockWords, h, blockWords]

section
variable {sum0 : Word} {round : Key → Mix → Mix}

theorem CipherSteps.engineStep_start (c : CipherSteps i sum0 round) (hb : s.busy = true)
    (hd : decode s.opl = .command i) (hg : s.begun = false) :
    engineStep s = .next (setMix (startCommand s) sum0 0) :=
  (engineStep_first hb hd hg).trans (c.startStep _)

theorem CipherSteps.engineStep_begun_round (c : CipherSteps i sum0 round) (hb : s.busy = true)
    (hd : decode s.opl = .command i) (hg : s.begun = true) (hk : KeyHeld s) (hv : BlockHeld s)
    (hr : s.rnd.toNat < 32) : engineStep s =
      .next (putMix s (round (keyWords s) { sum := s.sum, block := blockWords s }) (s.rnd + 1)) :=
  (engineStep_later hb hd hg).trans (c.roundStep s hk hv hr)

theorem CipherSteps.engineStep_begun_finish (c : CipherSteps i sum0 round) (hb : s.busy = true)
    (hd : decode s.opl = .command i) (hg : s.begun = true) (hr : s.rnd.toNat = 32) :
    engineStep s = .next (complete s) :=
  (engineStep_later hb hd hg).trans (c.finishStep s hr.not_lt)

/-- `r` rounds of a command that has started, in a state of any flags. -/
theorem CipherSteps.engineRun_begun_rounds (c : CipherSteps i sum0 round) (hb : s.busy = true)
    (hd : decode s.opl = .command i) (hg : s.begun = true) (hk : KeyHeld s) (m : Mix) {r : Nat} (hr : r ≤ 32) :
    engineRun r (putMix s m 0) = .next (putMix s ((round (keyWords s))^[r] m) (BitVec.ofNat 6 r)) := by
  induction r with
  | zero => rfl
  | succ r ih =>
    have hlt : (BitVec.ofNat 6 r).toNat < 32 := by
      rw [BitVec.toNat_ofNat]
      exact (Nat.mod_le _ _).trans_lt hr
    rw [engineRun_add r 1, ih (Nat.le_of_succ_le hr), andThen_next, engineRun_one,
      c.engineStep_begun_round (s := putMix s ((round (keyWords s))^[r] m) (BitVec.ofNat 6 r)) hb hd hg hk
        (blockHeld_putMix _ _ _) hlt,
      Function.iterate_succ_apply', BitVec.ofNat_add]
    rfl

/-- After the start step and `r` rounds `RND` is `r`, and `SUM` the sum of `r` rounds. -/
theorem CipherSteps.engineRun_rnd_sum (c : CipherSteps i sum0 round) (hb : s.busy = true)
    (hd : decode s.opl = .command i) (hg : s.begun = false) (hk : KeyHeld s) (hv : BlockHeld s) {r : Nat}
    (hr : r ≤ 32) : ∃ u, engineRun (1 + r) s = .next u ∧ u.rnd.toNat = r ∧
      u.sum = ((round (keyWords s))^[r] { sum := sum0, block := blockWords s }).sum := by
  refine ⟨putMix (startCommand s) ((round (keyWords s))^[r] { sum := sum0, block := blockWords s })
    (BitVec.ofNat 6 r), ?_, ?_, rfl⟩
  · rw [engineRun_add, engineRun_one, c.engineStep_start hb hd hg, andThen_next, setMix_eq_putMix (by exact hv)]
    exact c.engineRun_begun_rounds (s := startCommand s) hb hd rfl hk _ hr
  · rw [putMix_rnd, BitVec.toNat_ofNat, Nat.mod_eq_of_lt (by omega)]

/-- Two idle states with the same key and block complete alike, as far as `V` goes. -/
theorem CipherSteps.exec_v_congr (c : CipherSteps i sum0 round) (hk : KeyHeld s) (hv : BlockHeld s)
    (h : exec i s = .next t) {s' : State} (hb' : s'.busy = false) (ek : s'.k = s.k) (ev : s'.v = s.v) :
    ∃ t', exec i s' = .next t' ∧ t'.v = t.v := by
  have hk' : KeyHeld s' := by rwa [KeyHeld, ek]
  have hv' : BlockHeld s' := by rwa [BlockHeld, ev]
  obtain ⟨hb, -⟩ := exec_next_pre h
  rw [c.whole s hb hk hv] at h
  cases h
  refine ⟨_, c.whole s' hb' hk' hv', ?_⟩
  rw [keyWords_congr ek, blockWords_congr ev]
  rfl

end

/-- What ENC leaves in the registers that DEC reads. -/
theorem execEnc_leaves (h : exec .enc s = .next t) : t.busy = false ∧ KeyHeld t ∧ BlockHeld t ∧
    keyWords t = keyWords s ∧ blockWords t = encrypt (blockWords s) (keyWords s) := by
  obtain ⟨hk, -, rfl⟩ := execEnc_next h
  exact ⟨rfl, hk, ⟨rfl, rfl⟩, by simp, by simp⟩

/-- DEC after ENC restores the block (40_cipher.md R129). -/
theorem execDec_after_execEnc (h : exec .enc s = .next t) : ∃ u, exec .dec t = .next u ∧ u.v = s.v ∧ u.k = s.k := by
  obtain ⟨-, hv, -⟩ := execEnc_next h
  obtain ⟨hb, hkt, hvt, ek, ev⟩ := execEnc_leaves h
  have hd := execDec_held hb hkt hvt
  refine ⟨_, hd, ?_, (exec_k hd).trans (exec_k h)⟩
  rw [complete_v, putMix_v, decMix_block, ek, ev, decrypt_encrypt, written_blockWords hv]

end Sys2Proof.Machine
end

section
namespace Sys2Proof.Proofs

open Sys2Proof.Machine

/-- Settles O25: the two laws hold of machine words of every width, the two examples by computation. -/
theorem addSubUndo : Obligations.AddSubUndo := by
  refine ⟨fun a b => ⟨sub32_add32 a b, add32_sub32 a b⟩, ?_, ?_⟩
  · rw [add32]
    rfl
  · rw [sub32]
    rfl

/-- Settles O26: the whole command on held operands, its violation otherwise, and round by round the listing of the
spec; the examples are computed by the kernel. -/
theorem encResult : Obligations.EncResult := by
  refine ⟨fun s hb hk hv => ⟨_, execEnc_held hb hk hv, rfl⟩, fun s hb h => exec_cipher_uninit (.inl rfl) hb h,
    fun v k => ?_, by decide +kernel, by decide +kernel, by decide +kernel, by decide⟩
  rw [← vars_encMix]
  exact ⟨rfl, rfl⟩

/-- Settles O27: as O26, and the sum after the last round is that of `decMix`. -/
theorem decResult : Obligations.DecResult := by
  refine ⟨fun s hb hk hv => ⟨_, execDec_held hb hk hv, rfl⟩, fun s hb h => exec_cipher_uninit (.inr rfl) hb h,
    fun v k => ?_, by decide +kernel, by decide +kernel, fun v k => ?_, by decide⟩
  · rw [← vars_decMix]
    exact ⟨rfl, rfl⟩
  · have h := decMix_sum v k
    rwa [decMix, decSum0_eq, rounds] at h

/-- Settles O28: the steps that ENC shares with DEC, and what the round of ENC makes of each variable. -/
theorem encRoundByRound : Obligations.EncRoundByRound := by
  intro s hb hd
  refine ⟨fun hg => cipherSteps_enc.engineStep_start hb hd hg, fun hg hr hk hv => ?_,
    fun hg hr => cipherSteps_enc.engineStep_begun_finish hb hd hg hr, fun hg hk hv r hr => ?_⟩
  · refine ⟨_, _, _, cipherSteps_enc.engineStep_begun_round hb hd hg hk hv hr, ?_, encRound_v0 _ _, encRound_v1 _ _⟩
    exact (encRound_sum _ _).trans (congrArg (add32 s.sum) delta_eq)
  · obtain ⟨u, hu, hrnd, hsum⟩ := cipherSteps_enc.engineRun_rnd_sum hb hd hg hk hv hr
    exact ⟨u, hu, hrnd, by rw [hsum]; exact toNat_sum_encRounds _ _ r⟩

/-- Settles O29: the steps that DEC shares with ENC, and what the round of DEC makes of each variable. -/
theorem decRoundByRound : Obligations.DecRoundByRound := by
  intro s hb hd
  refine ⟨fun hg => ?_, fun hg hr hk hv => ?_,
    fun hg hr => cipherSteps_dec.engineStep_begun_finish hb hd hg hr, fun hg hk hv r hr => ?_⟩
  · rw [cipherSteps_dec.engineStep_start hb hd hg, decSum0_eq]
    rfl
  · refine ⟨_, _, _, cipherSteps_dec.engineStep_begun_round hb hd hg hk hv hr, decRound_v1 _ _, decRound_v0 _ _, ?_⟩
    exact (decRound_sum _ _).trans (congrArg (sub32 s.sum) delta_eq)
  · obtain ⟨u, hu, hrnd, hsum⟩ := cipherSteps_dec.engineRun_rnd_sum hb hd hg hk hv hr
    exact ⟨u, hu, hrnd, by rw [hsum]; exact toNat_sum_decRounds _ _ hr⟩

/-- Settles O30: the sum after `r` rounds, and the table as the 32 multiples of `DELTA`. -/
theorem sumSchedule : Obligations.SumSchedule := by
  refine ⟨fun k v r _ => toNat_sum_encRounds k v r, fun k v r h1 hr => ?_, fun k v => ?_⟩
  · rw [← decSum0_eq, toNat_sum_decRounds k v (by omega)]
    congr 2
    omega
  · have h : ∀ r, (encRounds k r { sum := 0, block := v }).sum = BitVec.ofNat 32 (r * 0x9E3779B9) := fun r =>
      BitVec.eq_of_toNat_eq ((toNat_sum_encRounds k v r).trans (BitVec.toNat_ofNat _ _).symm)
    simp only [h]
    decide

/-- Settles O31: the rounds of DEC undo those of ENC, and ENC leaves what DEC reads. -/
theorem decryptUndoesEncrypt : Obligations.DecryptUndoesEncrypt :=
  ⟨decrypt_encrypt, fun _ _ => execDec_after_execEnc⟩

/-- Settles O32: two functions that undo each other are bijections. -/
theorem encryptUndoesDecrypt : Obligations.EncryptUndoesDecrypt := by
  refine ⟨encrypt_decrypt, fun k => ?_⟩
  have hdec : Function.LeftInverse (fun v => decrypt v k) fun v => encrypt v k := fun v => decrypt_encrypt v k
  have henc : Function.LeftInverse (fun v => encrypt v k) fun v => decrypt v k := fun v => encrypt_decrypt v k
  exact ⟨⟨hdec.injective, henc.surjective⟩, ⟨henc.injective, hdec.surjective⟩⟩

/-- Settles O33: ENC and DEC are rounds on the words of `K` and `V`, which a completed command has read as held. -/
theorem cipherDependsOnOperandsOnly : Obligations.CipherDependsOnOperandsOnly := by
  intro i s s' t hi h hb' ek ev
  obtain ⟨sum0, round, c⟩ := exists_cipherSteps hi
  obtain ⟨-, hp⟩ := exec_next_pre h
  obtain ⟨hk, hv⟩ := held_of_precondition hi hp
  exact c.exec_v_congr hk hv h hb' ek ev

end Sys2Proof.Proofs
end

section
/-! PROOFS. What `pad` makes of its input (41_padding.md R150, R155): its length, its bytes of data and its zero
bytes. -/

namespace Sys2Proof.Machine

variable {input : List Byte} {maxLen a : Nat}

/-- The three cases of R150 and R153: nothing copied, a last block that is not full, and full blocks only. -/
theorem npad_cases (len : Nat) :
    (len = 0 ∧ npad len = 8) ∨ (len ≠ 0 ∧ len % 8 ≠ 0 ∧ npad len = 8 - len % 8) ∨
    (len ≠ 0 ∧ len % 8 = 0 ∧ npad len = 0) := by
  unfold npad
  split
  · exact .inl ⟨‹_›, rfl⟩
  · split
    · exact .inr (.inl ⟨‹_›, ‹_›, rfl⟩)
    · exact .inr (.inr ⟨‹_›, by omega, rfl⟩)

theorem pad_fst (input : List Byte) (maxLen : Nat) : (pad input maxLen).1 =
    input.take (min input.length maxLen) ++ List.replicate (npad (min input.length maxLen)) padByte := rfl

theorem pad_snd (input : List Byte) (maxLen : Nat) :
    (pad input maxLen).2 = min input.length maxLen + npad (min input.length maxLen) := rfl

/-- The number that `pad` returns is the length of the bytes it returns. -/
theorem length_pad (input : List Byte) (maxLen : Nat) : (pad input maxLen).1.length = (pad input maxLen).2 := by
  simp [pad_fst, pad_snd]

theorem take_pad (input : List Byte) (maxLen : Nat) :
    (pad input maxLen).1.take (min input.length maxLen) = input.take (min input.length maxLen) := by
  rw [pad_fst, List.take_left' (by simp)]

theorem getElem?_pad_data (h : a < min input.length maxLen) : (pad input maxLen).1[a]? = input[a]? := by
  rw [pad_fst, List.getElem?_append_left (by simpa using h), List.getElem?_take_of_lt h]

theorem getElem?_pad_zero (h : min input.length maxLen ≤ a) (hlt : a < (pad input maxLen).2) :
    (pad input maxLen).1[a]? = some padByte := by
  rw [pad_snd] at hlt
  rw [pad_fst, List.getElem?_append_right (by simpa using h), List.getElem?_replicate, if_pos]
  simp only [List.length_take]
  omega

/-- Only the bytes below the bound are looked at (41_padding.md R156). -/
theorem pad_take (input : List Byte) (maxLen : Nat) : pad (input.take maxLen) maxLen = pad input maxLen := by
  have hlen : min (input.take maxLen).length maxLen = min input.length maxLen := by
    rw [List.length_take]
    omega
  apply Prod.ext
  · rw [pad_fst, pad_fst, hlen, List.take_take, min_eq_left (Nat.min_le_right _ _)]
  · rw [pad_snd, pad_snd, hlen]

/-- Full blocks within the bound are returned as they are (41_padding.md R157). -/
theorem pad_aligned (h8 : input.length % 8 = 0) (hpos : 0 < input.length) (hle : input.length ≤ maxLen) :
    pad input maxLen = (input, input.length) := by
  have hn : npad input.length = 0 := by
    rcases npad_cases input.length with ⟨h, -⟩ | ⟨-, h, -⟩ | ⟨-, -, h⟩
    · omega
    · exact absurd h8 h
    · exact h
  simp [pad, Nat.min_eq_left hle, hn]

/-- Nothing copied gives eight zero bytes (41_padding.md R158). -/
theorem pad_nil (maxLen : Nat) : pad [] maxLen = ([0, 0, 0, 0, 0, 0, 0, 0], 8) := by
  unfold pad
  rw [List.length_nil, Nat.zero_min]
  rfl

end Sys2Proof.Machine
end

section
/-! PROOFS. PCLR, PUSHB and PFIN as whole commands (41_padding.md R151 to R153): the state each completes in, under a
condition on the lengths alone. -/

namespace Sys2Proof.Machine

variable {s : State} {b : Byte}

theorem execPclr_idle (hb : s.busy = false) :
    exec .pclr s = .next (complete (clearPadding (startCommand (accept s (encode .pclr))))) :=
  perform_eq_next hb rfl rfl

/-- PUSHB below the bound stores its byte at `INLEN`. -/
theorem execPushb_below (hb : s.busy = false) (hp : s.padded = false) (hcap : s.maxlen.toNat ≤ s.cfg.maxLenCap.val)
    (hlt : s.inlen.toNat < s.maxlen.toNat) : exec (.pushb b) s =
      .next (complete (setInlen (setBuf (startCommand (accept s (encode (.pushb b))))
        (Memory.insertAll s.buf s.inlen.toNat [b])) (s.inlen + 1))) := by
  refine perform_eq_next hb (by simp [pushbPre, hp]) ?_
  rcases pushbEffect_cases b (startCommand (accept s (encode (.pushb b)))) with ⟨-, -, e⟩ | ⟨-, hout, -⟩ | ⟨hge, -⟩
  · exact e
  · have hout : s.cfg.maxLenCap.val + 8 < s.inlen.toNat + 1 := hout
    omega
  · exact absurd hlt hge

/-- PUSHB at the bound drops its byte. -/
theorem execPushb_bound (hb : s.busy = false) (hp : s.padded = false) (hge : s.maxlen.toNat ≤ s.inlen.toNat) :
    exec (.pushb b) s = .next (complete (startCommand (accept s (encode (.pushb b))))) := by
  refine perform_eq_next hb (by simp [pushbPre, hp]) ?_
  rcases pushbEffect_cases b (startCommand (accept s (encode (.pushb b)))) with ⟨hlt, -⟩ | ⟨hlt, -⟩ | ⟨-, e⟩
  · exact absurd hlt (Nat.not_lt.2 hge)
  · exact absurd hlt (Nat.not_lt.2 hge)
  · exact e

/-- The zero bytes of PFIN lie inside `BUF` when the data does. -/
theorem execPfin_open (hb : s.busy = false) (hp : s.padded = false) (hle : s.inlen.toNat ≤ s.cfg.maxLenCap.val) :
    exec .pfin s = .next (complete (publishPadding (setBuf (startCommand (accept s (encode .pfin)))
      (Memory.insertAll s.buf s.inlen.toNat (List.replicate (npad s.inlen.toNat) padByte)))
      (BitVec.ofNat 32 (s.inlen.toNat + npad s.inlen.toNat)))) := by
  refine perform_eq_next hb (by simp [pfinPre, hp]) ?_
  rcases pfinEffect_cases (startCommand (accept s (encode .pfin))) with ⟨-, e⟩ | ⟨hout, -⟩
  · exact e
  · have hn := npad_le s.inlen.toNat
    have hout : s.cfg.maxLenCap.val + 8 < s.inlen.toNat + npad s.inlen.toNat := hout
    omega

/-- The bytes that PFIN appends are zero. -/
theorem execPfin_zeros {t : State} {a : Nat} (h : exec .pfin s = .next t) (hge : s.inlen.toNat ≤ a)
    (hlt : a < t.padlen.toNat) : Memory.lookup t.buf a = some padByte := by
  rw [execPfin_padlen h] at hlt
  obtain ⟨-, -, rfl⟩ := execPfin_next h
  simp only [complete_buf, publishPadding_buf, setBuf_buf, Memory.lookup_insertAll, List.length_replicate]
  rw [if_pos ⟨hge, hlt⟩, List.getElem?_replicate, if_pos (by omega)]

/-- Below the bound there is room for one more in `INLEN`. -/
theorem toNat_inlen_succ (hlt : s.inlen.toNat < s.maxlen.toNat) : (s.inlen + 1).toNat = s.inlen.toNat + 1 := by
  bv_omega

end Sys2Proof.Machine
end

section
/-! PROOFS. PADMSG (41_padding.md R154, 30_encoding.md R104): the pushes keep that the data in `BUF` is the input so
far, cut off at `MAXLEN`, and PFIN makes of it what `pad` computes. -/

namespace Sys2Proof.Machine

variable {s s₀ t : State} {xs : List Byte} {rest : List Move}

/-- STATUS right after a completion (10_state.md R32). -/
theorem statusWord_completed (hb : s.busy = false) (hd : s.done = true) :
    statusWord s = if s.padded then 0x6 else 0x2 := by
  unfold statusWord
  rw [hb, hd]
  cases s.padded <;> rfl

theorem steps_append {m n : Nat} (h : steps m s = .next t) : steps (m + n) s = steps n t := by
  rw [steps_add, h, andThen_next]

/-- A write to `MAXLEN` before the first byte of a message (43_control.md R205). -/
theorem step_wr_maxlen {m : Word} (ha : s.agenda = wr 0x08 m :: rest) (hb : s.busy = false) (hin : s.inlen = 0)
    (hp : s.padded = false) : step s = .next (setMaxlen (setAgenda s rest) m) := by
  rw [step_move ha]
  show busStep (.write 0x08 .word m) (setAgenda s rest) = _
  rw [busStep_write_idle rfl (by exact hb)]
  exact if_pos ⟨hin, hp⟩

/-- The bytes `xs` have been offered since `s₀`, in which the message began with its bound set. -/
structure Receiving (s₀ : State) (xs : List Byte) (s : State) : Prop where
  cfg : s.cfg = s₀.cfg
  k : s.k = s₀.k
  v : s.v = s₀.v
  maxlen : s.maxlen = s₀.maxlen
  bound : s.maxlen.toNat ≤ s.cfg.maxLenCap.val
  busy : s.busy = false
  done : s.done = true
  padded : s.padded = false
  inlen : s.inlen.toNat = min xs.length s.maxlen.toNat
  bytes : ∀ a, a < s.inlen.toNat → Memory.lookup s.buf a = xs[a]?

/-- The message `xs` of `s₀` has been padded. -/
structure Finished (s₀ : State) (xs : List Byte) (s : State) : Prop where
  k : s.k = s₀.k
  v : s.v = s₀.v
  maxlen : s.maxlen = s₀.maxlen
  busy : s.busy = false
  done : s.done = true
  padded : s.padded = true
  inlen : s.inlen.toNat = min xs.length s.maxlen.toNat
  padlen : s.padlen.toNat = (pad xs s.maxlen.toNat).2
  bytes : ∀ a, a < s.padlen.toNat → Memory.lookup s.buf a = (pad xs s.maxlen.toNat).1[a]?

/-- Nothing has been offered to a block whose `INLEN` is 0. -/
theorem receiving_nil (hb : s.busy = false) (hd : s.done = true) (hp : s.padded = false) (hin : s.inlen = 0)
    (hmax : s.maxlen.toNat ≤ s.cfg.maxLenCap.val) : Receiving s [] s :=
  ⟨rfl, rfl, rfl, rfl, hmax, hb, hd, hp, by simp [hin], by simp [hin]⟩

theorem Receiving.withEnv (h : Receiving s₀ xs s) (ms : List Move) (ws : List Word) :
    Receiving s₀ xs (withEnv s ms ws) :=
  ⟨h.cfg, h.k, h.v, h.maxlen, h.bound, h.busy, h.done, h.padded, h.inlen, h.bytes⟩

theorem Receiving.statusWord_eq (h : Receiving s₀ xs s) : statusWord s = 0x2 := by
  rw [statusWord_completed h.busy h.done, h.padded]
  rfl

theorem Finished.statusWord_eq (h : Finished s₀ xs s) : statusWord s = 0x6 := by
  rw [statusWord_completed h.busy h.done, h.padded]
  rfl

/-- PUSHB adds its byte to the input, whether it is stored or dropped. -/
theorem Receiving.exec_pushb (h : Receiving s₀ xs s) (b : Byte) :
    ∃ t, exec (.pushb b) s = .next t ∧ Receiving s₀ (xs ++ [b]) t := by
  have hin := h.inlen
  rcases Nat.lt_or_ge s.inlen.toNat s.maxlen.toNat with hlt | hge
  · have hxs : s.inlen.toNat = xs.length := by omega
    have hnext := toNat_inlen_succ hlt
    refine ⟨_, execPushb_below h.busy h.padded h.bound hlt,
      h.cfg, h.k, h.v, h.maxlen, h.bound, rfl, rfl, h.padded, ?_, fun a ha => ?_⟩
    · refine hnext.trans ?_
      rw [List.length_append, List.length_singleton]
      show s.inlen.toNat + 1 = min (xs.length + 1) s.maxlen.toNat
      omega
    · have ha : a < xs.length + 1 := by rw [← hxs, ← hnext]; exact ha
      simp only [complete_buf, setInlen_buf, setBuf_buf, Memory.insertAll, Memory.lookup_insert, hxs]
      split
      · next e => rw [e, List.getElem?_concat_length]
      · next hne => rw [h.bytes a (by omega), List.getElem?_append_left (by omega)]
  · refine ⟨_, execPushb_bound h.busy h.padded hge,
      h.cfg, h.k, h.v, h.maxlen, h.bound, rfl, rfl, h.padded, ?_, fun a ha => ?_⟩
    · rw [List.length_append, List.length_singleton]
      show s.inlen.toNat = min (xs.length + 1) s.maxlen.toNat
      omega
    · have ha : a < s.inlen.toNat := ha
      rw [List.getElem?_append_left (by omega)]
      exact h.bytes a ha

/-- PFIN turns the data into the padded input. -/
theorem Receiving.exec_pfin (h : Receiving s₀ xs s) : ∃ t, exec .pfin s = .next t ∧ Finished s₀ xs t := by
  have hin := h.inlen
  have hcap : s.inlen.toNat ≤ s.cfg.maxLenCap.val := by have := h.bound; omega
  have he := execPfin_open h.busy h.padded hcap
  have hsnd : s.inlen.toNat + npad s.inlen.toNat = (pad xs s.maxlen.toNat).2 := by rw [pad_snd, hin]
  have hpad := (execPfin_padlen he).trans hsnd
  refine ⟨_, he, h.k, h.v, h.maxlen, rfl, rfl, rfl, hin, hpad, fun a ha => ?_⟩
  rcases Nat.lt_or_ge a s.inlen.toNat with hlt | hge
  · rw [execPfin_lookup he (.inl hlt), h.bytes a hlt]
    exact (getElem?_pad_data (hin ▸ hlt)).symm
  · rw [execPfin_zeros he hge ha]
    exact (getElem?_pad_zero (hin ▸ hge) (ha.trans_eq hpad)).symm

/-- PADMSG begins with PCLR and the bound. -/
theorem steps_padMsg_start {m : Word} (hb : s.busy = false) (ha : s.agenda = cmdLine .pclr ++ wr 0x08 m :: rest) :
    ∃ s₀, steps 3 s = .next s₀ ∧ Receiving s₀ [] s₀ ∧ s₀.agenda = rest ∧
      s₀.maxlen.toNat = min m.toNat s.cfg.maxLenCap.val ∧ s₀.k = s.k ∧ s₀.v = s.v ∧ s₀.reads = s.reads ++ [0x2] := by
  have hclr := steps_cmdLine ha (decode_encode rfl) (execPclr_idle hb)
  rw [statusWord_completed rfl rfl] at hclr
  have hmax : (BitVec.ofNat 32 (min m.toNat s.cfg.maxLenCap.val)).toNat = min m.toNat s.cfg.maxLenCap.val := by
    have := maxLenCap_lt s
    rw [BitVec.toNat_ofNat]
    omega
  refine ⟨_, (steps_append (n := 1) hclr).trans ((steps_one _).trans (step_wr_maxlen rfl rfl rfl rfl)),
    receiving_nil rfl rfl rfl rfl (hmax.trans_le (Nat.min_le_right _ _)), rfl, hmax, rfl, rfl, rfl⟩

/-- The command lines of the pushes, two steps for each byte. -/
theorem Receiving.steps_pushbs {bytes : List Byte} (h : Receiving s₀ xs s)
    (ha : s.agenda = bytes.flatMap (fun b => cmdLine (.pushb b)) ++ rest) :
    ∃ t, steps (2 * bytes.length) s = .next t ∧ Receiving s₀ (xs ++ bytes) t ∧ t.agenda = rest ∧
      t.reads = s.reads ++ List.replicate bytes.length 0x2 := by
  induction bytes generalizing xs s with
  | nil => exact ⟨s, rfl, by rwa [List.append_nil], ha, by simp⟩
  | cons b bytes ih =>
    rw [List.flatMap_cons, List.append_assoc] at ha
    obtain ⟨t, ht, hrec⟩ := h.exec_pushb b
    have hline := steps_cmdLine ha (decode_encode rfl) ht
    rw [hrec.statusWord_eq] at hline
    obtain ⟨u, hu, hrec', hag, hrd⟩ := ih (hrec.withEnv _ _) rfl
    refine ⟨u, ?_, ?_, hag, ?_⟩
    · rw [List.length_cons, Nat.mul_succ, Nat.add_comm, steps_append hline, hu]
    · rwa [List.append_assoc] at hrec'
    · rw [hrd, withEnv_reads, List.append_assoc, List.length_cons, List.replicate_succ]
      rfl

/-- PADMSG ends with PFIN. -/
theorem Receiving.steps_pfin (h : Receiving s₀ xs s) (ha : s.agenda = cmdLine .pfin ++ rest) :
    ∃ t, Finished s₀ xs t ∧ steps 2 s = .next (Machine.withEnv t rest (s.reads ++ [0x6])) := by
  obtain ⟨t, ht, hfin⟩ := h.exec_pfin
  have hline := steps_cmdLine ha (decode_encode rfl) ht
  rw [hfin.statusWord_eq] at hline
  exact ⟨t, hfin, hline⟩

end Sys2Proof.Machine
end

section
namespace Sys2Proof.Proofs

open Sys2Proof.Machine

/-- Settles O34: what PCLR clears is its whole effect. -/
theorem pclrResult : Obligations.PclrResult :=
  ⟨fun _ hb => ⟨_, execPclr_idle hb, rfl⟩, decode_of_toNat (i := .pclr) rfl rfl⟩

/-- Settles O35: below the bound, at the bound, and on a finished buffer. -/
theorem pushbResult : Obligations.PushbResult := by
  refine ⟨fun b s hb => ⟨fun hp hcap hlt => ?_, fun hp hge => ⟨_, execPushb_bound hb hp hge, rfl⟩, fun hp => ?_⟩,
    fun b => decode_of_toNat rfl ((BitVec.toNat_ofNat _ _).trans (Nat.mod_eq_of_lt ?_))⟩
  · have he := execPushb_below (b := b) hb hp hcap hlt
    refine ⟨_, he, rfl, toNat_inlen_succ hlt, ?_, fun a ha => execPushb_lookup he ha⟩
    simp [Memory.insertAll, Memory.lookup_insert]
  · exact exec_violation hb (by simp [precondition, pushbPre, hp])
  · have := b.isLt
    omega

/-- Settles O36: the number of zero bytes by its three cases, and the bytes from what PFIN writes and leaves. -/
theorem pfinResult : Obligations.PfinResult := by
  refine ⟨fun s hb => ⟨fun hp hle => ?_, fun hp => ?_⟩, decode_of_toNat (i := .pfin) rfl rfl⟩
  · have he := execPfin_open hb hp hle
    have hpad := execPfin_padlen he
    have hn := npad_cases s.inlen.toNat
    refine ⟨_, npad s.inlen.toNat, he, by omega, by omega, by omega, rfl, hpad,
      fun a hge hlt => execPfin_zeros he hge (hlt.trans_eq hpad.symm), fun a ha => execPfin_lookup he (by rwa [hpad])⟩
  · exact exec_violation hb (by simp [precondition, pfinPre, hp])

/-- Settles O37: PCLR and the bound, then the pushes, then PFIN. -/
theorem padmsgComputesPad : Obligations.PadmsgComputesPad := by
  intro s m input rest hb ha
  have ha : s.agenda = cmdLine .pclr ++ wr 0x08 m ::
      (input.flatMap (fun b => cmdLine (.pushb b)) ++ (cmdLine .pfin ++ rest)) := by
    simpa only [padMsg, List.append_assoc, List.cons_append] using ha
  obtain ⟨s₀, h₀, hrec, ha₀, hmax, hk, hv, hrd₀⟩ := steps_padMsg_start hb ha
  obtain ⟨u, hu, hrec, hau, hrdu⟩ := hrec.steps_pushbs ha₀
  obtain ⟨t, hfin, ht⟩ := hrec.steps_pfin hau
  have hbound : t.maxlen.toNat = min m.toNat s.cfg.maxLenCap.val := by rw [hfin.maxlen, hmax]
  obtain ⟨fk, fv, -, fbusy, -, fpadded, finlen, fpadlen, fbytes⟩ := hfin
  rw [hbound] at finlen fpadlen fbytes
  refine ⟨withEnv t rest (u.reads ++ [0x6]), ?_, rfl, fbusy, hbound, finlen, fpadlen, fpadded, fk.trans hk,
    fv.trans hv, ?_, fbytes⟩
  · rw [show 2 * input.length + 5 = 3 + (2 * input.length + 2) by omega, steps_append h₀, steps_append hu, ht]
  · rw [withEnv_reads, hrdu, hrd₀, List.append_assoc s.reads, List.replicate_succ]
    rfl

/-- Settles O38: the bounds by the three cases of the number of zero bytes, the bytes from those of `pad`. -/
theorem padGuarantees : Obligations.PadGuarantees := by
  intro input maxLen padded padlen len hpad hlen
  obtain ⟨rfl, rfl⟩ : (pad input maxLen).1 = padded ∧ (pad input maxLen).2 = padlen := by simp [hpad]
  subst hlen
  have hn := npad_cases (min input.length maxLen)
  have hsnd := pad_snd input maxLen
  refine ⟨length_pad _ _, ?_, ?_, take_pad _ _, fun j => getElem?_pad_zero, fun _ m _ _ => ?_, ?_⟩ <;> omega

/-- Settles O39, from the rules of `pad`; the two examples by computation. -/
theorem padSpecialCases : Obligations.PadSpecialCases :=
  ⟨fun input maxLen => (pad_take input maxLen).symm, fun _ _ => pad_aligned, pad_nil, rfl, rfl⟩

end Sys2Proof.Proofs
end

section
/-! PROOFS. `pack` and `unpack` (42_converter.md R180, R181): the four bytes of a word as digits of its number. -/

namespace Sys2Proof.Machine

theorem toNat_le32 (b0 b1 b2 b3 : Byte) : (le32 b0 b1 b2 b3).toNat =
    b0.toNat + 2 ^ 8 * b1.toNat + 2 ^ 16 * b2.toNat + 2 ^ 24 * b3.toNat := by
  have digit : ∀ (a : Nat) (b : Byte), a <<< 8 ||| b.toNat = 2 ^ 8 * a + b.toNat := fun a b => by
    rw [Nat.shiftLeft_eq, Nat.mul_comm]
    exact (Nat.two_pow_add_eq_or_of_lt (i := 8) b.isLt a).symm
  have h : (le32 b0 b1 b2 b3).toNat = ((b3.toNat <<< 8 ||| b2.toNat) <<< 8 ||| b1.toNat) <<< 8 ||| b0.toNat := by
    simp only [le32, BitVec.toNat_append]
  rw [h, digit, digit, digit]
  omega

theorem toNat_byteOf (w : Word) (j : Nat) : (byteOf w j).toNat = w.toNat / 2 ^ (8 * j) % 256 := by
  rw [byteOf, BitVec.extractLsb'_toNat, Nat.shiftRight_eq_div_pow]

/-- The bytes of a word put together again. -/
theorem le32_byteOf (w : Word) : le32 (byteOf w 0) (byteOf w 1) (byteOf w 2) (byteOf w 3) = w := by
  apply BitVec.eq_of_toNat_eq
  have := w.isLt
  simp only [toNat_le32, toNat_byteOf]
  omega

/-- Each byte of four put together. -/
theorem byteOf_le32 (b0 b1 b2 b3 : Byte) : byteOf (le32 b0 b1 b2 b3) 0 = b0 ∧ byteOf (le32 b0 b1 b2 b3) 1 = b1 ∧
    byteOf (le32 b0 b1 b2 b3) 2 = b2 ∧ byteOf (le32 b0 b1 b2 b3) 3 = b3 := by
  have := b0.isLt
  have := b1.isLt
  have := b2.isLt
  have := b3.isLt
  refine ⟨?_, ?_, ?_, ?_⟩ <;>
  · apply BitVec.eq_of_toNat_eq
    simp only [toNat_byteOf, toNat_le32]
    omega

/-- Byte `j` of each word in the eight bytes of a block (42_converter.md R181). -/
theorem getElem_unpack (v : Block) {j : Nat} (h : j < 4) :
    (unpack v)[j] = byteOf v.v0 j ∧ (unpack v)[4 + j] = byteOf v.v1 j := by
  interval_cases j <;> exact ⟨rfl, rfl⟩

theorem pack_unpack (v : Block) : pack (unpack v) = v :=
  congrArg₂ Block.mk (le32_byteOf v.v0) (le32_byteOf v.v1)

theorem unpack_pack (b : Vector Byte 8) : unpack (pack b) = b := by
  obtain ⟨e0, e1, e2, e3⟩ := byteOf_le32 b[0] b[1] b[2] b[3]
  obtain ⟨e4, e5, e6, e7⟩ := byteOf_le32 b[4] b[5] b[6] b[7]
  have h : unpack (pack b) = #v[b[0], b[1], b[2], b[3], b[4], b[5], b[6], b[7]] := by
    simp only [unpack, pack, e0, e1, e2, e3, e4, e5, e6, e7]
  rw [h]
  ext j hj : 1
  interval_cases j <;> rfl

end Sys2Proof.Machine
end

section
/-! PROOFS. LDBLK and STBLK as whole commands (42_converter.md R182, R183), and the blocks of `BUF` they load and
store. -/

namespace Sys2Proof.Machine

variable {s : State} {idx : Nat}

/-- The written bytes of block `i` of a buffer (20_memory.md R65). -/
def HoldsBlock (m : Memory) (i : Nat) (bs : Vector Byte 8) : Prop :=
  ∀ (j : Nat) (h : j < 8), Memory.lookup m (8 * i + j) = some bs[j]

/-- `BUF` with block `i` stored (42_converter.md R183). -/
def storeBlock (m : Memory) (i : Nat) (bs : Vector Byte 8) : Memory := Memory.insertAll m (blockAddr i) bs.toList

theorem holdsBlock_of_memRead {bs : Vector Byte 8} (h : memRead s (blockAddr idx) 8 = .ok bs) :
    HoldsBlock s.buf idx bs := (memRead_ok h).2

theorem memRead_of_holdsBlock {bs : Vector Byte 8} (h : HoldsBlock s.buf idx bs) (hin : 8 * idx + 8 ≤ bufBytes s) :
    memRead s (blockAddr idx) 8 = .ok bs := memRead_eq_ok hin h

theorem HoldsBlock.unique {m : Memory} {bs cs : Vector Byte 8} (h : HoldsBlock m idx bs) (h' : HoldsBlock m idx cs) :
    bs = cs := by
  ext j hj : 1
  exact Option.some.inj ((h j hj).symm.trans (h' j hj))

/-- A stored block reads back. -/
theorem holdsBlock_storeBlock (m : Memory) (i : Nat) (bs : Vector Byte 8) : HoldsBlock (storeBlock m i bs) i bs := by
  intro j hj
  have hlen : j < bs.toList.length := by rwa [Vector.length_toList]
  rw [storeBlock, blockAddr, Memory.lookup_insertAll_inside hlen, List.getElem?_eq_getElem hlen, Vector.getElem_toList]

/-- Only the bytes of its own block change when a block is stored (42_converter.md R185). -/
theorem lookup_storeBlock_outside {m : Memory} {i a : Nat} {bs : Vector Byte 8} (h : a / 8 ≠ i) :
    Memory.lookup (storeBlock m i bs) a = Memory.lookup m a := by
  refine Memory.lookup_insertAll_outside ?_
  rw [Vector.length_toList, blockAddr]
  omega

/-- Storing the block that is there changes nothing. -/
theorem storeBlock_eq_self {m : Memory} {i : Nat} {bs : Vector Byte 8} (hwf : Memory.wf m = true)
    (h : HoldsBlock m i bs) : storeBlock m i bs = m := by
  refine Memory.eq_of_lookup_eq (Memory.wf_insertAll _ _ _ hwf) hwf fun a => ?_
  by_cases ha : a / 8 = i
  · obtain ⟨j, hj, rfl⟩ : ∃ j, j < 8 ∧ a = 8 * i + j := ⟨a % 8, by omega, by omega⟩
    rw [holdsBlock_storeBlock m i bs j hj, h j hj]
  · exact lookup_storeBlock_outside ha

theorem rangePre_eq_some (h : s.padded = false ∨ s.padlen.toNat / 8 ≤ idx) :
    rangePre idx s = some (.cvRange idx s.padlen) := by
  refine if_neg ?_
  rintro ⟨hp, hi⟩
  rcases h with h | h
  · rw [hp] at h
    cases h
  · omega

theorem execLdblk_readable {bs : Vector Byte 8} (hb : s.busy = false) (hp : s.padded = true)
    (hi : idx < s.padlen.toNat / 8) (h : memRead s (blockAddr idx) 8 = .ok bs) : exec (.ldblk idx) s =
      .next (complete (setBlock (startCommand (accept s (encode (.ldblk idx)))) (pack bs).v0 (pack bs).v1)) := by
  refine perform_eq_next hb ((rangePre_eq_none_iff idx s).2 ⟨hp, hi⟩) ?_
  rw [ldblkEffect, memRead_startCommand, memRead_accept, h]

theorem execStblk_held (hb : s.busy = false) (hp : s.padded = true) (hi : idx < s.padlen.toNat / 8)
    (hin : 8 * idx + 8 ≤ bufBytes s) (hv : BlockHeld s) : exec (.stblk idx) s =
      .next (complete (setBuf (startCommand (accept s (encode (.stblk idx))))
        (storeBlock s.buf idx (unpack (blockWords s))))) := by
  refine perform_eq_next hb ((stblkPre_eq_none_iff idx s).2 ⟨⟨hp, hi⟩, hv⟩) ?_
  rw [stblkEffect, blockOperand_startCommand, blockOperand_accept, blockOperand_held hv]
  exact memWrite_inside (by rwa [Vector.length_toList])

theorem exec_cvRange (hb : s.busy = false) (h : s.padded = false ∨ s.padlen.toNat / 8 ≤ idx) :
    exec (.ldblk idx) s = .fault (.cvRange idx s.padlen) ∧ exec (.stblk idx) s = .fault (.cvRange idx s.padlen) := by
  have hr := rangePre_eq_some h
  exact ⟨exec_violation hb hr, exec_violation hb (by rw [precondition, stblkPre, hr])⟩

/-- In range, STBLK reads both words of `V` (60_exceptions.md R222, R224). -/
theorem execStblk_uninit (hb : s.busy = false) (hp : s.padded = true) (hi : idx < s.padlen.toNat / 8)
    (hv : ¬ BlockHeld s) : ∃ i : Fin 2, s.v[i].held = false ∧ exec (.stblk idx) s = .fault (.cvUninit (.v i)) := by
  rcases blockOperand_cases s with ⟨h, -⟩ | ⟨i, hfalse, e⟩
  · exact absurd h hv
  · refine ⟨i, hfalse, exec_violation hb ?_⟩
    rw [precondition, stblkPre, (rangePre_eq_none_iff idx s).2 ⟨hp, hi⟩, e, violation]

end Sys2Proof.Machine
end

section
namespace Sys2Proof.Proofs

open Sys2Proof.Machine

/-- Settles O40: words as sums of their bytes, from which both conversions undo each other. -/
theorem packUnpackInverse : Obligations.PackUnpackInverse := by
  refine ⟨fun b => ⟨toNat_le32 _ _ _ _, toNat_le32 _ _ _ _⟩, fun v j h => ?_, unpack_pack, pack_unpack,
    by decide, by decide⟩
  obtain ⟨h0, h1⟩ := getElem_unpack v h
  rw [h0, h1]
  exact ⟨toNat_byteOf _ _, toNat_byteOf _ _⟩

/-- Settles O41: a written block can be read, and what is loaded is what it packs to. -/
theorem ldblkResult : Obligations.LdblkResult := by
  refine ⟨fun idx s hb => ⟨fun bs hp hi hin hbs => ?_, fun h => (exec_cvRange hb h).1⟩, fun idx h => ?_⟩
  · exact ⟨_, execLdblk_readable hb hp hi (memRead_of_holdsBlock hbs hin), rfl⟩
  · exact decode_of_toNat (wellFormed_ldblk_iff.2 h) ((BitVec.toNat_ofNat _ _).trans (Nat.mod_eq_of_lt (by omega)))

/-- Settles O42: what is stored is what `V` unpacks to, at the bytes of the block and nowhere else. -/
theorem stblkResult : Obligations.StblkResult := by
  refine ⟨fun idx s hb => ⟨fun hp hi hin hv => ?_, fun h => (exec_cvRange hb h).2,
    fun hp hi hv => execStblk_uninit hb hp hi hv⟩, fun idx h => ?_⟩
  · have he := execStblk_held hb hp hi hin hv
    have hblock := holdsBlock_storeBlock s.buf idx (unpack (blockWords s))
    refine ⟨_, he, rfl, fun j hj => ?_, fun a ha => execStblk_lookup he ha⟩
    obtain ⟨h0, h1⟩ := getElem_unpack (blockWords s) hj
    have hlow := hblock j (by omega)
    have hhigh := hblock (4 + j) (by omega)
    rw [h0] at hlow
    rw [h1, ← Nat.add_assoc] at hhigh
    exact ⟨hlow, hhigh⟩
  · exact decode_of_toNat (wellFormed_stblk_iff.2 h) ((BitVec.toNat_ofNat _ _).trans (Nat.mod_eq_of_lt (by omega)))

/-- Settles O43: the block stored is the one that was loaded, and the block loaded the one that was stored. -/
theorem converterRoundTrip : Obligations.ConverterRoundTrip := by
  intro idx s hc hb hp hi
  obtain ⟨h1, h2⟩ := hc.block_inside hp hi
  have hin : 8 * idx + 8 ≤ bufBytes s := h1.trans h2
  refine ⟨?_, fun hv => ?_⟩
  · obtain ⟨bs, hbs⟩ := hc.block_readable hp hi
    refine ⟨_, _, execLdblk_readable hb hp hi hbs, execStblk_held rfl hp hi hin ⟨rfl, rfl⟩, ?_⟩
    show storeBlock s.buf idx (unpack (pack bs)) = s.buf
    rw [unpack_pack]
    exact storeBlock_eq_self hc.bufCanonical (holdsBlock_of_memRead hbs)
  · refine ⟨_, _, execStblk_held hb hp hi hin hv,
      execLdblk_readable rfl hp hi (memRead_of_holdsBlock (holdsBlock_storeBlock _ _ _) hin), ?_⟩
    rw [pack_unpack]
    exact written_blockWords hv

end Sys2Proof.Proofs
end

section
/-! PROOFS. Passes over the padded buffer (42_converter.md R186, 30_encoding.md R104): what one visit does to its block,
then any order of visits, each block once. -/

namespace Sys2Proof.Machine

variable {s t u : State} {i : Instr} {n : Nat} {order : List Nat} {rest : List Move} {f g : Block → Block}
  {mix : Block → Key → Mix}

/-! ### The buffer -/

/-- The blocks of `order` have been replaced by their images under `f`, and no other byte has changed. -/
structure BlocksMapped (f : Block → Block) (order : List Nat) (m m' : Memory) : Prop where
  inside : ∀ i ∈ order, ∀ bs, HoldsBlock m i bs → HoldsBlock m' i (unpack (f (pack bs)))
  outside : ∀ a, a / 8 ∉ order → Memory.lookup m' a = Memory.lookup m a

theorem blocksMapped_nil (f : Block → Block) (m : Memory) : BlocksMapped f [] m m := ⟨by simp, fun _ _ => rfl⟩

theorem blocksMapped_storeBlock {m : Memory} {bs : Vector Byte 8} (h : HoldsBlock m n bs) :
    BlocksMapped f [n] m (storeBlock m n (unpack (f (pack bs)))) where
  inside := by
    intro i hi cs hcs
    obtain rfl := List.mem_singleton.1 hi
    rw [hcs.unique h]
    exact holdsBlock_storeBlock _ _ _
  outside := fun a ha => lookup_storeBlock_outside (by simpa using ha)

theorem HoldsBlock.of_outside {m m' : Memory} {bs : Vector Byte 8} (h : HoldsBlock m n bs)
    (hm : BlocksMapped f order m m') (hn : n ∉ order) : HoldsBlock m' n bs := by
  intro j hj
  have hdiv : (8 * n + j) / 8 = n := by omega
  rw [hm.outside _ (by rwa [hdiv]), h j hj]

/-- A block visited before the others is not among them. -/
theorem BlocksMapped.cons {m m' m'' : Memory} (h : BlocksMapped f [n] m m') (h' : BlocksMapped f order m' m'')
    (hn : n ∉ order) : BlocksMapped f (n :: order) m m'' where
  inside := by
    intro i hi bs hbs
    rcases List.mem_cons.1 hi with rfl | hi
    · exact (h.inside i (List.mem_singleton_self i) bs hbs).of_outside h' hn
    · have hne : i ∉ [n] := fun hmem => hn (List.mem_singleton.1 hmem ▸ hi)
      exact h'.inside i hi bs (hbs.of_outside h hne)
  outside := by
    intro a ha
    obtain ⟨h1, h2⟩ := not_or.1 (mt List.mem_cons.2 ha)
    rw [h'.outside a h2, h.outside a (by simpa using h1)]

/-- Blocks mapped and mapped back are what they were. -/
theorem BlocksMapped.undo {m m' m'' : Memory} (h : BlocksMapped f order m m') (h' : BlocksMapped g order m' m'')
    (hgf : ∀ v, g (f v) = v) (hwf : Memory.wf m = true) (hwf'' : Memory.wf m'' = true)
    (hheld : ∀ i ∈ order, ∃ bs, HoldsBlock m i bs) : m'' = m := by
  refine Memory.eq_of_lookup_eq hwf'' hwf fun a => ?_
  by_cases ha : a / 8 ∈ order
  · obtain ⟨bs, hbs⟩ := hheld _ ha
    have hback := h'.inside _ ha _ (h.inside _ ha bs hbs)
    rw [pack_unpack, hgf, unpack_pack] at hback
    have hj : a % 8 < 8 := Nat.mod_lt _ (by omega)
    have hsame := (hback _ hj).trans (hbs _ hj).symm
    rwa [Nat.div_add_mod] at hsame
  · rw [h'.outside a ha, h.outside a ha]

/-! ### The state between two visits -/

/-- The block is idle, its padded buffer is finished and its key written: what a pass needs. -/
structure PassReady (s : State) : Prop where
  consistent : Consistent s
  idle : s.busy = false
  padded : s.padded = true
  keyHeld : KeyHeld s

/-- `n` command lines have run from `s` to `t`, each WAIT with one STATUS read, and a pass can go on. -/
structure Passed (n : Nat) (s t : State) : Prop where
  run : steps (2 * n) s = .next t
  ready : PassReady t
  reads : t.reads = s.reads ++ List.replicate n 0x6
  k : t.k = s.k
  padlen : t.padlen = s.padlen
  inlen : t.inlen = s.inlen
  maxlen : t.maxlen = s.maxlen

theorem PassReady.passed_zero (h : PassReady s) : Passed 0 s s := ⟨rfl, h, by simp, rfl, rfl, rfl, rfl⟩

theorem Passed.trans {m n : Nat} (h : Passed m s u) (h' : Passed n u t) : Passed (m + n) s t where
  run := by rw [Nat.mul_add, steps_append h.run, h'.run]
  ready := h'.ready
  reads := by rw [h'.reads, h.reads, List.append_assoc, List.replicate_append_replicate]
  k := h'.k.trans h.k
  padlen := h'.padlen.trans h.padlen
  inlen := h'.inlen.trans h.inlen
  maxlen := h'.maxlen.trans h.maxlen

/-- A block visited takes three command lines. -/
theorem Passed.run_blocks {b : Nat} (h : Passed (3 * b) s t) : steps (6 * b) s = .next t := by
  rw [show 6 * b = 2 * (3 * b) by omega, h.run]

theorem PassReady.withEnv (h : PassReady s) (ms : List Move) (ws : List Word) : PassReady (withEnv s ms ws) :=
  ⟨h.consistent.withEnv ms ws, h.idle, h.padded, h.keyHeld⟩

/-- A command line of a pass: a command that leaves the lengths as they are. -/
theorem PassReady.passed_line (h : PassReady s) (ha : s.agenda = cmdLine i ++ rest) (hwf : i.WellFormed)
    (he : exec i s = .next t) (hin : t.inlen = s.inlen) (hlen : t.padlen = s.padlen) (hp : t.padded = s.padded) :
    Passed 1 s (Machine.withEnv t rest (s.reads ++ [0x6])) := by
  obtain ⟨u, hframe, rfl⟩ := exec_frame he
  have hpad : (complete u).padded = true := hp.trans h.padded
  have hready : PassReady (complete u) := ⟨consistent_exec h.consistent he, rfl, hpad, by
    rw [KeyHeld, exec_k he]
    exact h.keyHeld⟩
  have hrun := steps_cmdLine ha (decode_encode hwf) he
  rw [statusWord_completed rfl rfl, hpad] at hrun
  exact ⟨hrun, hready.withEnv _ _, rfl, hframe.k, hlen, hin, hframe.maxlen⟩

/-- The blocks of a finished buffer have indices that the operand field holds. -/
theorem PassReady.index_lt (h : PassReady s) (hn : n < s.padlen.toNat / 8) : n < 256 := by
  obtain ⟨h1, h2⟩ := h.consistent.block_inside h.padded hn
  have := maxLenCap_lt s
  unfold bufBytes at h2
  omega

/-! ### One block -/

/-- The command lines of one visit with the command `i`: `ENCBLK` and `DECBLK` (30_encoding.md R104). -/
def visit (i : Instr) (n : Nat) : List Move := cmdLine (.ldblk n) ++ cmdLine i ++ cmdLine (.stblk n)

theorem visit_enc : visit .enc = encBlk := rfl

theorem visit_dec : visit .dec = decBlk := rfl

/-- The command `i` leaves in `V` the block of `mix`: what a visit needs to know of ENC and DEC. -/
structure CipherCommand (i : Instr) (mix : Block → Key → Mix) : Prop where
  wellFormed : i.WellFormed
  whole : ∀ {s}, s.busy = false → KeyHeld s → BlockHeld s → exec i s =
    .next (complete (putMix (startCommand (accept s (encode i))) (mix (blockWords s) (keyWords s)) 32))

theorem cipherCommand_enc : CipherCommand .enc encMix := ⟨rfl, execEnc_held⟩

theorem cipherCommand_dec : CipherCommand .dec decMix := ⟨rfl, execDec_held⟩

theorem PassReady.passed_load (h : PassReady s) (ha : s.agenda = cmdLine (.ldblk n) ++ rest)
    (hn : n < s.padlen.toNat / 8) : ∃ t bs, Passed 1 s t ∧ t.agenda = rest ∧ t.buf = s.buf ∧
      HoldsBlock s.buf n bs ∧ BlockHeld t ∧ blockWords t = pack bs := by
  obtain ⟨bs, hbs⟩ := h.consistent.block_readable h.padded hn
  have hline := h.passed_line ha (wellFormed_ldblk_iff.2 (h.index_lt hn))
    (execLdblk_readable h.idle h.padded hn hbs) rfl rfl rfl
  exact ⟨_, bs, hline, rfl, rfl, holdsBlock_of_memRead hbs, ⟨rfl, rfl⟩, rfl⟩

theorem CipherCommand.passed_cipher (c : CipherCommand i mix) (h : PassReady s) (ha : s.agenda = cmdLine i ++ rest)
    (hv : BlockHeld s) : ∃ t, Passed 1 s t ∧ t.agenda = rest ∧ t.buf = s.buf ∧ BlockHeld t ∧
      blockWords t = (mix (blockWords s) (keyWords s)).block :=
  ⟨_, h.passed_line ha c.wellFormed (c.whole h.idle h.keyHeld hv) rfl rfl rfl, rfl, rfl, ⟨rfl, rfl⟩, rfl⟩

theorem PassReady.passed_store (h : PassReady s) (ha : s.agenda = cmdLine (.stblk n) ++ rest)
    (hn : n < s.padlen.toNat / 8) (hv : BlockHeld s) : ∃ t, Passed 1 s t ∧ t.agenda = rest ∧
      t.buf = storeBlock s.buf n (unpack (blockWords s)) := by
  obtain ⟨h1, h2⟩ := h.consistent.block_inside h.padded hn
  have hline := h.passed_line ha (wellFormed_stblk_iff.2 (h.index_lt hn))
    (execStblk_held h.idle h.padded hn (h1.trans h2) hv) rfl rfl rfl
  exact ⟨_, hline, rfl, rfl⟩

/-- A visit loads its block, replaces it and stores it again. -/
theorem CipherCommand.passed_visit (c : CipherCommand i mix) (h : PassReady s) (ha : s.agenda = visit i n ++ rest)
    (hn : n < s.padlen.toNat / 8) : ∃ t, Passed 3 s t ∧ t.agenda = rest ∧
      BlocksMapped (fun v => (mix v (keyWords s)).block) [n] s.buf t.buf := by
  rw [visit, List.append_assoc, List.append_assoc] at ha
  obtain ⟨u₁, bs, load, ha₁, hbuf₁, hbs, hv₁, hw₁⟩ := h.passed_load ha hn
  obtain ⟨u₂, cipher, ha₂, hbuf₂, hv₂, hw₂⟩ := c.passed_cipher load.ready ha₁ hv₁
  have hlen₂ : u₂.padlen = s.padlen := cipher.padlen.trans load.padlen
  obtain ⟨t, store, hat, hbuf⟩ := cipher.ready.passed_store ha₂ (by rwa [hlen₂]) hv₂
  refine ⟨t, (load.trans cipher).trans store, hat, ?_⟩
  rw [hbuf, hbuf₂, hbuf₁, hw₂, hw₁, keyWords_congr load.k]
  exact blocksMapped_storeBlock hbs

/-! ### Many blocks -/

/-- Visits in any order, each block at most once. -/
theorem CipherCommand.passed_visits (c : CipherCommand i mix) (h : PassReady s)
    (ha : s.agenda = order.flatMap (visit i) ++ rest) (hlt : ∀ n ∈ order, n < s.padlen.toNat / 8)
    (hnd : order.Nodup) : ∃ t, Passed (3 * order.length) s t ∧ t.agenda = rest ∧
      BlocksMapped (fun v => (mix v (keyWords s)).block) order s.buf t.buf := by
  induction order generalizing s with
  | nil => exact ⟨s, h.passed_zero, ha, blocksMapped_nil _ _⟩
  | cons n order ih =>
    rw [List.flatMap_cons, List.append_assoc] at ha
    obtain ⟨hn, hlt⟩ := List.forall_mem_cons.1 hlt
    obtain ⟨hnotin, hnd⟩ := List.nodup_cons.1 hnd
    obtain ⟨u, hu, hau, hmu⟩ := c.passed_visit h ha hn
    obtain ⟨t, ht, hat, hmt⟩ := ih hu.ready hau (by rwa [hu.padlen]) hnd
    rw [keyWords_congr hu.k] at hmt
    refine ⟨t, ?_, hat, hmu.cons hmt hnotin⟩
    rw [List.length_cons, Nat.mul_succ, Nat.add_comm]
    exact hu.trans ht

/-- A pass visits every block of the finished buffer once. -/
theorem CipherCommand.passed_pass (c : CipherCommand i mix) (h : PassReady s)
    (hord : order.Perm (List.range (s.padlen.toNat / 8))) (ha : s.agenda = order.flatMap (visit i) ++ rest) :
    ∃ t, Passed (3 * (s.padlen.toNat / 8)) s t ∧ t.agenda = rest ∧
      BlocksMapped (fun v => (mix v (keyWords s)).block) order s.buf t.buf := by
  have hvisits := c.passed_visits h ha (fun n hn => List.mem_range.1 (hord.subset hn))
    (hord.nodup_iff.2 List.nodup_range)
  rwa [hord.length_eq, List.length_range] at hvisits

/-- A pass in the words of R186. -/
theorem CipherCommand.pass_transforms (c : CipherCommand i mix) (h : PassReady s)
    (hord : order.Perm (List.range (s.padlen.toNat / 8))) (ha : s.agenda = order.flatMap (visit i) ++ rest) :
    ∃ t, steps (6 * (s.padlen.toNat / 8)) s = .next t ∧ t.agenda = rest ∧ t.busy = false ∧
      t.reads = s.reads ++ List.replicate (3 * (s.padlen.toNat / 8)) 0x6 ∧
      t.k = s.k ∧ t.padded = true ∧ t.padlen = s.padlen ∧ t.inlen = s.inlen ∧ t.maxlen = s.maxlen ∧
      (∀ (n : Nat) (bs : Vector Byte 8), n < s.padlen.toNat / 8 → HoldsBlock s.buf n bs →
        HoldsBlock t.buf n (unpack (mix (pack bs) (keyWords s)).block)) ∧
      ∀ a, s.padlen.toNat ≤ a → Memory.lookup t.buf a = Memory.lookup s.buf a := by
  obtain ⟨t, ht, hat, hmap⟩ := c.passed_pass h hord ha
  have hmem : ∀ n, n ∈ order ↔ n < s.padlen.toNat / 8 := fun n => hord.mem_iff.trans List.mem_range
  refine ⟨t, ht.run_blocks, hat, ht.ready.idle, ht.reads, ht.k, ht.ready.padded, ht.padlen, ht.inlen, ht.maxlen,
    fun n bs hn hbs => hmap.inside n ((hmem n).2 hn) bs hbs, fun a hle => hmap.outside a ?_⟩
  rw [hmem]
  omega

/-! ### ENCBUF and DECBUF -/

theorem step_rd_padlen (ha : s.agenda = rd 0x10 :: rest) (hb : s.busy = false) :
    step s = .next (withEnv s rest (s.reads ++ [s.padlen])) := by
  rw [step_move ha]
  exact busStep_read_ok (s := setAgenda s rest) (off := 0x10) (width := .word) rfl (.inl hb) rfl

/-- The read of `PADLEN` and then every block in index order. -/
theorem CipherCommand.steps_buf (c : CipherCommand i mix) (h : PassReady s)
    (ha : s.agenda = rd 0x10 :: ((List.range (s.padlen.toNat / 8)).flatMap (visit i) ++ rest)) :
    ∃ t, steps (1 + 6 * (s.padlen.toNat / 8)) s = .next t ∧ t.agenda = rest ∧ PassReady t ∧
      t.reads = s.reads ++ [s.padlen] ++ List.replicate (3 * (s.padlen.toNat / 8)) 0x6 ∧
      t.k = s.k ∧ t.padlen = s.padlen ∧
      BlocksMapped (fun v => (mix v (keyWords s)).block) (List.range (s.padlen.toNat / 8)) s.buf t.buf := by
  obtain ⟨t, ht, hat, hmap⟩ := c.passed_pass
    (h.withEnv ((List.range (s.padlen.toNat / 8)).flatMap (visit i) ++ rest) (s.reads ++ [s.padlen])) (.refl _) rfl
  refine ⟨t, ?_, hat, ht.ready, ht.reads, ht.k, ht.padlen, hmap⟩
  rw [steps_append ((steps_one s).trans (step_rd_padlen ha h.idle))]
  exact ht.run_blocks

end Sys2Proof.Machine
end

section
namespace Sys2Proof.Proofs

open Sys2Proof.Machine

/-- Settles O44: a visit maps its own block, visits of different blocks do not meet, and DECBUF maps back what ENCBUF
has mapped. -/
theorem passesTransformEveryBlock : Obligations.PassesTransformEveryBlock := by
  refine ⟨fun s order rest hc hb hp hk hord ha => cipherCommand_enc.pass_transforms ⟨hc, hb, hp, hk⟩ hord
      (by rwa [visit_enc]),
    fun s order rest hc hb hp hk hord ha => cipherCommand_dec.pass_transforms ⟨hc, hb, hp, hk⟩ hord
      (by rwa [visit_dec]),
    fun s rest hc hb hp hk ha => ?_⟩
  simp only [encBuf, encBlocks, decBuf, decBlocks, ← visit_enc, ← visit_dec, List.append_assoc,
    List.cons_append] at ha
  obtain ⟨u, hu, hau, hready, hrdu, hku, hlenu, hmapu⟩ := cipherCommand_enc.steps_buf ⟨hc, hb, hp, hk⟩ ha
  rw [← hlenu] at hau
  obtain ⟨t, ht, hat, hdone, hrdt, -, -, hmapt⟩ := cipherCommand_dec.steps_buf hready hau
  rw [hlenu] at ht hrdt hmapt
  rw [keyWords_congr hku] at hmapt
  refine ⟨t, ?_, hat, by rw [hrdt, hrdu], ?_⟩
  · rw [Nat.two_mul, steps_append hu, ht]
  · refine hmapu.undo hmapt (fun v => decrypt_encrypt v (keyWords s)) hc.bufCanonical hdone.consistent.bufCanonical
      fun n hn => ?_
    obtain ⟨bs, hbs⟩ := hc.block_readable hp (List.mem_range.1 hn)
    exact ⟨bs, holdsBlock_of_memRead hbs⟩

end Sys2Proof.Proofs
end

section
/-! PROOFS. The transactions of the HOST on a data register, whichever it is (43_control.md R204), and on `CMD` and
`MAXLEN` (R201, R205). -/

namespace Sys2Proof.Machine

variable {s : State} {w : Word} {r : RegName}

/-! ### The data registers -/

/-- Where a data register lies in the window (10_state.md R36). -/
def RegName.offset : RegName → Nat
  | .k i => 0x20 + 4 * i.val
  | .v i => 0x30 + 4 * i.val

theorem validAccess_offset (r : RegName) : validAccess r.offset .word = true := by
  rw [validAccess_iff]
  cases r <;> simp only [RegName.offset, true_and] <;> omega

theorem windowReg_offset (r : RegName) : windowReg r.offset = .data r := by
  cases r with
  | k i => exact windowReg_k i
  | v i => exact windowReg_v i

theorem dataReg_setData (s : State) (r : RegName) (w : Word) : dataReg (setData s r w) r = .written w := by
  cases r <;> simp [dataReg, setData, setK, setV]

theorem busStep_write_data (hb : s.busy = false) (r : RegName) (w : Word) :
    busStep (.write r.offset .word w) s = .next (setData s r w) := by
  rw [busStep_write_idle (validAccess_offset r) hb, windowReg_offset, writeWindow]

theorem busStep_read_held (hb : s.busy = false) (h : (dataReg s r).held = true) :
    busStep (.read r.offset .word) s = .next (logRead s (dataReg s r).word) := by
  refine busStep_read_ok (validAccess_offset r) (.inl hb) ?_
  rw [windowReg_offset, readWindow, Reg.read_held r h]

theorem busStep_read_blank (hb : s.busy = false) (h : (dataReg s r).held = false) :
    busStep (.read r.offset .word) s = .fault (.cvUninit r) := by
  refine busStep_read_error (validAccess_offset r) (.inl hb) ?_
  rw [windowReg_offset, readWindow, Reg.read_blank r h]

/-- A data register that has been written reads as the word written. -/
theorem busStep_read_setData (hb : s.busy = false) (r : RegName) (w : Word) :
    busStep (.read r.offset .word) (setData s r w) = .next (logRead (setData s r w) w) := by
  have hreg := dataReg_setData s r w
  rw [busStep_read_held (by rwa [setData_busy]) (by rw [hreg, Reg.written_held]), hreg, Reg.written_word]

/-! ### `CMD` and `MAXLEN` -/

theorem busStep_write_cmd_idle (hb : s.busy = false) (w : Word) : busStep (.write 0x00 .word w) s = issue w s :=
  busStep_write_idle rfl hb

theorem busStep_write_maxlen_idle (hb : s.busy = false) (w : Word) :
    busStep (.write 0x08 .word w) s = writeMaxlen s w :=
  busStep_write_idle rfl hb

/-- `MAXLEN` is written before the first byte of a message only (60_exceptions.md R220). -/
theorem writeMaxlen_violation (h : s.inlen ≠ 0 ∨ s.padded = true) (w : Word) :
    writeMaxlen s w = .fault (.cvSeq (.maxlenWrite w)) := by
  refine if_neg ?_
  rintro ⟨hin, hp⟩
  rcases h with h | h
  · exact h hin
  · rw [hp] at h
    cases h

/-- The bound that `MAXLEN` is clamped to fits a word. -/
theorem toNat_maxlen_setMaxlen (s : State) (w : Word) :
    (setMaxlen s w).maxlen.toNat = min w.toNat s.cfg.maxLenCap.val := by
  have := w.isLt
  rw [setMaxlen_maxlen, BitVec.toNat_ofNat]
  omega

/-- What a word that decodes to a command does when it is issued: its precondition's violation, or acceptance. -/
theorem issue_cases {i : Instr} (hd : decode w = .command i) :
    (precondition i s = none ∧ issue w s = .next (accept s w)) ∨
    ∃ f, precondition i s = some f ∧ issue w s = .fault f := by
  cases hp : precondition i s with
  | none => exact .inl ⟨rfl, issue_command hd hp⟩
  | some f => exact .inr ⟨f, rfl, issue_violation hd hp⟩

/-- NOP completes from every idle state (43_control.md R200). -/
theorem execNop_idle (hb : s.busy = false) :
    exec .nop s = .next (complete (startCommand (accept s (encode .nop)))) :=
  perform_eq_next hb rfl rfl

end Sys2Proof.Machine
end

section
/-! PROOFS. From every state of the invariant the ENGINE comes to rest (43_control.md R207): each of its steps while
`BUSY = 1` answers a next state and brings the completion nearer. -/

namespace Sys2Proof.Machine

variable {s t : State}

/-- A bound on the ENGINE's steps up to the completion: none when idle, at most 34 for a command not yet started, and
the rounds left with the completion step for one that has. A started command without rounds takes one step only. -/
def stepsLeft (s : State) : Nat :=
  if s.busy then (if s.begun then 33 - s.rnd.toNat else 34) else 0

theorem stepsLeft_idle (hb : s.busy = false) : stepsLeft s = 0 := by simp [stepsLeft, hb]

theorem stepsLeft_waiting (hb : s.busy = true) (hg : s.begun = false) : stepsLeft s = 34 := by
  simp [stepsLeft, hb, hg]

theorem stepsLeft_begun (hb : s.busy = true) (hg : s.begun = true) : stepsLeft s = 33 - s.rnd.toNat := by
  simp [stepsLeft, hb, hg]

theorem stepsLeft_le (s : State) : stepsLeft s ≤ 34 := by
  unfold stepsLeft
  split
  · split <;> omega
  · omega

/-- A busy block of the invariant has a command in `OPL`. -/
theorem Consistent.exists_command (hc : Consistent s) (hb : s.busy = true) : ∃ i, decode s.opl = .command i := by
  cases hd : decode s.opl with
  | command i => exact ⟨i, rfl⟩
  | illegal why => simpa [inFlight, hd] using hc.running hb

/-- A round is one step nearer to the completion. -/
theorem stepsLeft_putMix_lt (hb : s.busy = true) (hg : s.begun = true) (hr : s.rnd.toNat < rounds) (m : Mix) :
    stepsLeft (putMix s m (s.rnd + 1)) < stepsLeft s := by
  rw [stepsLeft_begun (s := putMix s m (s.rnd + 1)) hb hg, stepsLeft_begun hb hg, putMix_rnd, toNat_rnd_succ hr]
  unfold rounds at hr
  omega

/-- While `BUSY = 1` the ENGINE is not stopped and comes nearer to the completion. -/
theorem engineStep_progress (hc : Consistent s) (hb : s.busy = true) :
    ∃ t, engineStep s = .next t ∧ stepsLeft t < stepsLeft s := by
  obtain ⟨i, hd⟩ := hc.exists_command hb
  obtain ⟨hpre, hops⟩ := (inFlight_iff hd).1 (hc.running hb)
  cases hg : s.begun with
  | false =>
    have hstart : PaddingSound (startCommand s) := hc.paddingSound.congr rfl rfl rfl rfl rfl rfl
    obtain ⟨t, ht⟩ := firstStep_completes hstart ((precondition_congr i rfl rfl rfl rfl).trans (hpre hg))
    have hframe := firstStep_frame ht
    refine ⟨t, (engineStep_first hb hd hg).trans ht, ?_⟩
    rw [stepsLeft_begun (hframe.busy.trans hb) hframe.begun, stepsLeft_waiting hb hg]
    omega
  | true =>
    rw [engineStep_later hb hd hg]
    rcases laterStep_cases i s with e | ⟨rfl, hr, e⟩ | ⟨rfl, hr, e⟩
    · have hrnd := hc.rndBound
      refine ⟨_, e, ?_⟩
      rw [stepsLeft_idle (complete_busy s), stepsLeft_begun hb hg]
      unfold rounds at hrnd
      omega
    · obtain ⟨hk, hv⟩ := (cipherPre_eq_none_iff s).1 (hops hg (.inl rfl))
      exact ⟨_, e.trans (encRoundStep_held hk hv), stepsLeft_putMix_lt hb hg hr _⟩
    · obtain ⟨hk, hv⟩ := (cipherPre_eq_none_iff s).1 (hops hg (.inr rfl))
      exact ⟨_, e.trans (decRoundStep_held hk hv), stepsLeft_putMix_lt hb hg hr _⟩

/-- The ENGINE is never stopped. -/
theorem engineStep_completes (hc : Consistent s) : ∃ t, engineStep s = .next t := by
  cases hb : s.busy with
  | false => exact ⟨s, engineStep_idle hb⟩
  | true =>
    obtain ⟨t, ht, -⟩ := engineStep_progress hc hb
    exact ⟨t, ht⟩

/-- The ENGINE comes to rest within the steps left, and the block is busy until then. -/
theorem engineRun_until_idle (hc : Consistent s) :
    ∃ m t, m ≤ stepsLeft s ∧ engineRun m s = .next t ∧ t.busy = false ∧
      ∀ j u, j < m → engineRun j s = .next u → u.busy = true := by
  induction hn : stepsLeft s using Nat.strong_induction_on generalizing s with
  | _ n ih =>
    cases hb : s.busy with
    | false => exact ⟨0, s, n.zero_le, rfl, hb, fun j u hj => absurd hj j.not_lt_zero⟩
    | true =>
      obtain ⟨u, hu, hlt⟩ := engineStep_progress hc hb
      rw [hn] at hlt
      obtain ⟨m, t, hm, hrun, hidle, hbusy⟩ := ih _ hlt (consistent_engineStep hc hu) rfl
      have later : ∀ j, engineRun (j + 1) s = engineRun j u := fun j => by rw [engineRun, hu, andThen_next]
      refine ⟨m + 1, t, hm.trans_lt hlt, (later m).trans hrun, hidle, fun j v hj hv => ?_⟩
      cases j with
      | zero => cases hv; exact hb
      | succ j => exact hbusy j v (Nat.lt_of_succ_lt_succ hj) ((later j).symm.trans hv)

end Sys2Proof.Machine
end

section
namespace Sys2Proof.Proofs

open Sys2Proof.Machine

/-- Settles O7: an idle write to `CMD` issues the word. -/
theorem commandIssue : Obligations.CommandIssue := by
  refine ⟨fun s w hb => ?_, fun s w hb => busStep_write_busy rfl hb⟩
  rw [busStep_write_cmd_idle hb]
  refine ⟨?_, fun i hd hp => ⟨_, issue_command hd hp, rfl⟩,
    fun i f hd hp => ⟨issue_violation hd hp, precondition_kind hp⟩⟩
  rintro ⟨why, hd⟩
  exact issue_illegal hd

/-- Settles O9: the rules of a data register, for those of `K` and those of `V`. -/
theorem dataRegisterAccess : Obligations.DataRegisterAccess :=
  fun _ hb =>
    ⟨fun i w => ⟨_, busStep_write_data hb (.k i) w, rfl, busStep_read_setData hb (.k i) w⟩,
      fun i w => ⟨_, busStep_write_data hb (.v i) w, rfl, busStep_read_setData hb (.v i) w⟩,
      fun i => ⟨busStep_read_held (r := .k i) hb, busStep_read_blank (r := .k i) hb⟩,
      fun i => ⟨busStep_read_held (r := .v i) hb, busStep_read_blank (r := .v i) hb⟩⟩

/-- Settles O10: the two cases of a write to `MAXLEN`, and four reads that hold their word themselves. -/
theorem lengthRegisterAccess : Obligations.LengthRegisterAccess := by
  intro s hb
  refine ⟨fun w hin hp => ⟨setMaxlen s w, ?_, rfl, toNat_maxlen_setMaxlen s w⟩, fun w h => ?_,
    busStep_read_ok rfl (.inl hb) rfl, busStep_read_ok rfl (.inl hb) rfl, busStep_read_ok rfl (.inl hb) rfl,
    busStep_read_ok rfl (.inl hb) rfl⟩
  · exact (busStep_write_maxlen_idle hb w).trans (if_pos ⟨hin, hp⟩)
  · exact (busStep_write_maxlen_idle hb w).trans (writeMaxlen_violation h w)

/-- Settles O11: a word that decodes is the word of its command, and the steps of an accepted command add up to the
whole of it. -/
theorem steppedCommandEqualsWhole : Obligations.SteppedCommandEqualsWhole := by
  intro s w i hb hd
  obtain ⟨-, rfl⟩ := decode_eq_command_iff.1 hd
  rw [← engineSteps_eq]
  rcases issue_cases (s := s) hd with ⟨hp, e⟩ | ⟨f, hp, e⟩ <;> rw [e]
  · refine ⟨fun f hf => (nomatch hf), fun a ha => ?_⟩
    cases ha
    exact ⟨engineRun_eq_exec hb hp hd, fun n u hn hu => engineRun_busy hp hd hn hu⟩
  · refine ⟨fun f' hf => ?_, fun a ha => nomatch ha⟩
    cases hf
    exact exec_violation hb hp

/-- Settles O12: a whole command ends in its completion step, and the ENGINE's steps come nearer to it. -/
theorem everyCommandCompletes : Obligations.EveryCommandCompletes := by
  refine ⟨fun s i hc hb hp => ?_, fun s hc => engineStep_completes hc, fun s hc => ?_⟩
  · obtain ⟨t, ht⟩ := exec_completes hc hb hp
    obtain ⟨u, -, rfl⟩ := exec_frame ht
    exact ⟨_, ht, complete_busy u, complete_done u⟩
  · obtain ⟨n, t, hn, hrun, hidle, -⟩ := engineRun_until_idle hc
    exact ⟨n, t, hn.trans (stepsLeft_le s), hrun, hidle⟩

/-- Settles O13: one STATUS read before each step that the ENGINE has left, and one when it has come to rest. -/
theorem waitEnds : Obligations.WaitEnds := by
  intro s rest hc ha
  obtain ⟨n, t, hn, hrun, hidle, hbusy⟩ := engineRun_until_idle hc
  obtain ⟨ws, -, hbits, hwait⟩ := steps_wait (rest := rest) hrun hbusy s.reads
  rw [← ha, withEnv_self] at hwait
  have hlast : step (withEnv t s.agenda (s.reads ++ ws)) = .next (withEnv t rest (s.reads ++ ws ++ [statusWord t])) :=
    step_wait_idle (s := withEnv t s.agenda (s.reads ++ ws)) ha hidle
  refine ⟨n + 1, withEnv t rest (s.reads ++ ws ++ [statusWord t]), statusWord t, ws,
    Nat.succ_le_succ (hn.trans (stepsLeft_le s)), ?_, hidle, rfl, rfl, (statusWord_bit0 t).trans hidle, hbits⟩
  rw [steps_append hwait, steps_one, hlast]

/-- Settles O6: NOP is the protocol of acceptance and completion alone; STATUS by computation. -/
theorem nopChangesNothing : Obligations.NopChangesNothing :=
  ⟨fun _ hb => ⟨_, execNop_idle hb, rfl⟩, rfl, ⟨_, execNop_idle rfl, rfl⟩, rfl⟩

/-- Settles O8: STATUS as a number; every other access of the window meets `BUSY = 1`. -/
theorem statusReadReturnsFlags : Obligations.StatusReadReturnsFlags := by
  refine ⟨fun s => ⟨_, busStep_read_ok rfl (.inr rfl) rfl, statusWord_toNat s⟩, fun s off w hb h4 hle => ?_⟩
  have hv := (validAccess_iff off .word).2 ⟨rfl, h4, hle⟩
  exact ⟨busStep_write_busy hv hb, fun hne => busStep_read_busy hv hb (windowReg_ne_status hne)⟩

end Sys2Proof.Proofs
end

section
/-! PROOFS. Where each violation comes from (60_exceptions.md R216 to R224): an access outside the contract, a busy
block, the register at the offset, the precondition of a command; and that nothing else a step does raises one. -/

namespace Sys2Proof.Machine

variable {s t : State} {off idx : Nat} {width : AccessWidth} {dir : Direction} {w : Word} {i : Instr} {f : Fault}

/-! ### Host accesses -/

/-- The violations of R216 after CV_BUSACC and CV_BUSY: those of one register of the window or of one command. -/
def RegisterViolation (f : Fault) : Prop := ∃ n, violationCode f = some n ∧ 3 ≤ n

/-- The faults of a host access, in the order in which they are looked for (60_exceptions.md R224). -/
inductive AccessFault (s : State) (off : Nat) (width : AccessWidth) (dir : Direction) : Fault → Prop
  | invalid (h : validAccess off width = false) : AccessFault s off width dir (.cvBusacc off width)
  | busy (h : s.busy = true) : AccessFault s off width dir (.cvBusy off dir)
  | register {f : Fault} (h : RegisterViolation f) : AccessFault s off width dir f

theorem precondition_registerViolation (h : precondition i s = some f) : RegisterViolation f := by
  rcases precondition_kind h with rfl | ⟨idx, rfl⟩ | ⟨r, rfl⟩
  · exact ⟨4, rfl, by decide⟩
  · exact ⟨5, rfl, by decide⟩
  · exact ⟨6, rfl, by decide⟩

theorem readWindow_registerViolation {r : WindowReg} (h : readWindow s r = .error f) : RegisterViolation f := by
  cases r with
  | data r =>
    rcases Reg.read_cases (dataReg s r) r with ⟨-, e⟩ | ⟨-, e⟩ <;> rw [readWindow, e] at h <;> cases h
    exact ⟨6, rfl, by decide⟩
  | _ => cases h

theorem issue_registerViolation (h : issue w s = .fault f) : RegisterViolation f := by
  cases hd : decode w with
  | illegal why =>
    rw [issue_illegal hd] at h
    cases h
    exact ⟨3, rfl, by decide⟩
  | command i =>
    rcases issue_cases (s := s) hd with ⟨-, e⟩ | ⟨g, hp, e⟩ <;> rw [e] at h <;> cases h
    exact precondition_registerViolation hp

theorem writeWindow_registerViolation {r : WindowReg} (h : writeWindow s r w = .fault f) : RegisterViolation f := by
  cases r with
  | cmd => exact issue_registerViolation h
  | maxlen =>
    simp only [writeWindow, writeMaxlen] at h
    split at h <;> cases h
    exact ⟨4, rfl, by decide⟩
  | _ => cases h

theorem busStep_read_fault (h : busStep (.read off width) s = .fault f) : AccessFault s off width .read f := by
  cases hv : validAccess off width with
  | false =>
    rw [busStep_read_invalid hv] at h
    cases h
    exact .invalid hv
  | true =>
    by_cases hbusy : s.busy = true ∧ windowReg off ≠ .status
    · obtain ⟨hb, hne⟩ := hbusy
      rw [busStep_read_busy hv hb hne] at h
      cases h
      exact .busy hb
    · have hallowed : s.busy = false ∨ windowReg off = .status := by
        rwa [not_and_or, not_not, Bool.not_eq_true] at hbusy
      cases hr : readWindow s (windowReg off) with
      | ok w => rw [busStep_read_ok hv hallowed hr] at h; cases h
      | error g =>
        rw [busStep_read_error hv hallowed hr] at h
        cases h
        exact .register (readWindow_registerViolation hr)

theorem busStep_write_fault (h : busStep (.write off width w) s = .fault f) : AccessFault s off width .write f := by
  cases hv : validAccess off width with
  | false =>
    rw [busStep_write_invalid hv] at h
    cases h
    exact .invalid hv
  | true =>
    cases hb : s.busy with
    | true =>
      rw [busStep_write_busy hv hb] at h
      cases h
      exact .busy hb
    | false =>
      rw [busStep_write_idle hv hb] at h
      exact .register (writeWindow_registerViolation h)

/-- CV_BUSACC is raised by the access itself only. -/
theorem AccessFault.invalid_of_cvBusacc {o : Nat} {width' : AccessWidth}
    (h : AccessFault s off width dir (.cvBusacc o width')) : validAccess off width = false := by
  cases h with
  | invalid hv => exact hv
  | register hf =>
    obtain ⟨n, hn, hle⟩ := hf
    cases hn
    omega

/-- CV_BUSY is raised by a busy block only. -/
theorem AccessFault.busy_of_cvBusy {o : Nat} {d : Direction} (h : AccessFault s off width dir (.cvBusy o d)) :
    s.busy = true := by
  cases h with
  | busy hb => exact hb
  | register hf =>
    obtain ⟨n, hn, hle⟩ := hf
    cases hn
    omega

theorem RegisterViolation.code_isSome (h : RegisterViolation f) : (violationCode f).isSome = true := by
  obtain ⟨n, hn, -⟩ := h
  rw [hn, Option.isSome_some]

theorem AccessFault.code_isSome (h : AccessFault s off width dir f) : (violationCode f).isSome = true := by
  cases h with
  | invalid hv => rfl
  | busy hb => rfl
  | register hf => exact hf.code_isSome

theorem validAccess_eq_false_iff : validAccess off width = false ↔ ¬ (width = .word ∧ off % 4 = 0 ∧ off ≤ 0x3C) := by
  rw [← validAccess_iff, Bool.not_eq_true]

/-! ### Commands -/

/-- Every command goes through the protocol of acceptance and completion, under its own precondition
(43_control.md R201, R207). -/
theorem exec_is_perform (i : Instr) (s : State) : ∃ effect, exec i s = perform i (precondition i s) effect s := by
  cases i <;> exact ⟨_, rfl⟩

theorem exec_busy (hb : s.busy = true) (i : Instr) : exec i s = .fault (.cvBusy 0x00 .write) := by
  obtain ⟨effect, e⟩ := exec_is_perform i s
  rw [e, perform_busy hb]

theorem memRead_error_code_none {a n : Nat} (h : memRead s a n = .error f) : violationCode f = none := by
  unfold memRead at h
  split at h
  · split at h <;> cases h
    rfl
  · cases h
    rfl

/-- Once its precondition holds, the first step of a command can stop only at the bytes of `BUF`, which is no
violation of the contract (20_memory.md R77; log entry 10). -/
theorem firstStep_fault_code_none (hp : precondition i s = none) (h : firstStep i s = .fault f) :
    violationCode f = none := by
  cases i with
  | nop => cases h
  | enc => cases h
  | dec => cases h
  | pclr => cases h
  | pushb b =>
    rcases pushbEffect_cases b s with ⟨-, -, e⟩ | ⟨-, -, e⟩ | ⟨-, e⟩ <;> rw [firstStep, e] at h <;> cases h
    rfl
  | pfin =>
    rcases pfinEffect_cases s with ⟨-, e⟩ | ⟨-, e⟩ <;> rw [firstStep, e] at h <;> cases h
    rfl
  | ldblk idx =>
    rw [firstStep, ldblkEffect] at h
    split at h <;> cases h
    next e => exact memRead_error_code_none e
  | stblk idx =>
    obtain ⟨-, hv⟩ := (stblkPre_eq_none_iff idx s).1 hp
    rw [firstStep, stblkEffect, blockOperand_held hv] at h
    rcases memWrite_cases s (blockAddr idx) (unpack (blockWords s)).toList with ⟨-, e⟩ | ⟨-, e⟩ <;>
      simp only [e] at h <;> cases h
    rfl

/-- A whole command whose precondition holds raises no violation. -/
theorem exec_fault_code_none (hb : s.busy = false) (hp : precondition i s = none) (h : exec i s = .fault f) :
    violationCode f = none := by
  by_cases hi : i = .enc ∨ i = .dec
  · obtain ⟨sum0, round, c⟩ := exists_cipherSteps hi
    obtain ⟨hk, hv⟩ := held_of_precondition hi hp
    rw [c.whole s hb hk hv] at h
    cases h
  · obtain ⟨he, hd⟩ := not_or.1 hi
    have hpre : precondition i (startCommand (accept s (encode i))) = none :=
      (precondition_congr i rfl rfl rfl rfl).trans hp
    rw [exec_eq_perform s he hd, perform_idle hb hp] at h
    cases hu : firstStep i (startCommand (accept s (encode i))) <;> rw [hu] at h <;> cases h
    exact firstStep_fault_code_none hpre hu

/-- From an idle block a command raises exactly the violation of its precondition (43_control.md R201). -/
theorem exec_eq_violation_iff (hb : s.busy = false) (hf : (violationCode f).isSome = true) :
    exec i s = .fault f ↔ precondition i s = some f := by
  refine ⟨fun h => ?_, exec_violation hb⟩
  cases hp : precondition i s with
  | none =>
    rw [exec_fault_code_none hb hp h] at hf
    cases hf
  | some g =>
    rw [exec_violation hb hp] at h
    cases h
    rfl

theorem rangePre_eq_some_iff : rangePre idx s = some f ↔
    (s.padded = false ∨ s.padlen.toNat / 8 ≤ idx) ∧ f = .cvRange idx s.padlen := by
  refine ⟨fun h => ?_, fun ⟨hout, hf⟩ => hf ▸ rangePre_eq_some hout⟩
  have hout : s.padded = false ∨ s.padlen.toNat / 8 ≤ idx := by
    by_contra hin
    rw [not_or, Bool.not_eq_false, not_le] at hin
    rw [(rangePre_eq_none_iff idx s).2 hin] at h
    cases h
  rw [rangePre_eq_some hout] at h
  exact ⟨hout, (Option.some.inj h).symm⟩

/-- Out of range STBLK raises CV_RANGE before it looks at `V` (60_exceptions.md R224). -/
theorem stblkPre_eq_cvRange_iff : stblkPre idx s = some (.cvRange idx s.padlen) ↔
    s.padded = false ∨ s.padlen.toNat / 8 ≤ idx := by
  unfold stblkPre
  cases hr : rangePre idx s with
  | some g =>
    obtain ⟨hout, rfl⟩ := rangePre_eq_some_iff.1 hr
    exact iff_of_true rfl hout
  | none =>
    obtain ⟨hp, hi⟩ := (rangePre_eq_none_iff idx s).1 hr
    refine iff_of_false ?_ (by simp [hp, hi])
    rcases blockOperand_cases s with ⟨-, e⟩ | ⟨j, -, e⟩ <;> simp [e, violation]

/-! ### Registers that hold a value -/

/-- ENC and DEC raise CV_UNINIT exactly when an operand holds no value (60_exceptions.md R222). -/
theorem exec_cipher_uninit_iff (hi : i = .enc ∨ i = .dec) (hb : s.busy = false) :
    (∃ r, exec i s = .fault (.cvUninit r)) ↔ ¬ (KeyHeld s ∧ BlockHeld s) := by
  refine ⟨?_, exec_cipher_uninit hi hb⟩
  rintro ⟨r, h⟩ ⟨hk, hv⟩
  obtain ⟨sum0, round, c⟩ := exists_cipherSteps hi
  rw [c.whole s hb hk hv] at h
  cases h

/-- In range, STBLK raises CV_UNINIT exactly when a word of `V` holds no value (60_exceptions.md R222). -/
theorem execStblk_uninit_iff (hb : s.busy = false) (hp : s.padded = true) (hi : idx < s.padlen.toNat / 8) :
    (∃ r, exec (.stblk idx) s = .fault (.cvUninit r)) ↔ ¬ BlockHeld s := by
  constructor
  · rintro ⟨r, h⟩ hv
    have hpre : precondition (.stblk idx) s = none := (stblkPre_eq_none_iff idx s).2 ⟨⟨hp, hi⟩, hv⟩
    cases exec_fault_code_none hb hpre h
  · intro hv
    obtain ⟨j, -, h⟩ := execStblk_uninit hb hp hi hv
    exact ⟨_, h⟩

/-- LDBLK reads no register of `K` or `V` (60_exceptions.md R222). -/
theorem execLdblk_ne_uninit {r : RegName} (hb : s.busy = false) : exec (.ldblk idx) s ≠ .fault (.cvUninit r) := by
  intro h
  obtain ⟨-, e⟩ := rangePre_eq_some_iff.1 ((exec_eq_violation_iff hb rfl).1 h)
  cases e

theorem windowReg_eq_data_iff {r : RegName} : windowReg off = .data r ↔ off = r.offset := by
  refine ⟨fun h => ?_, fun h => h ▸ windowReg_offset r⟩
  cases r with
  | k i => exact windowReg_eq_k h
  | v i => exact windowReg_eq_v h

theorem dataReg_setData_ne {r r' : RegName} (h : r ≠ r') : dataReg (setData s r w) r' = dataReg s r' := by
  cases r with
  | k i =>
    cases r' with
    | k j => exact setK_getElem_ne fun e => h (congrArg _ e)
    | v j => rfl
  | v i =>
    cases r' with
    | k j => rfl
    | v j => exact setV_getElem_ne fun e => h (congrArg _ e)

theorem busStep_read_uninit_iff (hb : s.busy = false) (r : RegName) :
    busStep (.read r.offset .word) s = .fault (.cvUninit r) ↔ (dataReg s r).held = false := by
  refine ⟨fun h => ?_, busStep_read_blank hb⟩
  by_contra hheld
  rw [busStep_read_held hb (by simpa using hheld)] at h
  cases h

/-- A HOST write makes the register at its offset hold a value, and no other (60_exceptions.md R222). -/
theorem busStep_write_held_iff (h : busStep (.write off width w) s = .next t) (r : RegName) :
    (dataReg t r).held = true ↔ (dataReg s r).held = true ∨ off = r.offset := by
  have elsewhere : ∀ {x : WindowReg}, windowReg off = x → x ≠ .data r → off ≠ r.offset :=
    fun hx hne e => hne (hx.symm.trans (windowReg_eq_data_iff.2 e))
  obtain ⟨-, -, ⟨hr, -, rfl⟩ | ⟨hr, -, -, rfl⟩ | ⟨r', hr, rfl⟩ | ⟨hr, rfl⟩⟩ := busStep_write_next h
  · exact (or_iff_left (elsewhere hr nofun)).symm
  · exact (or_iff_left (elsewhere hr nofun)).symm
  · by_cases e : r' = r
    · subst e
      exact iff_of_true (by rw [dataReg_setData, Reg.written_held]) (.inr (windowReg_eq_data_iff.1 hr))
    · rw [dataReg_setData_ne e]
      exact (or_iff_left (elsewhere hr (by simpa using e))).symm
  · have hne : off ≠ r.offset := by rcases hr with hr | hr | hr | hr <;> exact elsewhere hr nofun
    exact (or_iff_left hne).symm

theorem dataReg_resetBlock_held (s : State) (r : RegName) : (dataReg (resetBlock s) r).held = false := by
  cases r with
  | k i => fin_cases i <;> rfl
  | v i => fin_cases i <;> rfl

/-- A completed ENC, DEC or LDBLK has written both words of `V` (60_exceptions.md R222). -/
theorem exec_blockHeld (hi : i = .enc ∨ i = .dec ∨ ∃ idx, i = .ldblk idx) (h : exec i s = .next t) : BlockHeld t := by
  rcases hi with rfl | rfl | ⟨idx, rfl⟩
  · obtain ⟨-, -, rfl⟩ := execEnc_next h
    exact ⟨rfl, rfl⟩
  · obtain ⟨-, -, rfl⟩ := execDec_next h
    exact ⟨rfl, rfl⟩
  · obtain ⟨-, bs, -, rfl⟩ := execLdblk_next h
    exact ⟨rfl, rfl⟩

/-- The other commands leave `V` alone. -/
theorem exec_v (hi : ¬ (i = .enc ∨ i = .dec ∨ ∃ idx, i = .ldblk idx)) (h : exec i s = .next t) : t.v = s.v := by
  obtain ⟨he, hd, hl⟩ : i ≠ .enc ∧ i ≠ .dec ∧ ∀ idx, i ≠ .ldblk idx := by simpa using hi
  obtain ⟨-, -, -, -, -, -, -, hv, -⟩ := Proofs.commandWritesOnlyItsRegisters i s t h
  exact hv he hd hl

theorem exec_v_held (h : exec i s = .next t) (j : Fin 2) (hj : s.v[j].held = true) : t.v[j].held = true := by
  by_cases hi : i = .enc ∨ i = .dec ∨ ∃ idx, i = .ldblk idx
  · obtain ⟨h0, h1⟩ := exec_blockHeld hi h
    fin_cases j
    · exact h0
    · exact h1
  · rwa [exec_v hi h]

/-! ### Any move -/

theorem wholeCommand_fault_code_isSome (hc : Consistent s) (h : wholeCommand w s = .fault f) :
    (violationCode f).isSome = true := by
  cases hb : s.busy with
  | true =>
    rw [wholeCommand_busy hb] at h
    cases h
    rfl
  | false =>
    cases hd : decode w with
    | illegal why =>
      rw [wholeCommand_illegal hb hd] at h
      cases h
      rfl
    | command i =>
      rw [wholeCommand_idle hb hd] at h
      cases hp : precondition i s with
      | none =>
        obtain ⟨t, ht⟩ := exec_completes hc hb hp
        rw [ht] at h
        cases h
      | some g =>
        rw [exec_violation hb hp] at h
        cases h
        exact (precondition_registerViolation hp).code_isSome

theorem waitStep_completes (hc : Consistent s) : ∃ t, waitStep s = .next t := by
  cases hb : s.busy with
  | false => exact ⟨_, waitStep_idle hb⟩
  | true =>
    obtain ⟨t, ht⟩ := engineStep_completes (hc.logRead (statusWord s))
    exact ⟨_, by rw [waitStep_busy hb, ht, andThen_next]⟩

theorem runMove_fault_code_isSome {m : Move} (hc : Consistent s) (h : runMove m s = .fault f) :
    (violationCode f).isSome = true := by
  cases m with
  | bus a =>
    cases a with
    | read off width => exact (busStep_read_fault h).code_isSome
    | write off width w => exact (busStep_write_fault h).code_isSome
  | command w => exact wholeCommand_fault_code_isSome hc h
  | engine =>
    obtain ⟨t, ht⟩ := engineStep_completes hc
    cases h.symm.trans ht
  | wait =>
    obtain ⟨t, ht⟩ := waitStep_completes hc
    cases h.symm.trans ht
  | rst => cases h

end Sys2Proof.Machine
end

section
namespace Sys2Proof.Proofs

open Sys2Proof.Machine

/-- Settles O45: no register and no command raises CV_BUSACC. -/
theorem busAccessExactly : Obligations.BusAccessExactly := by
  intro s off width w
  rw [← validAccess_eq_false_iff]
  exact ⟨⟨fun h => (busStep_read_fault h).invalid_of_cvBusacc, busStep_read_invalid⟩,
    ⟨fun h => (busStep_write_fault h).invalid_of_cvBusacc, busStep_write_invalid⟩⟩

/-- Settles O46: a busy block answers before the register is looked at, and no register raises CV_BUSY. -/
theorem busyExactly : Obligations.BusyExactly := by
  refine ⟨fun s off w hb h4 hle => ?_, fun s off o d w hb => ⟨fun h => ?_, fun h => ?_⟩, fun i s hb => exec_busy hb i⟩
  · have hv := (validAccess_iff off .word).2 ⟨rfl, h4, hle⟩
    exact ⟨busStep_write_busy hv hb, fun hne => busStep_read_busy hv hb (windowReg_ne_status hne),
      ⟨_, busStep_read_ok rfl (.inr rfl) rfl⟩⟩
  · cases hb.symm.trans (busStep_write_fault h).busy_of_cvBusy
  · cases hb.symm.trans (busStep_read_fault h).busy_of_cvBusy

/-- Settles O47: PUSHB and PFIN by their preconditions, the `MAXLEN` write by its two cases. -/
theorem sequenceExactly : Obligations.SequenceExactly := by
  refine fun s hb => ⟨fun b => ?_, ?_, fun w => ?_, ⟨_, execPclr_idle hb⟩,
    fun b hp hin => ⟨_, execPushb_bound hb hp (by rw [hin])⟩⟩
  · rw [exec_eq_violation_iff hb rfl]
    simp [precondition, pushbPre]
  · rw [exec_eq_violation_iff hb rfl]
    simp [precondition, pfinPre]
  · rw [busStep_write_maxlen_idle hb]
    refine ⟨fun h => ?_, fun h => writeMaxlen_violation h w⟩
    by_contra hopen
    rw [not_or, not_not, Bool.not_eq_true] at hopen
    rw [writeMaxlen, if_pos hopen] at h
    cases h

/-- Settles O48: both commands by their preconditions; a finished buffer holds one block at least. -/
theorem rangeExactly : Obligations.RangeExactly := by
  refine ⟨fun s idx hb => ⟨?_, ?_⟩, fun s hc hp => ?_⟩
  · rw [exec_eq_violation_iff hb rfl, precondition, rangePre_eq_some_iff]
    exact and_iff_left rfl
  · rw [exec_eq_violation_iff hb rfl, precondition]
    exact stblkPre_eq_cvRange_iff
  · rw [hc.padlenDone hp, padlenOf]
    split <;> omega

/-- Settles O49: a command whose operands are held raises nothing; a register is written by the HOST at its offset, and
`V` by ENC, DEC and LDBLK. -/
theorem uninitExactly : Obligations.UninitExactly := by
  refine ⟨fun s hb => ?_, fun i s t h => ?_, fun s t off width w h => ?_, fun s => ?_⟩
  · exact ⟨exec_cipher_uninit_iff (.inl rfl) hb, exec_cipher_uninit_iff (.inr rfl) hb,
      fun _ => execStblk_uninit_iff hb, fun _ _ => execLdblk_ne_uninit hb,
      fun j => busStep_read_uninit_iff hb (.k j), fun j => busStep_read_uninit_iff hb (.v j)⟩
  · exact ⟨fun hi => exec_blockHeld hi h, fun j hj => by rwa [exec_k h], exec_v_held h⟩
  · exact ⟨fun j => busStep_write_held_iff h (.k j), fun j => busStep_write_held_iff h (.v j)⟩
  · exact ⟨fun j => dataReg_resetBlock_held s (.k j), fun j => dataReg_resetBlock_held s (.v j)⟩

/-- Settles O50, by the rule of the bus that comes first, and the numbers as the table has them. -/
theorem violationOrder : Obligations.ViolationOrder := by
  refine ⟨fun s off width w _ hbad => ?_, fun s w why hd => ⟨busStep_write_busy rfl, fun hb => ?_⟩,
    fun s idx hb hout _ => (exec_cvRange hb hout).2,
    ⟨fun _ _ => rfl, fun _ _ => rfl, fun _ => rfl, fun _ => rfl, fun _ _ => rfl, fun _ => rfl, fun _ => rfl,
      fun _ => rfl, fun _ => rfl⟩⟩
  · have hv := validAccess_eq_false_iff.2 hbad
    exact ⟨busStep_read_invalid hv, busStep_write_invalid hv⟩
  · rw [busStep_write_cmd_idle hb]
    exact issue_illegal hd

/-- Settles O51: with moves to come by the kind of the next move; the ENGINE alone is never stopped. -/
theorem onlyContractViolations : Obligations.OnlyContractViolations := by
  intro s f hc h
  cases ha : s.agenda with
  | nil =>
    obtain ⟨t, ht⟩ := engineStep_completes hc
    rw [step_empty ha, ht] at h
    cases h
  | cons m rest =>
    rw [step_move ha] at h
    exact runMove_fault_code_isSome (hc.setAgenda rest) h

/-- Settles O53: what a reset leaves is made of the parameters and the environment alone. -/
theorem resetForgetsEverything : Obligations.ResetForgetsEverything := by
  intro s s' rest ha ha' hcfg hreads
  have alike : resetBlock (setAgenda s' rest) = resetBlock (setAgenda s rest) := by
    simp only [resetBlock_eq_withEnv, setAgenda_cfg, setAgenda_agenda, setAgenda_reads, hcfg, hreads]
  exact ⟨_, _, step_move ha, step_move ha', alike ▸ Same.refl _, rfl, rfl, rfl, rfl, rfl⟩

end Sys2Proof.Proofs
end

section
/-! PROOFS. The result of a run (70_reset_and_hazards.md R253): a run that is over and a run with a violation both stay
where they are, and what `Same` leaves open is no part of what a state shows. -/

namespace Sys2Proof.Machine

variable {s t : State} {m n : Nat}

/-! ### A run that has ended -/

theorem steps_over_of_le (h : steps n s = .next t) (hover : runOver t = true) (hle : n ≤ m) :
    steps m s = .next t := by
  obtain ⟨d, rfl⟩ := Nat.exists_eq_add_of_le hle
  rw [steps_append h, steps_of_runOver hover]

theorem steps_fault_of_le {f : Fault} (h : steps n s = .fault f) (hle : n ≤ m) : steps m s = .fault f := by
  obtain ⟨d, rfl⟩ := Nat.exists_eq_add_of_le hle
  rw [steps_add, h]
  rfl

theorem runResult_next (h : steps n s = .next t) : runResult n s = if runOver t then some (observe t) else none := by
  rw [runResult, h]
  rfl

theorem runResult_eq_some_iff {r : RunResult} :
    runResult n s = some r ↔ ∃ t, steps n s = .next t ∧ runOver t = true ∧ observe t = r := by
  cases h : steps n s with
  | next t => simp [runResult_next h]
  | fault f => simp [runResult, h, resultOf]
  | refused f => simp [runResult, h, resultOf]

theorem runResult_over (h : steps n s = .next t) (hover : runOver t = true) : runResult n s = some (observe t) :=
  runResult_eq_some_iff.2 ⟨t, h, hover, rfl⟩

/-- More steps keep a result. -/
theorem runResult_of_le {r : RunResult} (h : runResult n s = some r) (hle : n ≤ m) : runResult m s = some r := by
  obtain ⟨t, ht, hover, rfl⟩ := runResult_eq_some_iff.1 h
  exact runResult_over (steps_over_of_le ht hover hle) hover

/-- A run that comes to a violation has a result neither before it nor after it. -/
theorem runResult_of_steps_fault {f : Fault} (h : steps n s = .fault f) (m : Nat) : runResult m s = none := by
  rw [Option.eq_none_iff_forall_ne_some]
  intro r hr
  obtain ⟨t, ht, hover, -⟩ := runResult_eq_some_iff.1 hr
  rcases Nat.le_total m n with hle | hle
  · cases h.symm.trans (steps_over_of_le ht hover hle)
  · cases ht.symm.trans (steps_fault_of_le h hle)

/-! ### What a state shows -/

@[simp] theorem length_observe_bytes (s : State) : (observe s).bytes.length = s.padlen.toNat := by simp [observe]

/-- Every byte of `BUF[0 .. PADLEN-1]` holds a value (10_state.md R40 d). -/
theorem Consistent.observe_bytes_written (hc : Consistent s) : ∀ x ∈ (observe s).bytes, x.isSome = true := by
  intro x hx
  obtain ⟨a, ha, rfl⟩ := List.mem_map.1 hx
  exact hc.written a (lt_max_of_lt_right (List.mem_range.1 ha))

theorem Reg.Same.value_eq {r r' : Reg} (h : r.Same r') : r.value = r'.value := by
  obtain ⟨hheld, hword⟩ := h
  cases hr : r.held with
  | false => rw [r.value_blank hr, r'.value_blank (hheld.symm.trans hr)]
  | true => rw [r.value_held hr, r'.value_held (hheld.symm.trans hr), hword hr]

theorem Same.runOver_eq (h : Same s t) : runOver s = runOver t := by simp only [runOver, h.agenda, h.busy]

/-- `Same` leaves open the words of registers that hold no value and the bytes from `max(INLEN, PADLEN)` on; a state
shows neither. -/
theorem Same.observe_eq (h : Same s t) : observe s = observe t := by
  have hk : (observe s).k = (observe t).k := by
    ext i hi : 1
    exact (observe_k s ⟨i, hi⟩).trans ((h.k ⟨i, hi⟩).value_eq.trans (observe_k t ⟨i, hi⟩).symm)
  have hv : (observe s).v = (observe t).v := by
    ext i hi : 1
    exact (observe_v s ⟨i, hi⟩).trans ((h.v ⟨i, hi⟩).value_eq.trans (observe_v t ⟨i, hi⟩).symm)
  have hbytes : (observe s).bytes = (observe t).bytes := by
    simp only [observe, ← h.padlen]
    exact List.map_congr_left fun a ha => h.buf a (lt_max_of_lt_right (List.mem_range.1 ha))
  rw [RunResult.mk.injEq]
  exact ⟨h.reads, hk, hv, h.maxlen, h.inlen, h.padlen, h.padded, h.done, hbytes⟩

/-- Runs that end alike have the same result, or none. -/
theorem resultOf_congr {o o' : Result} (h : EndAlike Same o o') : resultOf o = resultOf o' := by
  rcases h.inv with ⟨u, u', rfl, rfl, hu⟩ | ⟨f, rfl, rfl⟩ | ⟨f, rfl, rfl⟩
  · simp only [resultOf, hu.runOver_eq, hu.observe_eq]
  · rfl
  · rfl

end Sys2Proof.Machine
end

section
namespace Sys2Proof.Proofs

open Sys2Proof.Machine

/-- Runs from two states of the invariant that differ only in what no rule reads end alike. -/
theorem steps_endAlike {s t : State} (n : Nat) (hs : Consistent s) (ht : Consistent t) (h : Same s t) :
    EndAlike Same (steps n s) (steps n t) := by
  induction n generalizing s t with
  | zero => exact h
  | succ n ih =>
    have hstep : EndAlike (fun u u' => Consistent u ∧ Consistent u' ∧ Same u u') (step s) (step t) :=
      (hiddenStateUnobservable s t hs ht h).imp fun u u' hu hu' alike =>
        ⟨invariantKept s u hs hu, invariantKept t u' ht hu', alike⟩
    exact hstep.seq fun u u' ⟨hu, hu', alike⟩ => ih hu hu' alike

/-- Settles O55: a run that is over stays where it is, a violation ends a run, and runs that end alike show the same. -/
theorem resultOfRun : Obligations.ResultOfRun := by
  refine ⟨fun n s t h ha hb => ?_, fun n s t h hgoing => ?_, fun n s f h => runResult_of_steps_fault h,
    fun m n s r => runResult_of_le, fun n s t hs ht h => resultOf_congr (steps_endAlike n hs ht h)⟩
  · refine ⟨observe t, runResult_over h (runOver_iff.2 ⟨ha, hb⟩), rfl, fun i => ?_, fun i => ?_,
      rfl, rfl, rfl, rfl, rfl, length_observe_bytes t, fun a => observe_bytes, Consistent.observe_bytes_written⟩
    · rw [observe_k]
      exact ⟨Reg.value_held _, Reg.value_blank _⟩
    · rw [observe_v]
      exact ⟨Reg.value_held _, Reg.value_blank _⟩
  · have hover : ¬ runOver t = true := fun hover => by
      obtain ⟨ha, hb⟩ := runOver_iff.1 hover
      simp [ha, hb] at hgoing
    rw [runResult_next h, if_neg hover]

end Sys2Proof.Proofs
end

section
/-! PROOFS. The reason the decoder gives for a reserved word, one lemma per reason in the order in which it looks for them
(30_encoding.md R98, R100); that a command's word decodes to it is `decode_of_toNat`. -/

namespace Sys2Proof

variable {w : Word}

theorem decode_of_z1NotZero (h1 : fieldZ1 w ≠ 0) : decode w = .illegal (.z1NotZero (fieldZ1 w)) := by
  rw [decode, if_pos h1]

theorem decode_of_z0NotZero (h1 : fieldZ1 w = 0) (h0 : fieldZ0 w ≠ 0) :
    decode w = .illegal (.z0NotZero (fieldZ0 w)) := by
  rw [decode, if_neg (not_not.2 h1), if_pos h0]

theorem decodeN_of_argNotZero {c : Instr} (harg : fieldARG w ≠ 0) :
    decodeN w c = .illegal (.argNotZero (fieldOP w) (fieldARG w)) := if_neg harg

/-- The opcodes of format N (30_encoding.md R92) allow no operand. -/
theorem decode_of_argNotZero (h1 : fieldZ1 w = 0) (h0 : fieldZ0 w = 0) (hn : (fieldOP w).toNat ∈ [0, 1, 2, 3, 5])
    (harg : fieldARG w ≠ 0) : decode w = .illegal (.argNotZero (fieldOP w) (fieldARG w)) := by
  rw [decode, if_neg (not_not.2 h1), if_neg (not_not.2 h0)]
  simp only [List.mem_cons, List.not_mem_nil, or_false] at hn
  rcases hn with hop | hop | hop | hop | hop <;> rw [hop] <;> exact decodeN_of_argNotZero harg

theorem decode_of_opReserved (h1 : fieldZ1 w = 0) (h0 : fieldZ0 w = 0) (hop : 8 ≤ (fieldOP w).toNat) :
    decode w = .illegal (.opReserved (fieldOP w)) := by
  rw [decode, if_neg (not_not.2 h1), if_neg (not_not.2 h0)]
  split
  case h_9 => rfl
  all_goals omega

end Sys2Proof
end

section
namespace Sys2Proof.Proofs

/-- Settles O4. Each command word of T40 is the number of its command's opcode and operand, and each reserved word of T41
has the one field that gives its reason. -/
theorem wordsOfTheSpecDecode : Obligations.WordsOfTheSpecDecode :=
  ⟨decode_of_toNat (i := .nop) rfl rfl, decode_of_toNat (i := .enc) rfl rfl, decode_of_toNat (i := .dec) rfl rfl,
    decode_of_toNat (i := .pclr) rfl rfl, decode_of_toNat (i := .pushb 0x6F) rfl rfl,
    decode_of_toNat (i := .pfin) rfl rfl, decode_of_toNat (i := .ldblk 1) rfl rfl,
    decode_of_toNat (i := .stblk 16) rfl rfl, decode_of_toNat (i := .ldblk 255) rfl rfl,
    decode_of_opReserved rfl rfl (by decide), decode_of_z0NotZero rfl (by decide),
    decode_of_argNotZero rfl rfl (by decide) (by decide), decode_of_z1NotZero (by decide)⟩

end Sys2Proof.Proofs
end
